-- ==== Sys2Proof/Word.lean ====
section
/-! DEFINITION. The widths the spec gives its values (00_scope.md R8, R9, R10): bytes, 32-bit port words,
13-bit packet identifiers, 4-bit continuity counters, 64-bit counters. -/

namespace Sys2Proof

/-- A byte of a stream or buffer (R10, R11). -/
abbrev Byte := BitVec 8

/-- A command, response or data word of a port: `CMD_W` = 32 (R9). -/
abbrev Word := BitVec 32

/-- A packet identifier: `PID_W` = 13 (R8). -/
abbrev Pid := BitVec 13

/-- A continuity counter: `CC_W` = 4, wrapping modulo 16 (R8). -/
abbrev Cc := BitVec 4

/-- A statistics counter or an epoch: `CTR_W` = 64, wrapping modulo 2^64 (R9, R36, R39). -/
abbrev Ctr := BitVec 64

end Sys2Proof
end

