-- ==== Sys2Proof/Config.lean ====
section
/-! DEFINITION. The parameters of the block: those the spec fixes (R8, R9), the four it leaves OPEN (R9; U1 to U4
of 93_implementation_defined.md), and the model's free values. A free value is an opaque constant with no body, so
nothing can be proved about which value it is. -/

namespace Sys2Proof

/-- `NULL_PID` (R8). -/
def nullPid : Pid := 0x1FFF#13

/-- `SYNC_BYTE` (R9, R119: the spec's value from general knowledge, item G1). -/
def syncByte : Byte := 0x47#8

/-- `PKT_LEN` (R8). -/
def pktLen : Nat := 188

/-- `SB_CAP` (R9, R44). -/
def sbCap : Nat := 65535

/-- `PB_CAP` (R9, R45). -/
def pbCap : Nat := 4096

/-- `MAX_CHUNK`: the largest byte count the 16-bit `n` field of format FN holds (R9, R104). -/
def maxChunk : Nat := 65535

/-- `LANG_PAD` (R8). -/
def langPad : Byte := 0x20#8

/-- The three command ports, each with its own engine and its own response port (R7, R32): `d` is CMD_D and the D
engine, `c` is CMD_C and the C engine, `s` is CMD_S and the S engine. -/
inductive Port where
  | d
  | c
  | s
deriving DecidableEq, Repr, Inhabited

/-- The two values of the OPEN parameter `RESYNC_MODE` (R9, R153). -/
inductive ResyncMode where
  | stride
  | single
deriving DecidableEq, Repr, Inhabited

/-- A language code of exactly `LANG_LEN` = 3 bytes (R8, R295). -/
structure LangCode where
  b0 : Byte
  b1 : Byte
  b2 : Byte
deriving DecidableEq, Repr, Inhabited

/-- The parameters the spec leaves OPEN (R9), as plain data: the rules take them as an argument, and no step changes
them. `videoBytes` lists the stream bytes `VIDEO_PRED` accepts (every predicate on bytes is such a list).
`capSlack` is `UNIT_CAP - 184`, or `none` for an unbounded `UNIT_CAP`, so that `UNIT_CAP ≥ 184` holds of every value. -/
structure Params where
  resyncMode  : ResyncMode
  videoBytes  : List Byte
  langDefault : LangCode
  capSlack    : Option Nat
deriving DecidableEq, Repr, Inhabited

/-- `UNIT_CAP`: a bound of at least 184 bytes, or `none` when unbounded (R9, R42). -/
def Params.unitCap (ps : Params) : Option Nat := ps.capSlack.map (184 + ·)

/-- The default of `VIDEO_PRED`: stream bytes 0xE0 to 0xEF (R9, R248, item G4). -/
def defaultVideoBytes : List Byte :=
  [0xE0#8, 0xE1#8, 0xE2#8, 0xE3#8, 0xE4#8, 0xE5#8, 0xE6#8, 0xE7#8,
   0xE8#8, 0xE9#8, 0xEA#8, 0xEB#8, 0xEC#8, 0xED#8, 0xEE#8, 0xEF#8]

/-- Free value: the machine's `RESYNC_MODE` (OPEN, D8, U1; assumption 2). -/
opaque Config.resyncMode : ResyncMode

/-- Free value: the stream bytes the machine's `VIDEO_PRED` accepts (OPEN, D20, U2; assumption 2). -/
opaque Config.videoBytes : List Byte

/-- Free value: the machine's `LANG_DEFAULT` (OPEN, D30, U3; assumption 2). -/
opaque Config.langDefault : LangCode

/-- Free value: the machine's `UNIT_CAP - 184`, `none` when unbounded (OPEN, D26, U4; assumption 2). -/
opaque Config.capSlack : Option Nat

/-- Free value: the engine that takes the next step when several could and the schedule names none, for each choice in
turn (R81, U16, D45; assumption 1). -/
opaque Config.freeTurn : Nat → Port

/-- The parameters of the machine that comes out of reset: all four free. -/
def Config.params : Params :=
  { resyncMode := Config.resyncMode, videoBytes := Config.videoBytes
    langDefault := Config.langDefault, capSlack := Config.capSlack }

/-- Free value: bits [63:32] of STATE for a buffer length that 32 bits cannot hold. R50 gives those bits as the
length and states nothing for a length of 2^32 or more (assumption 6). -/
opaque Config.wideBufLen : Nat → BitVec 32

/-- Free value: MIN_UNIT and MAX_UNIT for a unit length that 64 bits cannot hold. R49 gives the 64-bit value as the
length and states nothing for a length of 2^64 or more (assumption 6). -/
opaque Config.wideUnitLen : Nat → BitVec 64

end Sys2Proof
end

