-- ==== Sys2Proof/Syntax.lean ====
section
/-! DEFINITION. The commands of the block: one constructor per row of spec/opcode_table.json, with the operand fields of
its format (30_encoding.md R100 to R107). -/

namespace Sys2Proof

/-- The command formats of R101. -/
inductive Format where
  | f0 | fp | fps | fs | ff | fn | fb | fh | fq | fo | fw
deriving DecidableEq, Repr

/-- The commands. Every operand is a field of the command word at the width R101 gives it, so an out-of-range PID, a
reserved code or a reserved selector is an operand value that the command's own rule judges (R102, R103, R111 (c), (d)).
A command of format FN carries the `n` bytes of its data words (R104), `n` being their number. -/
inductive Instr where
  /-- ADD_PAYLOAD (R150). -/
  | addPayload (data : List Byte)
  /-- DISPOSE (R170). -/
  | dispose
  /-- RESET_STREAM (R260). -/
  | resetStream (pid : BitVec 16)
  /-- DISPOSE_STREAM (R262). -/
  | disposeStream (pid : BitVec 16)
  /-- READ_GSTAT (R175). -/
  | readGstat (sel : BitVec 8)
  /-- READ_SSTAT (R270). -/
  | readSstat (sel : BitVec 8) (pid : BitVec 16)
  /-- SET_FILTER (R201). -/
  | setFilter (kind stype : BitVec 2) (small video : Bool) (pid : BitVec 16)
  /-- REQUEST_SECTION (R204). -/
  | requestSection (pid : BitVec 16)
  /-- REMOVE_FILTER (R207). -/
  | removeFilter (pid : BitVec 16)
  /-- CLEAR_FILTERS (R208). -/
  | clearFilters
  /-- SET_PCR_SEEN (R214). -/
  | setPcrSeen
  /-- SB_CLEAR (R290). -/
  | sbClear
  /-- SB_APPEND_BYTE (R291). -/
  | sbAppendByte (b : Byte)
  /-- SB_APPEND_U16 (R292). -/
  | sbAppendU16 (v : BitVec 16)
  /-- SB_APPEND_BYTES (R293). -/
  | sbAppendBytes (data : List Byte)
  /-- SB_APPEND_LANG (R294). -/
  | sbAppendLang (data : List Byte)
  /-- SB_RESERVE (R296). -/
  | sbReserve
  /-- SB_BACKFILL (R297). -/
  | sbBackfill (pos : BitVec 16)
  /-- SB_TO_BYTES (R298). -/
  | sbToBytes
  /-- PB_LOAD (R330). -/
  | pbLoad (data : List Byte)
  /-- PB_RD8 (R331). -/
  | pbRd8 (off : BitVec 12)
  /-- PB_RD16 (R332). -/
  | pbRd16 (off : BitVec 12)
  /-- PB_RD12 (R333). -/
  | pbRd12 (off : BitVec 12)
  /-- PB_WALK (R334). -/
  | pbWalk (off len : BitVec 12)
deriving DecidableEq, Repr

/-- The pseudo-commands of the assembler (R115). `appendNested q body` is `SB_APPEND_NESTED`, `q` being the position its
SB_RESERVE answers. -/
inductive Pseudo where
  | pushByte (b : Byte)
  | setRaw (pid : BitVec 16)
  | setSection (pid : BitVec 16)
  | setStream (pid : BitVec 16) (stype : BitVec 2)
  | resetAllFilters
  | sbBeginLen
  | sbEndLen (pos : BitVec 16)
  | appendNested (q : BitVec 16) (body : List Instr)
deriving DecidableEq, Repr

/-- The bytes an FN command carries in its data words; none for every other format (R104). -/
def Instr.data : Instr → List Byte
  | .addPayload data => data
  | .dispose => []
  | .resetStream _ => []
  | .disposeStream _ => []
  | .readGstat _ => []
  | .readSstat _ _ => []
  | .setFilter _ _ _ _ _ => []
  | .requestSection _ => []
  | .removeFilter _ => []
  | .clearFilters => []
  | .setPcrSeen => []
  | .sbClear => []
  | .sbAppendByte _ => []
  | .sbAppendU16 _ => []
  | .sbAppendBytes data => data
  | .sbAppendLang data => data
  | .sbReserve => []
  | .sbBackfill _ => []
  | .sbToBytes => []
  | .pbLoad data => data
  | .pbRd8 _ => []
  | .pbRd16 _ => []
  | .pbRd12 _ => []
  | .pbWalk _ _ => []

/-- The port a command belongs to (R105, R106, R107). -/
def Instr.port : Instr → Port
  | .addPayload _ => .d
  | .dispose => .d
  | .resetStream _ => .d
  | .disposeStream _ => .d
  | .readGstat _ => .d
  | .readSstat _ _ => .d
  | .setFilter _ _ _ _ _ => .c
  | .requestSection _ => .c
  | .removeFilter _ => .c
  | .clearFilters => .c
  | .setPcrSeen => .c
  | .sbClear => .s
  | .sbAppendByte _ => .s
  | .sbAppendU16 _ => .s
  | .sbAppendBytes _ => .s
  | .sbAppendLang _ => .s
  | .sbReserve => .s
  | .sbBackfill _ => .s
  | .sbToBytes => .s
  | .pbLoad _ => .s
  | .pbRd8 _ => .s
  | .pbRd16 _ => .s
  | .pbRd12 _ => .s
  | .pbWalk _ _ => .s

/-- The opcode of a command (R105, R106, R107). -/
def Instr.opcode : Instr → BitVec 8
  | .addPayload _ => 0x01#8
  | .dispose => 0x02#8
  | .resetStream _ => 0x03#8
  | .disposeStream _ => 0x04#8
  | .readGstat _ => 0x05#8
  | .readSstat _ _ => 0x06#8
  | .setFilter _ _ _ _ _ => 0x10#8
  | .requestSection _ => 0x11#8
  | .removeFilter _ => 0x12#8
  | .clearFilters => 0x13#8
  | .setPcrSeen => 0x14#8
  | .sbClear => 0x20#8
  | .sbAppendByte _ => 0x21#8
  | .sbAppendU16 _ => 0x22#8
  | .sbAppendBytes _ => 0x23#8
  | .sbAppendLang _ => 0x24#8
  | .sbReserve => 0x25#8
  | .sbBackfill _ => 0x26#8
  | .sbToBytes => 0x27#8
  | .pbLoad _ => 0x30#8
  | .pbRd8 _ => 0x31#8
  | .pbRd16 _ => 0x32#8
  | .pbRd12 _ => 0x33#8
  | .pbWalk _ _ => 0x34#8

end Sys2Proof
end

