-- ==== Sys2Proof/WellFormed.lean ====
section
/-! DEFINITION. Which commands a host can write: `fits` says the encoding can hold the command, `legal` that its codes and
selectors are not reserved, `wf` both. A command that fits but is not legal is one the block decodes and answers ILLEGAL
(R111 (c), (d)). -/

namespace Sys2Proof

/-- The byte count of an FN command fits its 16-bit `n` field (R101, R104). -/
def Instr.fits (i : Instr) : Bool := decide (i.data.length ≤ maxChunk)

/-- The codes of SET_FILTER: `kind` and `stype` are not 3, and `stype` is 0 unless `kind` is STREAM (R103, R111 (c)). -/
def legalCodes (kind stype : BitVec 2) : Bool :=
  decide (kind ≠ 3) && decide (stype ≠ 3) && (decide (kind = 2) || decide (stype = 0))

/-- No operand is a reserved code or a reserved selector (R47, R49, R103, R111 (c), (d)). -/
def Instr.legal : Instr → Bool
  | .readGstat sel => decide (sel.toNat ≤ 0x06)
  | .readSstat sel _ => decide (sel.toNat ≤ 0x07)
  | .setFilter kind stype _ _ _ => legalCodes kind stype
  | .addPayload _ => true
  | .dispose => true
  | .resetStream _ => true
  | .disposeStream _ => true
  | .requestSection _ => true
  | .removeFilter _ => true
  | .clearFilters => true
  | .setPcrSeen => true
  | .sbClear => true
  | .sbAppendByte _ => true
  | .sbAppendU16 _ => true
  | .sbAppendBytes _ => true
  | .sbAppendLang _ => true
  | .sbReserve => true
  | .sbBackfill _ => true
  | .sbToBytes => true
  | .pbLoad _ => true
  | .pbRd8 _ => true
  | .pbRd16 _ => true
  | .pbRd12 _ => true
  | .pbWalk _ _ => true

/-- A well-formed command: the encoding holds it, and it names no reserved code or selector. -/
def Instr.wf (i : Instr) : Bool := i.fits && i.legal

end Sys2Proof
end

