-- ==== Sys2Proof/Decode.lean ====
section
/-! DEFINITION. The decoder of a command port, total on any words, and the encoder (30_encoding.md R100 to R107, R111;
00_scope.md R15). -/

namespace Sys2Proof

/-! ### Packing of bytes into words (R15) -/

/-- The four bytes of a data word, the most significant first (R15, R71). -/
def bytesOf (w : Word) : List Byte :=
  [w.extractLsb' 24 8, w.extractLsb' 16 8, w.extractLsb' 8 8, w.extractLsb' 0 8]

/-- The data word that carries four bytes, the first in the most significant place (R15). -/
def wordOf (a b c d : Byte) : Word := a ++ b ++ c ++ d

/-- `unpack(words, n)`: the first `n` bytes the data words carry; padding after them is ignored (R15). -/
def unpack (ws : List Word) (n : Nat) : List Byte := (ws.flatMap bytesOf).take n

/-- `pack(s)`: the bytes in data words, the padding bytes 0x00 (R15). -/
def pack : List Byte → List Word
  | [] => []
  | [a] => [wordOf a 0 0 0]
  | [a, b] => [wordOf a b 0 0]
  | [a, b, c] => [wordOf a b c 0]
  | a :: b :: c :: d :: rest => wordOf a b c d :: pack rest

/-- `ceil(n/4)`, the number of data words that carry `n` bytes (R15, R104). -/
def dataWords (n : Nat) : Nat := (n + 3) / 4

/-! ### Fields of a command word (R101) -/

/-- `op = w[31:24]` (R100). -/
def opField (w : Word) : BitVec 8 := w.extractLsb' 24 8

/-- `w[15:0]`: the fields `pid`, `n`, `v` and `pos` of formats FP, FPS, FF, FN, FH and FQ (R101). -/
def lowHalf (w : Word) : BitVec 16 := w.extractLsb' 0 16

/-- `w[7:0]`: the fields `sel` of format FS and `b` of format FB (R101). -/
def lowByte (w : Word) : BitVec 8 := w.extractLsb' 0 8

/-- `w[23:16]`: the field `sel` of format FPS (R101). -/
def selHigh (w : Word) : BitVec 8 := w.extractLsb' 16 8

/-- `w[23:22]`: the field `kind` of format FF (R101). -/
def kindField (w : Word) : BitVec 2 := w.extractLsb' 22 2

/-- `w[21:20]`: the field `stype` of format FF (R101). -/
def stypeField (w : Word) : BitVec 2 := w.extractLsb' 20 2

/-- `w[19]`: the field `small` of format FF (R101). -/
def smallField (w : Word) : Bool := w.getLsbD 19

/-- `w[18]`: the field `video` of format FF (R101). -/
def videoField (w : Word) : Bool := w.getLsbD 18

/-- `w[11:0]`: the fields `off` of format FO and `len` of format FW (R101). -/
def low12 (w : Word) : BitVec 12 := w.extractLsb' 0 12

/-- `w[23:12]`: the field `off` of format FW (R101). -/
def high12 (w : Word) : BitVec 12 := w.extractLsb' 12 12

/-- The bits of a command word that its format reserves: they must be zero (R101, R111 (b)). -/
def Format.reserved : Format → Word
  | .f0 => 0x00FFFFFF#32
  | .fp => 0x00FF0000#32
  | .fps => 0x00000000#32
  | .fs => 0x00FFFF00#32
  | .ff => 0x00030000#32
  | .fn => 0x00FF0000#32
  | .fb => 0x00FFFF00#32
  | .fh => 0x00FF0000#32
  | .fq => 0x00FF0000#32
  | .fo => 0x00FFF000#32
  | .fw => 0x00000000#32

/-- The byte count `n` of a command word: its `n` field for format FN, zero for every other format (R104). -/
def Format.byteCount : Format → Word → Nat
  | .fn, w => (lowHalf w).toNat
  | .f0, _ | .fp, _ | .fps, _ | .fs, _ | .ff, _ | .fb, _ | .fh, _ | .fq, _ | .fo, _ | .fw, _ => 0

/-! ### The opcode map (R105, R106, R107) -/

/-- A row of the opcode map: the port, the format, and the command that a word of this opcode and its data bytes say. -/
structure OpRow where
  port   : Port
  format : Format
  make   : Word → List Byte → Instr

/-- The opcode map; `none` for an opcode the spec does not list (R105, R106, R107, R112). -/
def opRow (op : BitVec 8) : Option OpRow :=
  match op.toNat with
  | 0x01 => some ⟨.d, .fn, fun _ data => .addPayload data⟩
  | 0x02 => some ⟨.d, .f0, fun _ _ => .dispose⟩
  | 0x03 => some ⟨.d, .fp, fun w _ => .resetStream (lowHalf w)⟩
  | 0x04 => some ⟨.d, .fp, fun w _ => .disposeStream (lowHalf w)⟩
  | 0x05 => some ⟨.d, .fs, fun w _ => .readGstat (lowByte w)⟩
  | 0x06 => some ⟨.d, .fps, fun w _ => .readSstat (selHigh w) (lowHalf w)⟩
  | 0x10 => some ⟨.c, .ff, fun w _ =>
      .setFilter (kindField w) (stypeField w) (smallField w) (videoField w) (lowHalf w)⟩
  | 0x11 => some ⟨.c, .fp, fun w _ => .requestSection (lowHalf w)⟩
  | 0x12 => some ⟨.c, .fp, fun w _ => .removeFilter (lowHalf w)⟩
  | 0x13 => some ⟨.c, .f0, fun _ _ => .clearFilters⟩
  | 0x14 => some ⟨.c, .f0, fun _ _ => .setPcrSeen⟩
  | 0x20 => some ⟨.s, .f0, fun _ _ => .sbClear⟩
  | 0x21 => some ⟨.s, .fb, fun w _ => .sbAppendByte (lowByte w)⟩
  | 0x22 => some ⟨.s, .fh, fun w _ => .sbAppendU16 (lowHalf w)⟩
  | 0x23 => some ⟨.s, .fn, fun _ data => .sbAppendBytes data⟩
  | 0x24 => some ⟨.s, .fn, fun _ data => .sbAppendLang data⟩
  | 0x25 => some ⟨.s, .f0, fun _ _ => .sbReserve⟩
  | 0x26 => some ⟨.s, .fq, fun w _ => .sbBackfill (lowHalf w)⟩
  | 0x27 => some ⟨.s, .f0, fun _ _ => .sbToBytes⟩
  | 0x30 => some ⟨.s, .fn, fun _ data => .pbLoad data⟩
  | 0x31 => some ⟨.s, .fo, fun w _ => .pbRd8 (low12 w)⟩
  | 0x32 => some ⟨.s, .fo, fun w _ => .pbRd16 (low12 w)⟩
  | 0x33 => some ⟨.s, .fo, fun w _ => .pbRd12 (low12 w)⟩
  | 0x34 => some ⟨.s, .fw, fun w _ => .pbWalk (high12 w) (low12 w)⟩
  | _ => none

/-! ### The decoder -/

/-- Why a word is no command of the port it stands on (R111). The reserved codes and selectors of R111 (c) and (d) are
judged by the command's own rule. -/
inductive Rejection where
  /-- R111 (a): the opcode is listed for no port. -/
  | unknownOpcode
  /-- R111 (a): the opcode is listed for another port. -/
  | otherPort
  /-- R111 (b): a reserved field is not zero. -/
  | reservedField
deriving DecidableEq, Repr

/-- What the decoder finds at the head of a command port. -/
inductive Decoded where
  /-- The port is empty. -/
  | empty
  /-- The head is an FN command word, and fewer than `ceil(n/4)` data words have arrived (R104; assumption 4). -/
  | wait
  /-- An illegal encoding, its opcode as received, and the words left once it is consumed (R111). -/
  | illegal (why : Rejection) (op : BitVec 8) (rest : List Word)
  /-- A command of this port, and the words left once it is consumed (R104). -/
  | command (i : Instr) (rest : List Word)
deriving DecidableEq, Repr

/-- The decoder of port `p` (R104, R111). An unknown opcode consumes its command word alone; a listed FN opcode consumes
its `ceil(n/4)` data words too, whether the command is accepted, belongs to another port or has a reserved bit set. -/
def decode (p : Port) : List Word → Decoded
  | [] => .empty
  | w :: ws =>
    match opRow (opField w) with
    | none => .illegal .unknownOpcode (opField w) ws
    | some r =>
      let n := r.format.byteCount w
      if ws.length < dataWords n then .wait
      else if r.port ≠ p then .illegal .otherPort (opField w) (ws.drop (dataWords n))
      else if w &&& r.format.reserved ≠ 0 then .illegal .reservedField (opField w) (ws.drop (dataWords n))
      else .command (r.make w (unpack (ws.take (dataWords n)) n)) (ws.drop (dataWords n))

/-! ### The encoder -/

/-- A command word of format F0. -/
def wordF0 (op : BitVec 8) : Word := op ++ 0#24

/-- A command word of format FP, FN, FH or FQ: a 16-bit field in `w[15:0]`, the bits `w[23:16]` reserved. -/
def wordLow16 (op : BitVec 8) (v : BitVec 16) : Word := op ++ 0#8 ++ v

/-- A command word of format FS or FB: an 8-bit field in `w[7:0]`. -/
def wordLow8 (op : BitVec 8) (v : BitVec 8) : Word := op ++ 0#16 ++ v

/-- A command word of format FO: a 12-bit field in `w[11:0]`. -/
def wordLow12 (op : BitVec 8) (v : BitVec 12) : Word := op ++ 0#12 ++ v

/-- The words of an FN command: the command word with its byte count, then the data words (R104). -/
def wordsFN (op : BitVec 8) (data : List Byte) : List Word :=
  wordLow16 op (BitVec.ofNat 16 data.length) :: pack data

/-- The words of a command (R100, R101, R104). -/
def encode : Instr → List Word
  | .addPayload data => wordsFN 0x01#8 data
  | .dispose => [wordF0 0x02#8]
  | .resetStream pid => [wordLow16 0x03#8 pid]
  | .disposeStream pid => [wordLow16 0x04#8 pid]
  | .readGstat sel => [wordLow8 0x05#8 sel]
  | .readSstat sel pid => [0x06#8 ++ sel ++ pid]
  | .setFilter kind stype small video pid =>
      [0x10#8 ++ kind ++ stype ++ BitVec.ofBool small ++ BitVec.ofBool video ++ 0#2 ++ pid]
  | .requestSection pid => [wordLow16 0x11#8 pid]
  | .removeFilter pid => [wordLow16 0x12#8 pid]
  | .clearFilters => [wordF0 0x13#8]
  | .setPcrSeen => [wordF0 0x14#8]
  | .sbClear => [wordF0 0x20#8]
  | .sbAppendByte b => [wordLow8 0x21#8 b]
  | .sbAppendU16 v => [wordLow16 0x22#8 v]
  | .sbAppendBytes data => wordsFN 0x23#8 data
  | .sbAppendLang data => wordsFN 0x24#8 data
  | .sbReserve => [wordF0 0x25#8]
  | .sbBackfill pos => [wordLow16 0x26#8 pos]
  | .sbToBytes => [wordF0 0x27#8]
  | .pbLoad data => wordsFN 0x30#8 data
  | .pbRd8 off => [wordLow12 0x31#8 off]
  | .pbRd16 off => [wordLow12 0x32#8 off]
  | .pbRd12 off => [wordLow12 0x33#8 off]
  | .pbWalk off len => [0x34#8 ++ off ++ len]

/-! ### Pseudo-commands (R115) -/

/-- The commands a pseudo-command stands for (R115). -/
def Pseudo.expand : Pseudo → List Instr
  | .pushByte b => [.addPayload [b]]
  | .setRaw pid => [.setFilter 0 0 false false pid]
  | .setSection pid => [.setFilter 1 0 false false pid]
  | .setStream pid stype => [.setFilter 2 stype false false pid]
  | .resetAllFilters => [.clearFilters]
  | .sbBeginLen => [.sbReserve]
  | .sbEndLen pos => [.sbBackfill pos]
  | .appendNested q body => .sbReserve :: body ++ [.sbBackfill q]

/-! ### The words of an opcode-table row -/

/-- The number of data words that follow a command word, from its opcode and `n` field alone (R104). -/
def dataWordsAfter (w : Word) : Nat :=
  match opRow (opField w) with
  | none => 0
  | some r => dataWords (r.format.byteCount w)

/-- The words of an instruction whose bits are `w`, bit 0 the least significant bit of the first word and every bit from
`nbits` up being 0: the command word, then as many data words as it takes. -/
def tableWords (nbits w : Nat) : List Word :=
  let v := w % 2 ^ nbits
  let head := BitVec.ofNat 32 v
  head :: (List.range (dataWordsAfter head)).map fun k => BitVec.ofNat 32 (v >>> (32 * (k + 1)))

/-- The port whose opcode map lists a word's opcode (R105, R106, R107); CMD_D for an opcode no port lists. -/
def portOfWord (w : Word) : Port :=
  match opRow (opField w) with
  | none => .d
  | some r => r.port

/-- What the decoder reads from the instruction whose bits are `w`, on the port its opcode belongs to. -/
def decodeTableWord (nbits w : Nat) : Option Instr :=
  match decode (portOfWord (BitVec.ofNat 32 (w % 2 ^ nbits))) (tableWords nbits w) with
  | .command i _ => some i
  | .empty => none
  | .wait => none
  | .illegal _ _ _ => none

end Sys2Proof
end

