-- ==== Sys2Proof/Machine/State.lean ====
section
/-! DEFINITION. The state of the block (10_state.md R30 to R55), as plain data, and its reset value (R55, R390). The block
has no general register, no program counter and no address space (R30, R31, R76). -/

namespace Sys2Proof.Machine

/-! ### Status codes and outcomes -/

/-- The status codes of a response word (R110). -/
inductive Status where
  | ok
  | contract
  | illegal
  | disposed
  | notStream
  | invalid
  | none
  | capacity
deriving DecidableEq, Repr

/-- The block has no fault: a refused command is a response status and every engine goes on (R162, R369, R370). No
constructor, so that no step can answer one; nobody raises it. Safe: it adds no behaviour. -/
inductive Fault where
deriving DecidableEq, Repr

/-- The reasons the model itself refuses an instruction. -/
inductive Refusal where
  /-- Raised by an arm of `exec` whose instruction has no meaning yet. No arm raises it: every row of the opcode table has
  its meaning. Safe: the model would stop where the block goes on. -/
  | notModelled (mnemonic : String)
deriving DecidableEq, Repr

/-- The outcome of a step or of a command. -/
abbrev Answer (σ : Type) := Host.Outcome σ Fault Refusal

/-! ### Queues -/

/-- The three command queues, or the three response queues: one a port, the head of the list first out (R32). -/
structure Lanes where
  d : List Word
  c : List Word
  s : List Word
deriving DecidableEq, Repr

/-- An output event of OUT (R53). -/
inductive Event where
  /-- UNIT: one emitted elementary-stream unit. -/
  | unit (pid : Pid) (epoch : Ctr) (bytes : List Byte)
  /-- RAW: one packet forwarded to a raw consumer. -/
  | raw (pid : Pid) (epoch : Ctr) (payload : List Byte) (pusi : Bool) (cc : Cc) (noinc : Bool)
  /-- SECT: one packet forwarded to the external section consumer. -/
  | sect (pid : Pid) (epoch : Ctr) (payload : List Byte) (pusi : Bool) (cc : Cc) (noinc : Bool)
deriving DecidableEq, Repr

/-! ### Registry -/

/-- The stream types (R40, R103). -/
inductive StreamType where
  | audio
  | subtitle
  | video
deriving DecidableEq, Repr

/-- A reconstructor state `r = e.rec` (R42). -/
structure Recon where
  buf        : List Byte
  lastCc     : Option Cc
  collecting : Bool
  disposed   : Bool
  units      : Ctr
  bytes      : Ctr
  minUnit    : Option Nat
  maxUnit    : Option Nat
  loss       : Ctr
  overflow   : Ctr
deriving DecidableEq, Repr

/-- `e.kind`, with what only a STREAM entry has: its stream type and its reconstructor (R40; `e.stype` is AUDIO and
`e.rec` is absent for the other two kinds, so neither is held for them). -/
inductive Consumer where
  | raw
  | sect
  | stream (stype : StreamType) (recon : Recon)
deriving DecidableEq, Repr

/-- An entry of the registry (R40). -/
structure Entry where
  consumer : Consumer
  small    : Bool
  vhint    : Bool
  epoch    : Ctr
deriving DecidableEq, Repr

/-- `st.reg`, the map from PID to an optional entry (R38): its entries with their PIDs, PIDs strictly rising. -/
abbrev Registry := List (Pid × Entry)

/-! ### Synchronisation, and which agent moves next -/

/-- `st.sync` (R34). -/
inductive Sync where
  | inSync
  | scan
deriving DecidableEq, Repr

/-- What the host does to the block in one step of its own (R7, R390). -/
inductive HostAct where
  /-- Push a word to a command port. -/
  | push (p : Port) (w : Word)
  /-- Pop the head word of a response port. -/
  | popResponse (p : Port)
  /-- Pop the head event of OUT. -/
  | popEvent
  /-- Assert and release the reset input (R390). -/
  | reset
deriving DecidableEq, Repr

/-- One entry of the schedule: the agent that takes the next step (R7, R81). -/
inductive Turn where
  | engine (p : Port)
  | host (a : HostAct)
deriving DecidableEq, Repr

/-! ### The state -/

/-- The state of the block. The last four fields are the model's own: `pumping` says which step of its command the D
engine is at (R78), `params` are the OPEN parameters (R9), which no step changes, and `schedule` and `picks` say which
agent moves next (R81; assumption 1). -/
@[ext]
structure State where
  /-- CMD_D, CMD_C and CMD_S (R32). -/
  cmd           : Lanes
  /-- RSP_D, RSP_C and RSP_S (R32). -/
  rsp           : Lanes
  /-- OUT (R32, R53, R54). -/
  out           : List Event
  /-- `st.carry` (R33). -/
  carry         : List Byte
  /-- `st.sync` (R34). -/
  sync          : Sync
  /-- `st.disposed` (R35). -/
  disposed      : Bool
  /-- `st.pkt_count` (R36). -/
  pktCount      : Ctr
  /-- `st.skip_bytes` (R36). -/
  skipBytes     : Ctr
  /-- `st.resync_count` (R36). -/
  resyncCount   : Ctr
  /-- `st.unrouted_count` (R36). -/
  unroutedCount : Ctr
  /-- `st.pcr_seen` (R37). -/
  pcrSeen       : Bool
  /-- `st.reg` (R38). -/
  reg           : Registry
  /-- `st.epoch_next` (R39). -/
  epochNext     : Ctr
  /-- `st.sb` (R44). -/
  sb            : List Byte
  /-- `st.pb` (R45). -/
  pb            : List Byte
  /-- An ADD_PAYLOAD is in execution and its response is not yet posted (R78, R150). -/
  pumping       : Bool
  /-- The OPEN parameters of this machine (R9). -/
  params        : Params
  /-- Who moves in the next steps, as far as the environment has said it (R81; assumption 1). -/
  schedule      : List Turn
  /-- How many free choices between engines have been made (R81; assumption 1). -/
  picks         : Nat
deriving DecidableEq, Repr

/-- Empty queues. -/
def Lanes.empty : Lanes := { d := [], c := [], s := [] }

/-- The state after reset (R55, R154, R390). The parameters are the machine's own, all free; nothing is scheduled. -/
def State.reset : State :=
  { cmd := Lanes.empty
    rsp := Lanes.empty
    out := []
    carry := []
    sync := .inSync
    disposed := false
    pktCount := 0
    skipBytes := 0
    resyncCount := 0
    unroutedCount := 0
    pcrSeen := false
    reg := []
    epochNext := 0
    sb := []
    pb := []
    pumping := false
    params := Config.params
    schedule := []
    picks := 0 }

end Sys2Proof.Machine
end

