-- ==== Sys2Proof/Machine/Ops.lean ====
section
/-! DEFINITION. The shared operations on the state: queues and responses (00_scope.md R14; 30_encoding.md R108 to R110),
refusing a command (60_exceptions.md R361 to R369: what this block has in place of an exception), output events, and the
registry's map (10_state.md R38). -/

namespace Sys2Proof.Machine

/-! ### Queues -/

/-- The queue of a port. -/
def Lanes.get (l : Lanes) : Port → List Word
  | .d => l.d
  | .c => l.c
  | .s => l.s

/-- Replaces the queue of a port. -/
def Lanes.set (l : Lanes) (p : Port) (ws : List Word) : Lanes :=
  match p with
  | .d => { l with d := ws }
  | .c => { l with c := ws }
  | .s => { l with s := ws }

/-- Replaces the command queue of a port: the words still to execute. -/
def State.setCmd (s : State) (p : Port) (ws : List Word) : State := { s with cmd := s.cmd.set p ws }

/-- Appends words to the response queue of a port (R14, R109). -/
def State.post (s : State) (p : Port) (ws : List Word) : State :=
  { s with rsp := s.rsp.set p (s.rsp.get p ++ ws) }

/-- `emit E` (R14): appends an output event to OUT. -/
def State.emit (s : State) (e : Event) : State := { s with out := s.out ++ [e] }

/-! ### Responses (R108, R109, R110) -/

/-- The code of a status (R110). -/
def Status.code : Status → BitVec 8
  | .ok => 0x00#8
  | .contract => 0x01#8
  | .illegal => 0x02#8
  | .disposed => 0x03#8
  | .notStream => 0x04#8
  | .invalid => 0x05#8
  | .none => 0x06#8
  | .capacity => 0x07#8

/-- A response word: opcode, status, value (R108). -/
def responseWord (op : BitVec 8) (st : Status) (value : BitVec 16) : Word := op ++ st.code ++ value

/-- `respond(P, op, status, value)` (R14). -/
def State.respond (s : State) (p : Port) (op : BitVec 8) (st : Status) (value : BitVec 16) : State :=
  s.post p [responseWord op st value]

/-- The two data words of a 64-bit value, bits [63:32] first (R109). -/
def wordsOf64 (v : BitVec 64) : List Word := [v.extractLsb' 32 32, v.extractLsb' 0 32]

/-- `raise <Status>` (R14): the command ends; it writes no state but its response word, of value 0 (R361, R369). -/
def raise (p : Port) (op : BitVec 8) (st : Status) (s : State) : Answer State :=
  .next (s.respond p op st 0)

/-! ### The registry's map (R38) -/

/-- `st.reg[p]`. -/
def Registry.lookup (p : Pid) : Registry → Option Entry
  | [] => none
  | (q, e) :: r => if p = q then some e else Registry.lookup p r

/-- `st.reg[p] <- e`: replaces the entry of `p`, or installs one in its place among the rising PIDs. -/
def Registry.insert (p : Pid) (e : Entry) : Registry → Registry
  | [] => [(p, e)]
  | (q, f) :: r =>
    if p < q then (p, e) :: (q, f) :: r
    else if p = q then (p, e) :: r
    else (q, f) :: Registry.insert p e r

/-- `st.reg[p] <- none`. -/
def Registry.erase (p : Pid) : Registry → Registry
  | [] => []
  | (q, f) :: r => if p = q then r else (q, f) :: Registry.erase p r

/-- `st.reg[p] <- e`. -/
def State.install (s : State) (p : Pid) (e : Entry) : State := { s with reg := Registry.insert p e s.reg }

/-- `st.reg[p] <- none`. -/
def State.uninstall (s : State) (p : Pid) : State := { s with reg := Registry.erase p s.reg }

/-- The entry of a STREAM filter, with its stream type and reconstructor; `none` where R363 gives NOT_STREAM. -/
def State.streamAt (s : State) (p : Pid) : Option (Entry × StreamType × Recon) :=
  match Registry.lookup p s.reg with
  | some e =>
    match e.consumer with
    | .stream t r => some (e, t, r)
    | .raw => none
    | .sect => none
  | none => none

/-- Writes back the reconstructor of the STREAM entry `e` of `p`. -/
def State.setRecon (s : State) (p : Pid) (e : Entry) (t : StreamType) (r : Recon) : State :=
  s.install p { e with consumer := .stream t r }

end Sys2Proof.Machine
end

