-- ==== Sys2Proof/Machine/Operands.lean ====
section
/-! DEFINITION. The operand forms of the commands (30_encoding.md R101 to R104): PIDs, filter codes, offsets. -/

namespace Sys2Proof.Machine

/-- A `pid` field names a PID: it is at most 0x1FFF (R102, R361). -/
def pidInRange (pid : BitVec 16) : Bool := decide (pid.toNat ≤ 0x1FFF)

/-- `pid[12:0]`, the PID an in-range `pid` field names (R102). -/
def pidOf (pid : BitVec 16) : Pid := pid.extractLsb' 0 13

/-- A fresh reconstructor (R202). -/
def Recon.fresh : Recon :=
  { buf := [], lastCc := none, collecting := false, disposed := false, units := 0, bytes := 0
    minUnit := none, maxUnit := none, loss := 0, overflow := 0 }

/-- The consumer that the codes of SET_FILTER name; `none` for `kind = 3`, `stype = 3`, or `stype ≠ 0` where `kind` is not
STREAM (R103, R111 (c), R202). -/
def consumerOf (kind stype : BitVec 2) : Option Consumer :=
  match kind.toNat, stype.toNat with
  | 0, 0 => some .raw
  | 1, 0 => some .sect
  | 2, 0 => some (.stream .audio Recon.fresh)
  | 2, 1 => some (.stream .subtitle Recon.fresh)
  | 2, 2 => some (.stream .video Recon.fresh)
  | _, _ => none

/-- The code of a stream type (R50, R103). -/
def StreamType.code : StreamType → BitVec 2
  | .audio => 0
  | .subtitle => 1
  | .video => 2

/-- `MemRead(PB, a, 1)` where `a + 1 ≤ |st.pb|`; `none` beyond the loaded bytes (R13, R331). -/
def byteAt (bs : List Byte) (a : Nat) : Option Byte := bs[a]?

/-- The big-endian 16-bit value at `a` where `a + 2 ≤ |bs|`; `none` beyond the bytes (R13, R70, R332). -/
def be16At (bs : List Byte) (a : Nat) : Option (BitVec 16) :=
  match bs[a]?, bs[a + 1]? with
  | some hi, some lo => some (hi ++ lo)
  | some _, none => none
  | none, _ => none

/-- The two bytes of a 16-bit value, the most significant first (R70, R292). -/
def be16Bytes (v : BitVec 16) : List Byte := [v.extractLsb' 8 8, v.extractLsb' 0 8]

/-- The 12-bit mask of a 16-bit word (R123, R333). -/
def mask12 (v : BitVec 16) : BitVec 16 := v &&& 0x0FFF#16

/-- `LangNorm` (R295): padded on the right with spaces, cut to three bytes, or the default for an empty code. -/
def langNorm (dflt : LangCode) : List Byte → List Byte
  | [] => [dflt.b0, dflt.b1, dflt.b2]
  | [a] => [a, langPad, langPad]
  | [a, b] => [a, b, langPad]
  | a :: b :: c :: _ => [a, b, c]

end Sys2Proof.Machine
end

