-- ==== Sys2Proof/Machine/Flags.lean ====
section
/-! DEFINITION. The status and statistics registers: the global view (10_state.md R47, R48) and the per-stream view (R49,
R50). The block has no condition codes; its state bits are fields of the state (R46). -/

namespace Sys2Proof.Machine

/-- STATUS (R48). -/
def statusReg (s : State) : BitVec 64 :=
  0#48 ++ BitVec.ofNat 8 s.carry.length ++ 0#5 ++ BitVec.ofBool s.pcrSeen
    ++ BitVec.ofBool (decide (s.sync = .inSync)) ++ BitVec.ofBool s.disposed

/-- FILTER_COUNT: the number of PIDs that have an entry (R47). -/
def filterCount (s : State) : BitVec 64 := BitVec.ofNat 64 s.reg.length

/-- `GlobalReg(sel)`; `none` for a reserved selector (R47, R175). -/
def globalReg (s : State) (sel : BitVec 8) : Option (BitVec 64) :=
  match sel.toNat with
  | 0x00 => some s.pktCount
  | 0x01 => some s.skipBytes
  | 0x02 => some s.resyncCount
  | 0x03 => some s.unroutedCount
  | 0x04 => some (statusReg s)
  | 0x05 => some (filterCount s)
  | 0x06 => some s.epochNext
  | _ => none

/-- `|r.buf|` as bits [63:32] of STATE (R50); a free value where 32 bits cannot hold it (assumption 6). -/
def bufLenField (r : Recon) : BitVec 32 :=
  if r.buf.length < 2 ^ 32 then BitVec.ofNat 32 r.buf.length else Config.wideBufLen r.buf.length

/-- A unit length as a 64-bit register value (R49); a free value where 64 bits cannot hold it (assumption 6). -/
def unitLenReg (n : Nat) : BitVec 64 :=
  if n < 2 ^ 64 then BitVec.ofNat 64 n else Config.wideUnitLen n

/-- STATE (R50). -/
def stateReg (e : Entry) (t : StreamType) (r : Recon) : BitVec 64 :=
  bufLenField r ++ 0#19 ++ BitVec.ofBool e.vhint ++ BitVec.ofBool e.small ++ t.code ++ BitVec.ofBool r.disposed
    ++ r.lastCc.getD 0 ++ 0#2 ++ BitVec.ofBool r.lastCc.isSome ++ BitVec.ofBool r.collecting

/-- What a per-stream selector reads (R49). -/
inductive StreamRead where
  /-- A reserved selector: ILLEGAL. -/
  | reserved
  /-- MIN_UNIT or MAX_UNIT before the first emission: status NONE (R367). -/
  | absent
  /-- The 64-bit value. -/
  | value (v : BitVec 64)
deriving DecidableEq, Repr

/-- MIN_UNIT or MAX_UNIT (R49, R367). -/
def unitLenRead : Option Nat → StreamRead
  | none => .absent
  | some n => .value (unitLenReg n)

/-- `StreamReg(e, sel)` (R49, R270). -/
def streamReg (e : Entry) (t : StreamType) (r : Recon) (sel : BitVec 8) : StreamRead :=
  match sel.toNat with
  | 0x00 => .value r.units
  | 0x01 => .value r.bytes
  | 0x02 => unitLenRead r.minUnit
  | 0x03 => unitLenRead r.maxUnit
  | 0x04 => .value r.loss
  | 0x05 => .value (stateReg e t r)
  | 0x06 => .value r.overflow
  | 0x07 => .value e.epoch
  | _ => .reserved

end Sys2Proof.Machine
end

