-- ==== Sys2Proof/Machine/Reconstructor.lean ====
section
/-! DEFINITION. The elementary stream reconstructor (42_reconstructor.md): the delivery of one packet (R240 to R251), and
the commands RESET_STREAM, DISPOSE_STREAM and READ_SSTAT (R260, R262, R270). -/

namespace Sys2Proof.Machine

/-! ### The start-code check (R248) -/

/-- `Pred(t, x)` (R248, R124). -/
def streamPred (ps : Params) (t : StreamType) (x : Byte) : Bool :=
  match t with
  | .audio => decide (0xC0#8 ≤ x) && decide (x ≤ 0xDF#8)
  | .subtitle => decide (x = 0xBD#8)
  | .video => ps.videoBytes.contains x

/-- `ValidStart(t, b)` (R248). -/
def validStart (ps : Params) (t : StreamType) : List Byte → Bool
  | b0 :: b1 :: b2 :: b3 :: _ =>
    decide (b0 = 0x00#8) && decide (b1 = 0x00#8) && decide (b2 = 0x01#8) && streamPred ps t b3
  | [] => false
  | [_] => false
  | [_, _] => false
  | [_, _, _] => false

/-! ### Delivery of one packet -/

/-- `CheckCC` (R243, R244, R245): `none` for a duplicate, else the reconstructor with its continuity state updated. -/
def Recon.checkCC (r : Recon) (cc : Cc) : Option Recon :=
  match r.lastCc with
  | none => some { r with lastCc := some cc }
  | some l =>
    if cc = l then none
    else if cc = l + 1 then some { r with lastCc := some cc }
    else some { r with lastCc := some cc, loss := r.loss + 1 }

/-- The statistics of an emitted unit of `n` bytes (R249). -/
def Recon.countUnit (r : Recon) (n : Nat) : Recon :=
  { r with
    units := r.units + 1
    bytes := r.bytes + BitVec.ofNat 64 n
    minUnit := match r.minUnit with
      | none => some n
      | some m => some (min m n)
    maxUnit := match r.maxUnit with
      | none => some n
      | some m => some (max m n) }

/-- `Emit` (R249): the unit goes out and is counted, but for a SUBTITLE unit before a PCR has been reported. -/
def Recon.emitUnit (r : Recon) (t : StreamType) (pcrSeen : Bool) (b : List Byte) : Recon × Option (List Byte) :=
  if t = .subtitle ∧ pcrSeen = false then (r, none) else (r.countUnit b.length, some b)

/-- `Boundary` (R248): the unit that ends is emitted if it begins with a valid start code; the buffer is emptied. -/
def Recon.boundary (r : Recon) (ps : Params) (t : StreamType) (pcrSeen : Bool) : Recon × Option (List Byte) :=
  let (r', u) := if validStart ps t r.buf then r.emitUnit t pcrSeen r.buf else (r, none)
  ({ r' with buf := [] }, u)

/-- `StartUnit` (R246). -/
def Recon.startUnit (r : Recon) (ps : Params) (t : StreamType) (pcrSeen : Bool) (payload : List Byte) :
    Recon × Option (List Byte) :=
  let (r', u) := if r.collecting then r.boundary ps t pcrSeen else (r, none)
  ({ r' with buf := payload, collecting := true }, u)

/-- `Overflow` (R251). -/
def Recon.dropUnit (r : Recon) : Recon := { r with overflow := r.overflow + 1, buf := [], collecting := false }

/-- A buffer of `n` bytes is within `UNIT_CAP` (R247). -/
def Params.holds (ps : Params) (n : Nat) : Bool :=
  match ps.unitCap with
  | none => true
  | some cap => decide (n ≤ cap)

/-- `Append` (R247). -/
def Recon.append (r : Recon) (ps : Params) (payload : List Byte) : Recon :=
  if Params.holds ps (r.buf.length + payload.length) then { r with buf := r.buf ++ payload } else r.dropUnit

/-- A packet that passed the continuity check (R246, R247, R252). -/
def Recon.process (r : Recon) (ps : Params) (t : StreamType) (pcrSeen : Bool) (payload : List Byte) (pusi : Bool) :
    Recon × Option (List Byte) :=
  if pusi then r.startUnit ps t pcrSeen payload
  else if r.collecting then (r.append ps payload, none)
  else (r, none)

/-- `Deliver` (R240 to R242): the reconstructor after the packet, and the unit it emits, if any. -/
def Recon.deliver (r : Recon) (ps : Params) (t : StreamType) (pcrSeen : Bool) (payload : List Byte) (pusi : Bool)
    (cc : Cc) (noinc : Bool) : Recon × Option (List Byte) :=
  if r.disposed then (r, none)
  else if noinc then (r, none)
  else
    match r.checkCC cc with
    | none => (r, none)
    | some r' => r'.process ps t pcrSeen payload pusi

/-- What RESET_STREAM does to a reconstructor (R260). -/
def Recon.resetState (r : Recon) : Recon := { r with buf := [], collecting := false, lastCc := none }

/-- What DISPOSE_STREAM does to a reconstructor (R262). -/
def Recon.disposeState (r : Recon) : Recon := { r with disposed := true, buf := [], collecting := false }

/-! ### The commands -/

/-- RESET_STREAM (R260). -/
def execResetStream (pid : BitVec 16) (s : State) : Answer State :=
  if s.disposed then raise .d 0x03 .disposed s
  else if pidInRange pid = false then raise .d 0x03 .contract s
  else
    match s.streamAt (pidOf pid) with
    | none => raise .d 0x03 .notStream s
    | some (e, t, r) => .next ((s.setRecon (pidOf pid) e t r.resetState).respond .d 0x03 .ok 0)

/-- DISPOSE_STREAM (R262). -/
def execDisposeStream (pid : BitVec 16) (s : State) : Answer State :=
  if s.disposed then raise .d 0x04 .disposed s
  else if pidInRange pid = false then raise .d 0x04 .contract s
  else
    match s.streamAt (pidOf pid) with
    | none => raise .d 0x04 .notStream s
    | some (e, t, r) => .next ((s.setRecon (pidOf pid) e t r.disposeState).respond .d 0x04 .ok 0)

/-- READ_SSTAT (R270; R49 for the selectors, R368 for the order of the checks). -/
def execReadSstat (sel : BitVec 8) (pid : BitVec 16) (s : State) : Answer State :=
  if 0x07 < sel.toNat then raise .d 0x06 .illegal s
  else if s.disposed then raise .d 0x06 .disposed s
  else if pidInRange pid = false then raise .d 0x06 .contract s
  else
    match s.streamAt (pidOf pid) with
    | none => raise .d 0x06 .notStream s
    | some (e, t, r) =>
      match streamReg e t r sel with
      | .reserved => raise .d 0x06 .illegal s
      | .absent => .next ((s.respond .d 0x06 .none 0).post .d (wordsOf64 0))
      | .value v => .next ((s.respond .d 0x06 .ok 0).post .d (wordsOf64 v))

end Sys2Proof.Machine
end

