-- ==== Sys2Proof/Machine/Demux.lean ====
section
/-! DEFINITION. The transport stream demultiplexer (40_demux.md): packet decoding (R155, R156), routing (R158), the packet
pump (R152, R153), and the commands ADD_PAYLOAD, DISPOSE and READ_GSTAT (R150, R170, R175). -/

namespace Sys2Proof.Machine

/-! ### Packet decoding (R120, R155, R156) -/

/-- The fields of a packet header (R120, R155). `tei`, `prio` and `sc` are extracted and then not used (R157). -/
structure Header where
  tei  : Bool
  pusi : Bool
  prio : Bool
  pid  : Pid
  sc   : BitVec 2
  afc  : BitVec 2
  cc   : Cc
deriving DecidableEq, Repr

/-- Header extraction (R155), from bytes 1, 2 and 3 of a packet. -/
def headerOf (pkt : List Byte) : Header :=
  let b1 := pkt.getD 1 0
  let b2 := pkt.getD 2 0
  let b3 := pkt.getD 3 0
  { tei := b1.getLsbD 7
    pusi := b1.getLsbD 6
    prio := b1.getLsbD 5
    pid := b1.extractLsb' 0 5 ++ b2
    sc := b3.extractLsb' 6 2
    afc := b3.extractLsb' 4 2
    cc := b3.extractLsb' 0 4 }

/-- `ExtractPayload` (R156): the payload and the no-increment flag. -/
def extractPayload (pkt : List Byte) (afc : BitVec 2) : List Byte × Bool :=
  match afc.toNat with
  | 1 => (pkt.drop 4, false)
  | 3 =>
    let len := (pkt.getD 4 0).toNat
    if 5 + len ≤ pktLen then (pkt.drop (5 + len), false) else ([], false)
  | _ => ([], true)

/-! ### Routing (R158, R159, R160) -/

/-- Writes a delivery back: the entry's reconstructor, and the unit it emitted, if any (R240, R249). -/
def State.delivered (s : State) (pid : Pid) (e : Entry) (t : StreamType) (d : Recon × Option (List Byte)) : State :=
  match d.2 with
  | none => s.setRecon pid e t d.1
  | some b => (s.setRecon pid e t d.1).emit (.unit pid e.epoch b)

/-- `Route` (R158). -/
def State.route (s : State) (pid : Pid) (payload : List Byte) (pusi : Bool) (cc : Cc) (noinc : Bool) : State :=
  if pid = nullPid then { s with unroutedCount := s.unroutedCount + 1 }
  else
    match Registry.lookup pid s.reg with
    | none => { s with unroutedCount := s.unroutedCount + 1 }
    | some e =>
      match e.consumer with
      | .raw => s.emit (.raw pid e.epoch payload pusi cc noinc)
      | .sect => s.emit (.sect pid e.epoch payload pusi cc noinc)
      | .stream t r => s.delivered pid e t (r.deliver s.params t s.pcrSeen payload pusi cc noinc)

/-- `ProcessPacket` (R155). -/
def State.processPacket (s : State) (pkt : List Byte) : State :=
  let h := headerOf pkt
  let p := extractPayload pkt h.afc
  State.route { s with pktCount := s.pktCount + 1 } h.pid p.1 h.pusi h.cc p.2

/-! ### The packet pump (R152, R153) -/

/-- `Quiescent()` (R152). -/
def quiet (m : ResyncMode) : Sync → List Byte → Bool
  | .inSync, carry => decide (carry.length < pktLen)
  | .scan, [] => true
  | .scan, b :: rest =>
    decide (m = .stride) && decide (b = syncByte) && decide ((b :: rest).length < pktLen + 1)

/-- `Quiescent()` of a state (R152). -/
def State.quiescent (s : State) : Bool := quiet s.params.resyncMode s.sync s.carry

/-- Discards the head byte of the carry buffer, counting it (R153). -/
def State.skipByte (s : State) : State := { s with carry := s.carry.tail, skipBytes := s.skipBytes + 1 }

/-- `PumpStep()` (R153), enabled where the pump is not quiescent. -/
def State.pumpStep (s : State) : State :=
  match s.sync with
  | .inSync =>
    if s.carry.head? = some syncByte then
      State.processPacket { s with carry := s.carry.drop pktLen } (s.carry.take pktLen)
    else State.skipByte { s with sync := .scan, resyncCount := s.resyncCount + 1 }
  | .scan =>
    if s.carry.head? ≠ some syncByte then s.skipByte
    else
      match s.params.resyncMode with
      | .single => { s with sync := .inSync }
      | .stride => if s.carry[pktLen]? = some syncByte then { s with sync := .inSync } else s.skipByte

/-- Up to `n` pump steps, stopping where the pump is quiescent: the loop of R150. -/
def State.pumpRun : Nat → State → State
  | 0, s => s
  | n + 1, s => if s.quiescent then s else State.pumpRun n s.pumpStep

/-- The bound of R411 on the pump steps that the held bytes can take. -/
def pumpBound (s : State) : Nat := 2 * s.carry.length + 1

/-- Appends a chunk to the carry buffer: step 1 of ADD_PAYLOAD (R150). -/
def State.feed (s : State) (data : List Byte) : State := { s with carry := s.carry ++ data }

/-- The end of every D-engine step of an ADD_PAYLOAD: the response is posted once the pump is quiescent, and until then
the command stays in execution (R78, R150, R151). -/
def State.settle (s : State) : State :=
  if s.quiescent then State.respond { s with pumping := false } .d 0x01 .ok 0 else { s with pumping := true }

/-- One later step of an ADD_PAYLOAD in execution: one pump step (R78, R150). -/
def State.pumpTurn (s : State) : State := (if s.quiescent then s else s.pumpStep).settle

/-! ### The commands -/

/-- ADD_PAYLOAD (R150): its first atomic step. The later ones are `State.pumpTurn`, one a step of the D engine (R78). -/
def execAddPayload (data : List Byte) (s : State) : Answer State :=
  if s.disposed then raise .d 0x01 .disposed s else .next (s.feed data).settle

/-- DISPOSE (R170). -/
def execDispose (s : State) : Answer State :=
  .next (State.respond { s with reg := [], carry := [], disposed := true } .d 0x02 .ok 0)

/-- READ_GSTAT (R175; R47 for the selectors). -/
def execReadGstat (sel : BitVec 8) (s : State) : Answer State :=
  match globalReg s sel with
  | none => raise .d 0x05 .illegal s
  | some v => .next ((s.respond .d 0x05 .ok 0).post .d (wordsOf64 v))

end Sys2Proof.Machine
end

