-- ==== Sys2Proof/Machine/Agents.lean ====
section
/-! DEFINITION. What each agent does in a step of its own (00_scope.md R7; 20_memory.md R77 to R83), and which agent moves
next. `nextMove` says all of a step but the meaning of a command. -/

namespace Sys2Proof.Machine

/-- What the next step does: run a command whose words are off its port, or go to a state. -/
inductive Move where
  | run (i : Instr) (s : State)
  | goto (s : State)
deriving DecidableEq, Repr

/-- An engine takes the command at the head of its port (R31, R80). A word that is no command of the port is consumed and
answered ILLEGAL (R111); an engine with no whole command waits (R104; assumption 4). -/
def State.fetch (s : State) (p : Port) : Move :=
  match decode p (s.cmd.get p) with
  | .empty => .goto s
  | .wait => .goto s
  | .illegal _ op rest => .goto ((s.setCmd p rest).respond p op .illegal 0)
  | .command i rest => .run i (s.setCmd p rest)

/-- A step of one engine: the D engine goes on with an ADD_PAYLOAD in execution before it takes its next command (R78,
R80). -/
def State.engineMove (s : State) (p : Port) : Move :=
  if p = .d ∧ s.pumping = true then .goto s.pumpTurn else s.fetch p

/-- An engine has a step to take. -/
def State.canMove (s : State) (p : Port) : Bool :=
  (decide (p = .d) && s.pumping) ||
    match decode p (s.cmd.get p) with
    | .empty => false
    | .wait => false
    | .illegal _ _ _ => true
    | .command _ _ => true

/-- The engines that have a step to take. -/
def State.ready (s : State) : List Port := [Port.d, Port.c, Port.s].filter s.canMove

/-- A step of the host (R7, R390). Reset puts every element at its reset value; the parameters, the schedule and the
count of free choices are the environment's and stay. -/
def State.hostMove (s : State) : HostAct → State
  | .push p w => s.setCmd p (s.cmd.get p ++ [w])
  | .popResponse p => { s with rsp := s.rsp.set p (s.rsp.get p).tail }
  | .popEvent => { s with out := s.out.tail }
  | .reset => { State.reset with params := s.params, schedule := s.schedule, picks := s.picks }

/-- Who moves and what it does (R81; assumption 1). The schedule's head, where there is one, takes the step. Where the
schedule says nothing, the engine that has a step takes it; where several have one, a free value chooses. -/
def State.nextMove (s : State) : Move :=
  match s.schedule with
  | .host a :: rest => .goto (State.hostMove { s with schedule := rest } a)
  | .engine p :: rest => State.engineMove { s with schedule := rest } p
  | [] =>
    match s.ready with
    | [] => .goto s
    | [p] => s.engineMove p
    | _ :: _ :: _ => State.engineMove { s with picks := s.picks + 1 } (Config.freeTurn s.picks)

/-- Puts the words of a command at the head of the port its opcode belongs to, with that port's engine next to move and
free to take a command. -/
def State.placeCommand (s : State) (words : List Word) : State :=
  let p := portOfWord (words.headD 0)
  { s.setCmd p (words ++ s.cmd.get p) with
    pumping := if p = .d then false else s.pumping
    schedule := .engine p :: s.schedule }

end Sys2Proof.Machine
end

