-- ==== Sys2Proof/Machine/Parser.lean ====
section
/-! DEFINITION. The section parse primitives (44_parser.md): PB_LOAD, PB_RD8, PB_RD16, PB_RD12 and PB_WALK (R330 to
R334). -/

namespace Sys2Proof.Machine

/-- PB_LOAD (R330). -/
def execPbLoad (data : List Byte) (s : State) : Answer State :=
  if pbCap < data.length then raise .s 0x30 .capacity s
  else .next (State.respond { s with pb := data } .s 0x30 .ok 0)

/-- PB_RD8 (R331). -/
def execPbRd8 (off : BitVec 12) (s : State) : Answer State :=
  match byteAt s.pb off.toNat with
  | none => raise .s 0x31 .contract s
  | some b => .next (s.respond .s 0x31 .ok (0#8 ++ b))

/-- PB_RD16 (R332). -/
def execPbRd16 (off : BitVec 12) (s : State) : Answer State :=
  match be16At s.pb off.toNat with
  | none => raise .s 0x32 .contract s
  | some v => .next (s.respond .s 0x32 .ok v)

/-- PB_RD12 (R333). -/
def execPbRd12 (off : BitVec 12) (s : State) : Answer State :=
  match be16At s.pb off.toNat with
  | none => raise .s 0x33 .contract s
  | some v => .next (s.respond .s 0x33 .ok (mask12 v))

/-- A descriptor a walk finds: its tag, its length and the offset of its payload in `st.pb` (R90, R334). -/
structure Desc where
  tag : Byte
  len : Byte
  off : Nat
deriving DecidableEq, Repr

/-- The walk of R334 over the bytes of a descriptor list. `p` is the position of the first of `bs`, and `skip` counts the
payload bytes still to pass over before the next header. The answer is `ok` and the descriptors found. -/
def walkList : List Byte → Nat → Nat → Bool × List Desc
  | [], _, _ => (true, [])
  | _ :: rest, skip + 1, p => walkList rest skip (p + 1)
  | [_], 0, _ => (false, [])
  | tag :: len :: rest, 0, p =>
    if rest.length < len.toNat then (false, [])
    else
      let w := walkList rest len.toNat (p + 2)
      (w.1, { tag := tag, len := len, off := p + 2 } :: w.2)

/-- The data word of a descriptor (R334). -/
def Desc.word (d : Desc) : Word := d.tag ++ d.len ++ BitVec.ofNat 16 d.off

/-- The descriptor list `[off, off + len)` of `st.pb` (R334). -/
def listBytes (pb : List Byte) (off len : Nat) : List Byte := (pb.drop off).take len

/-- PB_WALK (R334). -/
def execPbWalk (off len : BitVec 12) (s : State) : Answer State :=
  if s.pb.length < off.toNat + len.toNat then raise .s 0x34 .contract s
  else
    let w := walkList (listBytes s.pb off.toNat len.toNat) 0 off.toNat
    .next ((s.respond .s 0x34 (if w.1 then .ok else .invalid) (BitVec.ofNat 16 w.2.length)).post .s
      (w.2.map Desc.word))

end Sys2Proof.Machine
end

