-- ==== Sys2Proof/Machine/Registry.lean ====
section
/-! DEFINITION. The PID filter registry (41_registry.md): SET_FILTER, REQUEST_SECTION, REMOVE_FILTER, CLEAR_FILTERS and
SET_PCR_SEEN (R201, R204, R207, R208, R214). Each is one atomic step of the C engine (R77). -/

namespace Sys2Proof.Machine

/-- Installs a new entry with the next epoch, replacing any entry of the PID, and answers the low 16 bits of that epoch
(R39, R201, R202, R203, R204). -/
def State.register (s : State) (op : BitVec 8) (p : Pid) (k : Consumer) (small video : Bool) : State :=
  State.respond
    { s.install p { consumer := k, small := small, vhint := video, epoch := s.epochNext } with
      epochNext := s.epochNext + 1 }
    .c op .ok (s.epochNext.extractLsb' 0 16)

/-- SET_FILTER (R201). -/
def execSetFilter (kind stype : BitVec 2) (small video : Bool) (pid : BitVec 16) (s : State) : Answer State :=
  match consumerOf kind stype with
  | none => raise .c 0x10 .illegal s
  | some k =>
    if s.disposed then raise .c 0x10 .disposed s
    else if pidInRange pid = false then raise .c 0x10 .contract s
    else .next (s.register 0x10 (pidOf pid) k small video)

/-- REQUEST_SECTION (R204). -/
def execRequestSection (pid : BitVec 16) (s : State) : Answer State :=
  if s.disposed then raise .c 0x11 .disposed s
  else if pidInRange pid = false then raise .c 0x11 .contract s
  else .next (s.register 0x11 (pidOf pid) .sect false false)

/-- REMOVE_FILTER (R207). -/
def execRemoveFilter (pid : BitVec 16) (s : State) : Answer State :=
  if s.disposed then raise .c 0x12 .disposed s
  else if pidInRange pid = false then raise .c 0x12 .contract s
  else .next ((s.uninstall (pidOf pid)).respond .c 0x12 .ok 0)

/-- CLEAR_FILTERS (R208). -/
def execClearFilters (s : State) : Answer State :=
  if s.disposed then raise .c 0x13 .disposed s
  else .next (State.respond { s with reg := [] } .c 0x13 .ok 0)

/-- SET_PCR_SEEN (R214). -/
def execSetPcrSeen (s : State) : Answer State :=
  if s.disposed then raise .c 0x14 .disposed s
  else .next (State.respond { s with pcrSeen := true } .c 0x14 .ok 0)

end Sys2Proof.Machine
end

