-- ==== Sys2Proof/Machine/SectionBuffer.lean ====
section
/-! DEFINITION. The section buffer (43_section_buffer.md): SB_CLEAR, SB_APPEND_BYTE, SB_APPEND_U16, SB_APPEND_BYTES,
SB_APPEND_LANG, SB_RESERVE, SB_BACKFILL and SB_TO_BYTES (R289 to R298). -/

namespace Sys2Proof.Machine

/-- An append of `bs` to `st.sb`, refused whole with CAPACITY where the buffer would exceed `SB_CAP` (R289). -/
def sbAppend (op : BitVec 8) (bs : List Byte) (value : BitVec 16) (s : State) : Answer State :=
  if sbCap < s.sb.length + bs.length then raise .s op .capacity s
  else .next (State.respond { s with sb := s.sb ++ bs } .s op .ok value)

/-- SB_CLEAR (R290). -/
def execSbClear (s : State) : Answer State := .next (State.respond { s with sb := [] } .s 0x20 .ok 0)

/-- SB_APPEND_BYTE (R291). -/
def execSbAppendByte (b : Byte) (s : State) : Answer State := sbAppend 0x21 [b] 0 s

/-- SB_APPEND_U16 (R292). -/
def execSbAppendU16 (v : BitVec 16) (s : State) : Answer State := sbAppend 0x22 (be16Bytes v) 0 s

/-- SB_APPEND_BYTES (R293). -/
def execSbAppendBytes (data : List Byte) (s : State) : Answer State := sbAppend 0x23 data 0 s

/-- SB_APPEND_LANG (R294, R295). -/
def execSbAppendLang (data : List Byte) (s : State) : Answer State :=
  sbAppend 0x24 (langNorm s.params.langDefault data) 0 s

/-- SB_RESERVE (R296): the placeholder 0x00, and its position as the response value. -/
def execSbReserve (s : State) : Answer State := sbAppend 0x25 [0x00#8] (BitVec.ofNat 16 s.sb.length) s

/-- SB_BACKFILL (R297): the count of bytes after the slot, modulo 256. -/
def execSbBackfill (pos : BitVec 16) (s : State) : Answer State :=
  if s.sb.length ≤ pos.toNat then raise .s 0x26 .contract s
  else
    .next (State.respond
      { s with sb := s.sb.set pos.toNat (BitVec.ofNat 8 (s.sb.length - pos.toNat - 1)) } .s 0x26 .ok 0)

/-- SB_TO_BYTES (R298). -/
def execSbToBytes (s : State) : Answer State :=
  .next ((s.respond .s 0x27 .ok (BitVec.ofNat 16 s.sb.length)).post .s (pack s.sb))

end Sys2Proof.Machine
end

