-- ==== Sys2Proof/Machine/Dispatch.lean ====
section
/-! DEFINITION. The meaning of every command: one arm a constructor. The words of the command are off its port when its
meaning runs (00_scope.md R14, `pop`). -/

namespace Sys2Proof.Machine

def exec (i : Instr) (s : State) : Host.Outcome State Fault Refusal :=
  match i with
  | .addPayload data => Sys2Proof.Machine.execAddPayload data s
  | .dispose => Sys2Proof.Machine.execDispose s
  | .resetStream pid => Sys2Proof.Machine.execResetStream pid s
  | .disposeStream pid => Sys2Proof.Machine.execDisposeStream pid s
  | .readGstat sel => Sys2Proof.Machine.execReadGstat sel s
  | .readSstat sel pid => Sys2Proof.Machine.execReadSstat sel pid s
  | .setFilter kind stype small video pid => Sys2Proof.Machine.execSetFilter kind stype small video pid s
  | .requestSection pid => Sys2Proof.Machine.execRequestSection pid s
  | .removeFilter pid => Sys2Proof.Machine.execRemoveFilter pid s
  | .clearFilters => Sys2Proof.Machine.execClearFilters s
  | .setPcrSeen => Sys2Proof.Machine.execSetPcrSeen s
  | .sbClear => Sys2Proof.Machine.execSbClear s
  | .sbAppendByte b => Sys2Proof.Machine.execSbAppendByte b s
  | .sbAppendU16 v => Sys2Proof.Machine.execSbAppendU16 v s
  | .sbAppendBytes data => Sys2Proof.Machine.execSbAppendBytes data s
  | .sbAppendLang data => Sys2Proof.Machine.execSbAppendLang data s
  | .sbReserve => Sys2Proof.Machine.execSbReserve s
  | .sbBackfill pos => Sys2Proof.Machine.execSbBackfill pos s
  | .sbToBytes => Sys2Proof.Machine.execSbToBytes s
  | .pbLoad data => Sys2Proof.Machine.execPbLoad data s
  | .pbRd8 off => Sys2Proof.Machine.execPbRd8 off s
  | .pbRd16 off => Sys2Proof.Machine.execPbRd16 off s
  | .pbRd12 off => Sys2Proof.Machine.execPbRd12 off s
  | .pbWalk off len => Sys2Proof.Machine.execPbWalk off len s

end Sys2Proof.Machine
end

