-- ==== Sys2Proof/Machine/Step.lean ====
section
/-! DEFINITION. One step of the machine: one atomic step of one agent (20_memory.md R77, R78, R81). -/

namespace Sys2Proof.Machine

/-- One step. Every step answers a next state. -/
def step (s : State) : Host.Outcome State Fault Refusal :=
  match s.nextMove with
  | .run i t => exec i t
  | .goto t => .next t

/-- `s` with the instruction whose bits are `w` as the next command of the port its opcode belongs to, and with that
port's engine next to move (assumption 5). -/
def State.withFetchWord (s : State) (nbits w : Nat) : State := s.placeCommand (tableWords nbits w)

end Sys2Proof.Machine
end

