-- ==== Sys2Proof/Safety.lean ====
section
/-! DEFINITION. What every state of a run is claimed to satisfy: the invariant of the registry (10_state.md R38, R42, R43),
of the buffers (R33, R44, R45, R289) and of the D engine (20_memory.md R78), and what a unit event must look like
(42_reconstructor.md R253). -/

namespace Sys2Proof.Machine

/-- The canonical form of the registry: PIDs strictly rising, so that each PID has at most one entry (R38). -/
abbrev Registry.Wf (r : Registry) : Prop := r.Pairwise fun a b => a.1 < b.1

/-- A reconstructor that deliveries can leave: an Idle one holds no bytes (R43); a disposed one is Idle (R241, R262); the
buffer is within UNIT_CAP (R42); the least and the greatest unit length are both absent or both present, in order, and at
least 4 (R249, R253). -/
abbrev Recon.Sound (ps : Params) (r : Recon) : Prop :=
  (r.collecting = false → r.buf = []) ∧
  (r.disposed = true → r.collecting = false) ∧
  Params.holds ps r.buf.length = true ∧
  (match r.minUnit, r.maxUnit with
    | none, none => True
    | some m, some n => 4 ≤ m ∧ m ≤ n
    | none, some _ => False
    | some _, none => False)

/-- The reconstructor of an entry, where it has one, is sound. -/
def Entry.Sound (ps : Params) (e : Entry) : Prop :=
  match e.consumer with
  | .raw => True
  | .sect => True
  | .stream _ r => Recon.Sound ps r

/-- The invariant of the machine. -/
structure State.Inv (s : State) : Prop where
  /-- The registry is in its canonical form (R38). -/
  regWf : Registry.Wf s.reg
  /-- Every reconstructor is sound (R42, R43). -/
  reconSound : ∀ x ∈ s.reg, Entry.Sound s.params x.2
  /-- R44, R289. -/
  sbBound : s.sb.length ≤ 65535
  /-- R45. -/
  pbBound : s.pb.length ≤ 4096
  /-- An ADD_PAYLOAD is in execution exactly while the pump has a step to take (R78, R151). -/
  pumpingBusy : s.pumping = !s.quiescent
  /-- After DISPOSE nothing is registered and nothing is held (R35, R170). -/
  disposedEmpty : s.disposed = true → s.reg = [] ∧ s.carry = []

/-- The bytes of a unit event that R253 requires: at least four, beginning 0x00 0x00 0x01 and then a stream byte that the
predicate of the stream type accepts (R124, R248). -/
def ValidUnit (ps : Params) (t : StreamType) (b : List Byte) : Prop :=
  ∃ x rest, b = 0x00#8 :: 0x00#8 :: 0x01#8 :: x :: rest ∧
    match t with
    | .audio => 0xC0 ≤ x.toNat ∧ x.toNat ≤ 0xDF
    | .subtitle => x.toNat = 0xBD
    | .video => x ∈ ps.videoBytes

end Sys2Proof.Machine
end

