-- ==== Sys2Proof/Certificates/Slice0/Obligations.lean ====
section
/-! DEFINITION. The statements about the block, one a definition under Obligations, written from the spec's numbered rules.
Response words with value 0 are written out; a state is written as the one before it with the fields that change, so that
every other field is said to be unchanged. -/

open Sys2Proof Sys2Proof.Machine

namespace Sys2Proof.Stated

/-- Port `p` reads a word of opcode `op` as the one-word command `make w`, or as illegal where a bit of `reserved` is set,
and consumes that word alone (R100, R104, R111 (b)). -/
def OneWord (p : Port) (op : BitVec 8) (reserved : Word) (make : Word → Instr) : Prop :=
  ∀ (w : Word) (ws : List Word), w.extractLsb' 24 8 = op →
    decode p (w :: ws) =
      if w &&& reserved = 0#32 then .command (make w) ws else .illegal .reservedField op ws

/-- Port `p` reads a word of opcode `op` and the `ceil(n/4)` data words after it as the command of their `n` bytes, `n`
being bits [15:0], or as illegal where one of bits [23:16] is set, and consumes all of them either way (R104, R111). -/
def Counted (p : Port) (op : BitVec 8) (make : List Byte → Instr) : Prop :=
  ∀ (w : Word) (ds ws : List Word), w.extractLsb' 24 8 = op →
    ds.length = ((w.extractLsb' 0 16).toNat + 3) / 4 →
    decode p (w :: (ds ++ ws)) =
      if w &&& 0x00FF0000#32 = 0#32 then .command (make (unpack ds (w.extractLsb' 0 16).toNat)) ws
      else .illegal .reservedField op ws

/-- The PID an in-range `pid` field names (R102). -/
def pidNamed (pid : BitVec 16) : Pid := BitVec.ofNat 13 pid.toNat

/-- A 64-bit value as two data words, bits [63:32] first (R109). -/
def words64 (v : BitVec 64) : List Word := [BitVec.ofNat 32 (v.toNat / 2 ^ 32), BitVec.ofNat 32 (v.toNat % 2 ^ 32)]

/-- 1 for a set bit, 0 for a clear one. -/
def bit (b : Bool) : Nat := if b then 1 else 0

/-- A fresh reconstructor, field by field (R202). -/
def newRecon : Recon :=
  { buf := [], lastCc := none, collecting := false, disposed := false, units := 0#64, bytes := 0#64
    minUnit := none, maxUnit := none, loss := 0#64, overflow := 0#64 }

/-- The consumer that legal SET_FILTER codes name, with a fresh reconstructor for a STREAM entry (R103, R202). -/
def Names (kind stype : BitVec 2) (k : Consumer) : Prop :=
  (kind = 0#2 ∧ stype = 0#2 ∧ k = .raw) ∨ (kind = 1#2 ∧ stype = 0#2 ∧ k = .sect) ∨
  (kind = 2#2 ∧ stype = 0#2 ∧ k = .stream .audio newRecon) ∨
  (kind = 2#2 ∧ stype = 1#2 ∧ k = .stream .subtitle newRecon) ∨
  (kind = 2#2 ∧ stype = 2#2 ∧ k = .stream .video newRecon)

/-- `st.reg[p]` is the STREAM entry `e` of type `t` with reconstructor `r` (R40). -/
def StreamEntry (s : State) (p : Pid) (e : Entry) (t : StreamType) (r : Recon) : Prop :=
  Registry.lookup p s.reg = some e ∧ e.consumer = .stream t r

/-- `st.reg[p]` is none or no STREAM entry (R363). -/
def NotStream (s : State) (p : Pid) : Prop :=
  ∀ e, Registry.lookup p s.reg = some e → e.consumer = .raw ∨ e.consumer = .sect

/-- A registry that differs from `reg` at `p` alone, where it holds `e` (R38). -/
def OnlyAt (reg reg' : Registry) (p : Pid) (e : Option Entry) : Prop :=
  ∀ q, Registry.lookup q reg' = if q = p then e else Registry.lookup q reg

/-- `Quiescent()` (R152). -/
def Quiet (m : ResyncMode) (sync : Sync) (carry : List Byte) : Prop :=
  (sync = .inSync ∧ carry.length < 188) ∨ (sync = .scan ∧ carry.length = 0) ∨
  (sync = .scan ∧ m = .stride ∧ carry[0]? = some 0x47#8 ∧ carry.length < 189)

/-- A state's pump run until it is quiescent, by the bound of R411. -/
def drained (s : State) : State := State.pumpRun (2 * s.carry.length + 1) s

/-- An ADD_PAYLOAD of `data` run to its response (R150). -/
def addPayloadRun (data : List Byte) (s : State) : State :=
  State.post { drained { s with carry := s.carry ++ data } with pumping := false } .d [0x01000000#32]

/-- The bytes of a list of descriptors, each a tag and a payload (R122). -/
def listed : List (Byte × List Byte) → List Byte
  | [] => []
  | (tag, payload) :: rest => tag :: BitVec.ofNat 8 payload.length :: payload ++ listed rest

/-- The data words of the descriptors of a list that begins at `p` (R334). -/
def listedWords : Nat → List (Byte × List Byte) → List Word
  | _, [] => []
  | p, (tag, payload) :: rest =>
    (tag ++ BitVec.ofNat 8 payload.length ++ BitVec.ofNat 16 (p + 2)) :: listedWords (p + 2 + payload.length) rest

/-- Bytes that hold no whole descriptor: a fragment shorter than a header, or a header that declares more payload bytes
than are left (R334). -/
def Fragment (bs : List Byte) : Prop :=
  (∃ x, bs = [x]) ∨ ∃ tag len rest, bs = tag :: len :: rest ∧ rest.length < len.toNat

/-- The read-type commands of R75. -/
def ReadsOnly (i : Instr) : Prop :=
  (∃ sel, i = .readGstat sel) ∨ (∃ sel pid, i = .readSstat sel pid) ∨ i = .sbToBytes ∨ (∃ off, i = .pbRd8 off) ∨
  (∃ off, i = .pbRd16 off) ∨ (∃ off, i = .pbRd12 off) ∨ ∃ off len, i = .pbWalk off len

/-- The statuses that refuse a command (R369). -/
def refusal : Status → Bool
  | .contract => true
  | .illegal => true
  | .disposed => true
  | .notStream => true
  | .capacity => true
  | .ok => false
  | .invalid => false
  | .none => false

end Sys2Proof.Stated

open Sys2Proof.Stated

/-! ### Reset -/

/-- R55: the reset values of every state element. No ADD_PAYLOAD is in execution either (the model's own field). -/
def Obligations.ResetPutsEveryElementAtItsValue : Prop :=
  State.reset.cmd.d = [] ∧ State.reset.cmd.c = [] ∧ State.reset.cmd.s = [] ∧
  State.reset.rsp.d = [] ∧ State.reset.rsp.c = [] ∧ State.reset.rsp.s = [] ∧ State.reset.out = [] ∧
  State.reset.carry = [] ∧ State.reset.sync = .inSync ∧ State.reset.disposed = false ∧
  State.reset.pktCount = 0#64 ∧ State.reset.skipBytes = 0#64 ∧ State.reset.resyncCount = 0#64 ∧
  State.reset.unroutedCount = 0#64 ∧ State.reset.pcrSeen = false ∧
  (∀ p, Registry.lookup p State.reset.reg = none) ∧ State.reset.epochNext = 0#64 ∧
  State.reset.sb = [] ∧ State.reset.pb = [] ∧ State.reset.pumping = false

/-- R390: the reset input puts every state element at its reset value, whatever the block was doing: the queues are
emptied, a command in execution is abandoned without a response and no event is emitted. That assertion and release are one
step, and that the machine's parameters and the model's own `schedule` and `picks` stay, is the model's choice (assumptions 1
and 8). -/
def Obligations.ResetInputTakesAnyStateToReset : Prop :=
  ∀ (s : State) (rest : List Turn), s.schedule = .host .reset :: rest →
    step s = .next { State.reset with params := s.params, schedule := rest, picks := s.picks }

/-- The invariant holds at reset. -/
def Obligations.ResetMeetsInvariant : Prop := State.reset.Inv

/-- Every step, of an engine or of the host, keeps the invariant. That an ADD_PAYLOAD ends with the very step that leaves the
pump quiescent, its first included, is the model's reading (assumption 10). -/
def Obligations.StepKeepsInvariant : Prop :=
  ∀ s t : State, s.Inv → step s = .next t → t.Inv

/-! ### Steps -/

/-- The step of an engine whose turn it is, by the schedule or because it alone has a step to take, runs the command that
the decoder reads at the head of its port, with the command's words off the port. Where the head is no command of the port
(R111), its words are consumed, ILLEGAL is answered with the opcode as received, and nothing else changes. Which engine moves
is no rule's (R81 leaves it free): that the head of `schedule` moves, and with nothing scheduled the one engine that has a
step, is the model's choice (assumption 1). Not stated here: several engines with a step and nothing scheduled, and an illegal
word with nothing scheduled. -/
def Obligations.StepRunsWhatTheDecoderReads : Prop :=
  (∀ (s : State) (p : Port) (turns : List Turn) (i : Instr) (rest : List Word),
    s.schedule = .engine p :: turns → (p = .d → s.pumping = false) →
    decode p (s.cmd.get p) = .command i rest →
    step s = exec i { s with schedule := turns, cmd := s.cmd.set p rest }) ∧
  (∀ (s : State) (p : Port) (i : Instr) (rest : List Word),
    s.schedule = [] → s.ready = [p] → (p = .d → s.pumping = false) →
    decode p (s.cmd.get p) = .command i rest →
    step s = exec i { s with cmd := s.cmd.set p rest }) ∧
  (∀ (s : State) (p : Port) (turns : List Turn) (why : Rejection) (op : BitVec 8) (rest : List Word),
    s.schedule = .engine p :: turns → (p = .d → s.pumping = false) →
    decode p (s.cmd.get p) = .illegal why op rest →
    step s = .next (State.post { s with schedule := turns, cmd := s.cmd.set p rest } p [op ++ 0x02#8 ++ 0#16]))

/-- While an ADD_PAYLOAD is in execution the step of the D engine is one pump step, and the response is posted by the step
that leaves the pump quiescent (R78, R151). That the head of `schedule` says whose step it is, is the model's choice
(assumption 1); that no step of its own posts the response, its reading (assumption 10). -/
def Obligations.EngineStepOfAnAddPayloadIsOnePumpStep : Prop :=
  ∀ (s : State) (turns : List Turn) (t : State),
    s.schedule = .engine .d :: turns → s.pumping = true → ¬ Quiet s.params.resyncMode s.sync s.carry →
    t = State.pumpStep { s with schedule := turns } →
    (Quiet t.params.resyncMode t.sync t.carry →
      step s = .next (State.post { t with pumping := false } .d [0x01000000#32])) ∧
    (¬ Quiet t.params.resyncMode t.sync t.carry → step s = .next { t with pumping := true })

/-- No state, no command and no input makes the machine stop: every step answers a next state. -/
def Obligations.StepAlwaysAnswersNext : Prop := ∀ s : State, ∃ t, step s = .next t

/-- R35, R37: once `st.disposed` is set, and once `st.pcr_seen` is, only the reset input clears it. -/
def Obligations.DisposedAndPcrSeenStaySetUntilReset : Prop :=
  ∀ s t : State, step s = .next t → (∀ rest, s.schedule ≠ .host .reset :: rest) →
    (s.disposed = true → t.disposed = true) ∧ (s.pcrSeen = true → t.pcrSeen = true)

/-- R54: a step of an engine appends at most one event to OUT, at its end, and changes none that stands there. -/
def Obligations.EngineStepAppendsAtMostOneEvent : Prop :=
  ∀ s t : State, step s = .next t → (∀ a rest, s.schedule ≠ .host a :: rest) →
    ∃ evs, t.out = s.out ++ evs ∧ evs.length ≤ 1

/-- R253: every UNIT event that a step appends carries the PID and the epoch of a STREAM entry, begins with a start code
of its stream type and, for a SUBTITLE entry, goes out while `st.pcr_seen = 1`. -/
def Obligations.UnitEventsBeginWithTheirStartCode : Prop :=
  ∀ (s t : State) (evs : List Event) (pid : Pid) (epoch : Ctr) (b : List Byte),
    step s = .next t → t.out = s.out ++ evs → .unit pid epoch b ∈ evs →
    4 ≤ b.length ∧
    ∃ e ty r, StreamEntry s pid e ty r ∧ epoch = e.epoch ∧ ValidUnit s.params ty b ∧
      (ty = .subtitle → s.pcrSeen = true)

/-! ### Commands: what holds of all of them -/

/-- R108: a command other than ADD_PAYLOAD posts one response word with its own opcode on its own port, after what stands
there, then data words, and touches no other response queue. (ADD_PAYLOAD posts its word when its pump is done.) -/
def Obligations.EveryCommandAnswersOnItsOwnPort : Prop :=
  ∀ (i : Instr) (s t : State), exec i s = .next t → (∀ data, i ≠ .addPayload data) →
    ∃ st v ds, t.rsp = s.rsp.set i.port (s.rsp.get i.port ++ responseWord i.opcode st v :: ds)

/-- R369: a command whose response carries a refusing status changed nothing but its response queue, to which it appended
that one word, with value 0 and no data words. -/
def Obligations.RefusalsArePrecise : Prop :=
  ∀ (i : Instr) (s t : State) (op : BitVec 8) (st : Status) (v : BitVec 16) (ds : List Word),
    exec i s = .next t → t.rsp.get i.port = s.rsp.get i.port ++ responseWord op st v :: ds → refusal st = true →
    t = s.post i.port [responseWord i.opcode st 0#16]

/-- R108, R110: the opcode in bits [31:24], the status code in [23:16], the value in [15:0]. -/
def Obligations.ResponseWordLayout : Prop :=
  ∀ (op : BitVec 8) (v : BitVec 16) (st : Status) (code : Nat),
    (st, code) ∈ [(Status.ok, 0x00), (.contract, 0x01), (.illegal, 0x02), (.disposed, 0x03), (.notStream, 0x04),
      (.invalid, 0x05), (.none, 0x06), (.capacity, 0x07)] →
    (responseWord op st v).toNat = op.toNat * 2 ^ 24 + code * 2 ^ 16 + v.toNat

/-- R364: while `st.disposed = 1` every legal CMD_D and CMD_C command but DISPOSE and READ_GSTAT is refused with DISPOSED,
and the bit makes no difference to a CMD_S command. -/
def Obligations.DisposedRefusesDataAndControlCommands : Prop :=
  (∀ (i : Instr) (s : State), s.disposed = true → i.port ≠ .s → i ≠ .dispose → (∀ sel, i ≠ .readGstat sel) →
    i.legal = true → exec i s = .next (s.post i.port [i.opcode ++ 0x03#8 ++ 0#16])) ∧
  (∀ (i : Instr) (s t : State) (d : Bool), i.port = .s → exec i s = .next t →
    exec i { s with disposed := d } = .next { t with disposed := d })

/-- R75: a read-type command changes its response port and no other state. -/
def Obligations.ReadCommandsChangeOnlyTheirResponsePort : Prop :=
  ∀ (i : Instr) (s : State), ReadsOnly i → ∃ ws, exec i s = .next (s.post i.port ws)

/-- R250: no command emits an event itself; only the pump steps of an ADD_PAYLOAD do. -/
def Obligations.OnlyThePumpEmitsEvents : Prop :=
  ∀ (i : Instr) (s t : State), exec i s = .next t → t.out = s.out

/-- R82: a command of the S engine commutes with every command of the D and C engines, and with every pump step. -/
def Obligations.SectionEngineCommutesWithTheOthers : Prop :=
  (∀ (i j : Instr) (s : State), i.port = .s → j.port ≠ .s →
    ∃ t u v, exec i s = .next t ∧ exec j t = .next v ∧ exec j s = .next u ∧ exec i u = .next v) ∧
  (∀ (i : Instr) (s : State), i.port = .s → ∃ t, exec i s = .next t ∧ exec i s.pumpTurn = .next t.pumpTurn)

/-! ### Encoding -/

/-- R111 (a): an opcode listed for no port consumes its word alone; a listed opcode on another port consumes its command
word and, for format FN, its data words. -/
def Obligations.ForeignOpcodesAreIllegalAndKeepFraming : Prop :=
  (∀ (p : Port) (w : Word) (ws : List Word),
    (w.extractLsb' 24 8).toNat ∉ [0x01, 0x02, 0x03, 0x04, 0x05, 0x06, 0x10, 0x11, 0x12, 0x13, 0x14, 0x20, 0x21, 0x22,
      0x23, 0x24, 0x25, 0x26, 0x27, 0x30, 0x31, 0x32, 0x33, 0x34] →
    decode p (w :: ws) = .illegal .unknownOpcode (w.extractLsb' 24 8) ws) ∧
  (∀ (p : Port) (w : Word) (i : Instr) (ds ws : List Word), i.port ≠ p → w.extractLsb' 24 8 = i.opcode →
    ds.length = (if i.opcode.toNat ∈ [0x01, 0x23, 0x24, 0x30] then ((w.extractLsb' 0 16).toNat + 3) / 4 else 0) →
    decode p (w :: (ds ++ ws)) = .illegal .otherPort (w.extractLsb' 24 8) ws)

/-- Decode and encode agree: every command the encoding holds, at every value of every operand, is read back from its own
words, whatever words follow them. -/
def Obligations.DecodeOfEncodeGivesTheCommand : Prop :=
  ∀ (i : Instr) (rest : List Word), i.fits = true → decode i.port (encode i ++ rest) = .command i rest

/-- Only its own words are read as a command: what is decoded has exactly the command word that encodes it, and data words
that carry its bytes. -/
def Obligations.DecodedWordsAreTheCommandsOwn : Prop :=
  ∀ (p : Port) (ws rest : List Word) (i : Instr), decode p ws = .command i rest →
    i.port = p ∧ i.fits = true ∧
    ∃ w ds, ws = w :: (ds ++ rest) ∧ (encode i).head? = some w ∧ ds.length = (i.data.length + 3) / 4 ∧
      unpack ds i.data.length = i.data

/-- R15: `ceil(|s|/4)` words carry a byte list; byte `k` of the list is in word `k div 4` at bits
[31-8*(k mod 4) : 24-8*(k mod 4)]; the padding bytes are 0x00 when words are made and are ignored when they are read. -/
def Obligations.PackedBytesUnpack : Prop :=
  (∀ s : List Byte, (pack s).length = (s.length + 3) / 4 ∧ unpack (pack s) s.length = s ∧
    ∀ (k : Nat) (w : Word), (pack s)[k / 4]? = some w →
      w.extractLsb' (24 - 8 * (k % 4)) 8 = (s[k]?).getD 0x00#8) ∧
  ∀ (ws : List Word) (n : Nat), ws.length = (n + 3) / 4 → (unpack ws n).length = n ∧
    ∀ (k : Nat) (w : Word), k < n → ws[k / 4]? = some w →
      (unpack ws n)[k]? = some (w.extractLsb' (24 - 8 * (k % 4)) 8)

/-- Words written out from the spec's encodings decode to the commands they stand for. -/
def Obligations.WordsOfTheSpecDecode : Prop :=
  decodeTableWord 32 0x10800100 = some (.setFilter 2 0 false false 0x0100) ∧
  decodeTableWord 32 0x06010100 = some (.readSstat 0x01 0x0100) ∧
  decodeTableWord 32 0x26000001 = some (.sbBackfill 0x0001) ∧
  decodeTableWord 32 0x34002005 = some (.pbWalk 0x002 0x005) ∧
  decode .s [0x24000002#32, 0x64650000#32] = .command (.sbAppendLang [0x64, 0x65]) []

/-! ### The packet pump -/

/-- R152. -/
def Obligations.QuiescenceIsAsTheRuleSays : Prop :=
  ∀ s : State, s.quiescent = true ↔ Quiet s.params.resyncMode s.sync s.carry

/-- R153, case by case, for a pump that is not quiescent. -/
def Obligations.PumpStepIsAsTheRuleSays : Prop :=
  ∀ (s : State) (b : Byte) (rest : List Byte), s.carry = b :: rest →
    (s.sync = .inSync → 188 ≤ s.carry.length → b = 0x47#8 →
      s.pumpStep = State.processPacket { s with carry := s.carry.drop 188 } (s.carry.take 188)) ∧
    (s.sync = .inSync → 188 ≤ s.carry.length → b ≠ 0x47#8 →
      s.pumpStep = { s with
        sync := .scan, resyncCount := s.resyncCount + 1#64, carry := rest, skipBytes := s.skipBytes + 1#64 }) ∧
    (s.sync = .scan → b ≠ 0x47#8 →
      s.pumpStep = { s with carry := rest, skipBytes := s.skipBytes + 1#64 }) ∧
    (s.sync = .scan → b = 0x47#8 → s.params.resyncMode = .single → s.pumpStep = { s with sync := .inSync }) ∧
    (s.sync = .scan → b = 0x47#8 → s.params.resyncMode = .stride → s.carry[188]? = some 0x47#8 →
      s.pumpStep = { s with sync := .inSync }) ∧
    (s.sync = .scan → b = 0x47#8 → s.params.resyncMode = .stride → ∀ x, s.carry[188]? = some x → x ≠ 0x47#8 →
      s.pumpStep = { s with carry := rest, skipBytes := s.skipBytes + 1#64 })

/-- R155, R156: the fields of a packet's header and its payload, and the routing they lead to. -/
def Obligations.PacketIsDecodedAndRouted : Prop :=
  ∀ (s : State) (b0 b1 b2 b3 b4 : Byte) (rest : List Byte) (payload : List Byte) (noinc : Bool),
    rest.length = 183 →
    (b3.toNat / 16 % 4 = 1 ∧ payload = b4 :: rest ∧ noinc = false ∨
     b3.toNat / 16 % 4 = 3 ∧ b4.toNat ≤ 183 ∧ payload = rest.drop b4.toNat ∧ noinc = false ∨
     b3.toNat / 16 % 4 = 3 ∧ 183 < b4.toNat ∧ payload = [] ∧ noinc = false ∨
     b3.toNat / 16 % 4 = 2 ∧ payload = [] ∧ noinc = true ∨
     b3.toNat / 16 % 4 = 0 ∧ payload = [] ∧ noinc = true) →
    s.processPacket (b0 :: b1 :: b2 :: b3 :: b4 :: rest) =
      State.route { s with pktCount := s.pktCount + 1#64 } (BitVec.ofNat 13 (b1.toNat % 32 * 256 + b2.toNat)) payload
        (decide (b1.toNat / 64 % 2 = 1)) (BitVec.ofNat 4 (b3.toNat % 16)) noinc

/-- R157: the transport error indicator, the transport priority and the scrambling control make no difference. -/
def Obligations.UnusedHeaderBitsMakeNoDifference : Prop :=
  ∀ (s : State) (b0 b1 b2 b3 c1 c3 : Byte) (rest : List Byte),
    b1 &&& 0x5F#8 = c1 &&& 0x5F#8 → b3 &&& 0x3F#8 = c3 &&& 0x3F#8 →
    s.processPacket (b0 :: b1 :: b2 :: b3 :: rest) = s.processPacket (b0 :: c1 :: b2 :: c3 :: rest)

/-- R158, R159, R160: routing, one clause a consumer. -/
def Obligations.RoutingIsAsTheRuleSays : Prop :=
  ∀ (s : State) (pid : Pid) (payload : List Byte) (pusi : Bool) (cc : Cc) (noinc : Bool),
    ((pid = 0x1FFF#13 ∨ Registry.lookup pid s.reg = none) →
      s.route pid payload pusi cc noinc = { s with unroutedCount := s.unroutedCount + 1#64 }) ∧
    (∀ e, pid ≠ 0x1FFF#13 → Registry.lookup pid s.reg = some e →
      (e.consumer = .raw → s.route pid payload pusi cc noinc =
        { s with out := s.out ++ [.raw pid e.epoch payload pusi cc noinc] }) ∧
      (e.consumer = .sect → s.route pid payload pusi cc noinc =
        { s with out := s.out ++ [.sect pid e.epoch payload pusi cc noinc] }) ∧
      (∀ t r d, e.consumer = .stream t r → d = r.deliver s.params t s.pcrSeen payload pusi cc noinc →
        ∃ reg', OnlyAt s.reg reg' pid (some { e with consumer := .stream t d.1 }) ∧
          s.route pid payload pusi cc noinc =
            { s with reg := reg', out := s.out ++ (d.2.map (Event.unit pid e.epoch)).toList }))

/-- R411: the pump is quiescent after at most `2 * |st.carry| + 1` steps, whatever the bytes and the parameters. -/
def Obligations.PumpIsQuiescentWithinItsBound : Prop :=
  ∀ (s : State) (n : Nat), 2 * s.carry.length + 1 ≤ n →
    (State.pumpRun n s).quiescent = true ∧ State.pumpRun n s = drained s

/-- R150, R151, R411: where an ADD_PAYLOAD alone is pending, the machine runs it: within its step for the append and
`2 * (|st.carry| + n) + 1` pump steps its packets are processed and its response is posted, and the machine is at rest. That with
nothing scheduled the machine moves the one engine that has a step, and rests where none has one, is the model's choice (assumption 1; R81 leaves
the order free, and R411 rests completion on fairness); that the step which leaves the pump quiescent, the append included,
posts the response is the model's reading of R78 (assumption 10). -/
def Obligations.AddPayloadRunsToItsResponse : Prop :=
  ∀ (s : State) (data : List Byte), data.length ≤ 65535 → s.schedule = [] → s.pumping = false → s.disposed = false →
    s.cmd.d = encode (.addPayload data) → s.cmd.c = [] → s.cmd.s = [] →
    Host.Core.run Sys2Proof.core (2 * (s.carry.length + data.length) + 2) s =
      .next (addPayloadRun data { s with cmd := { d := [], c := [], s := [] } })

/-- R85: feeding the bytes in two chunks or in one gives the same events and the same state (the response words apart). -/
def Obligations.ChunkBoundariesMakeNoDifference : Prop :=
  ∀ (s : State) (a b : List Byte),
    { addPayloadRun b (addPayloadRun a s) with rsp := s.rsp } = { addPayloadRun (a ++ b) s with rsp := s.rsp }

/-- R161: in step, `k` junk bytes (none the sync byte) before two or more packets are discarded, and counted, and every
packet is taken. -/
def Obligations.ResynchronisationLosesOnlyTheJunk : Prop :=
  ∀ (s : State) (junk : List Byte) (pkts : List (List Byte)) (rest : List Byte),
    s.params.resyncMode = .stride → s.sync = .inSync → junk ≠ [] → 0x47#8 ∉ junk → 2 ≤ pkts.length →
    (∀ pkt ∈ pkts, pkt.length = 188 ∧ pkt[0]? = some 0x47#8) → s.carry = junk ++ pkts.flatten ++ rest →
    State.pumpRun (junk.length + 1 + pkts.length) s =
      { pkts.foldl State.processPacket
          { s with skipBytes := s.skipBytes + BitVec.ofNat 64 junk.length, resyncCount := s.resyncCount + 1#64 }
        with carry := rest }

/-! ### The reconstructor -/

/-- R240 to R245: a disposed reconstructor, a packet with no payload and a duplicate are ignored whole. Any other packet
sets `r.last_cc` and is processed by its PUSI bit; it counts one loss exactly where it follows a packet whose counter it
does not continue. -/
def Obligations.DeliveryChecksContinuity : Prop :=
  ∀ (r : Recon) (ps : Params) (t : StreamType) (pcr : Bool) (payload : List Byte) (pusi : Bool) (cc : Cc) (noinc : Bool),
    (r.disposed = true ∨ noinc = true ∨ r.lastCc = some cc →
      r.deliver ps t pcr payload pusi cc noinc = (r, none)) ∧
    (r.disposed = false → noinc = false → r.lastCc = none →
      r.deliver ps t pcr payload pusi cc noinc = Recon.process { r with lastCc := some cc } ps t pcr payload pusi) ∧
    (∀ l, r.disposed = false → noinc = false → r.lastCc = some l → cc.toNat = (l.toNat + 1) % 16 →
      r.deliver ps t pcr payload pusi cc noinc = Recon.process { r with lastCc := some cc } ps t pcr payload pusi) ∧
    (∀ l, r.disposed = false → noinc = false → r.lastCc = some l → cc ≠ l → cc.toNat ≠ (l.toNat + 1) % 16 →
      r.deliver ps t pcr payload pusi cc noinc =
        Recon.process { r with lastCc := some cc, loss := r.loss + 1#64 } ps t pcr payload pusi)

/-- R246, R247, R251: a processed packet starts a unit, is appended, overflows the unit, or is dropped while Idle. -/
def Obligations.ProcessedPacketBuildsTheUnit : Prop :=
  ∀ (r : Recon) (ps : Params) (t : StreamType) (pcr : Bool) (payload : List Byte),
    (r.collecting = false → r.process ps t pcr payload false = (r, none)) ∧
    (r.collecting = true → (∀ cap, ps.unitCap = some cap → r.buf.length + payload.length ≤ cap) →
      r.process ps t pcr payload false = ({ r with buf := r.buf ++ payload }, none)) ∧
    (r.collecting = true → ∀ cap, ps.unitCap = some cap → cap < r.buf.length + payload.length →
      r.process ps t pcr payload false =
        ({ r with overflow := r.overflow + 1#64, buf := [], collecting := false }, none)) ∧
    (r.collecting = false → r.process ps t pcr payload true = ({ r with buf := payload, collecting := true }, none)) ∧
    (r.collecting = true → r.process ps t pcr payload true =
      ({ (r.boundary ps t pcr).1 with buf := payload, collecting := true }, (r.boundary ps t pcr).2))

/-- R248, R249: at a unit boundary the accumulated bytes are emitted, and counted, exactly where they begin with a start
code of the stream type and a SUBTITLE unit's PCR has been seen; the buffer is emptied in every case. -/
def Obligations.UnitBoundaryEmitsValidUnits : Prop :=
  ∀ (r : Recon) (ps : Params) (t : StreamType) (pcr : Bool),
    (ValidUnit ps t r.buf → (t = .subtitle → pcr = true) →
      r.boundary ps t pcr =
        ({ r with
            buf := []
            units := r.units + 1#64
            bytes := r.bytes + BitVec.ofNat 64 r.buf.length
            minUnit := some (r.minUnit.elim r.buf.length fun n => min n r.buf.length)
            maxUnit := some (r.maxUnit.elim r.buf.length fun n => max n r.buf.length) }, some r.buf)) ∧
    (¬ ValidUnit ps t r.buf ∨ (t = .subtitle ∧ pcr = false) → r.boundary ps t pcr = ({ r with buf := [] }, none))

/-- R254: counters 0, 1, 2, 2, 4 on an audio PID whose buffer has no bound: the unit holds the four distinct payloads, and
one loss is counted. -/
def Obligations.ContinuityExampleOfTheSource : Prop :=
  ∀ (ps : Params) (pcr : Bool) (x : Byte) (p0 p1 p2 p2' p4 p5 : List Byte),
    ps.unitCap = none → 0xC0 ≤ x.toNat → x.toNat ≤ 0xDF →
    let packet (cc : Cc) (pusi : Bool) (p : List Byte) (d : Recon × Option (List Byte)) :=
      d.1.deliver ps .audio pcr p pusi cc false
    let d4 := packet 4 false p4 (packet 2 false p2' (packet 2 false p2 (packet 1 false p1
      (packet 0 true (0x00#8 :: 0x00#8 :: 0x01#8 :: x :: p0) (newRecon, none)))))
    d4.1.loss = 1#64 ∧ d4.2 = none ∧
      (packet 5 true p5 d4).2 = some (0x00#8 :: 0x00#8 :: 0x01#8 :: x :: p0 ++ p1 ++ p2 ++ p4)

/-! ### Commands of the D engine -/

/-- R150, R364: the bytes are appended, or the command is refused. The response is posted at once where the pump is then
quiescent, and else the command stays in execution: that the append's own step is then the final step of R78, which posts the
response, is the model's reading (assumption 10). -/
def Obligations.AddPayloadAppendsItsChunk : Prop :=
  Counted .d 0x01#8 .addPayload ∧
  ∀ (s : State) (data : List Byte),
    (s.disposed = true → exec (.addPayload data) s = .next (s.post .d [0x01030000#32])) ∧
    (s.disposed = false → Quiet s.params.resyncMode s.sync (s.carry ++ data) →
      exec (.addPayload data) s =
        .next (State.post { s with carry := s.carry ++ data, pumping := false } .d [0x01000000#32])) ∧
    (s.disposed = false → ¬ Quiet s.params.resyncMode s.sync (s.carry ++ data) →
      exec (.addPayload data) s = .next { s with carry := s.carry ++ data, pumping := true })

/-- R170. -/
def Obligations.DisposeReleasesEverything : Prop :=
  OneWord .d 0x02#8 0x00FFFFFF#32 (fun _ => .dispose) ∧
  ∀ s : State, exec .dispose s =
    .next (State.post { s with reg := [], carry := [], disposed := true } .d [0x02000000#32])

/-- R175, R47, R48. -/
def Obligations.ReadGstatAnswersTheGlobalRegister : Prop :=
  OneWord .d 0x05#8 0x00FFFF00#32 (fun w => .readGstat (w.extractLsb' 0 8)) ∧
  ∀ s : State,
    exec (.readGstat 0x00) s = .next (s.post .d (0x05000000#32 :: words64 s.pktCount)) ∧
    exec (.readGstat 0x01) s = .next (s.post .d (0x05000000#32 :: words64 s.skipBytes)) ∧
    exec (.readGstat 0x02) s = .next (s.post .d (0x05000000#32 :: words64 s.resyncCount)) ∧
    exec (.readGstat 0x03) s = .next (s.post .d (0x05000000#32 :: words64 s.unroutedCount)) ∧
    (s.carry.length ≤ 188 → exec (.readGstat 0x04) s = .next (s.post .d (0x05000000#32 :: words64 (BitVec.ofNat 64
      (bit s.disposed + 2 * bit (decide (s.sync = .inSync)) + 4 * bit s.pcrSeen + 256 * s.carry.length))))) ∧
    (Registry.Wf s.reg → exec (.readGstat 0x05) s = .next (s.post .d (0x05000000#32 :: words64 (BitVec.ofNat 64
      ((List.range 0x2000).filter fun p => (Registry.lookup (BitVec.ofNat 13 p) s.reg).isSome).length)))) ∧
    exec (.readGstat 0x06) s = .next (s.post .d (0x05000000#32 :: words64 s.epochNext)) ∧
    ∀ sel : BitVec 8, 0x06 < sel.toNat → exec (.readGstat sel) s = .next (s.post .d [0x05020000#32])

/-- R260. -/
def Obligations.ResetStreamReturnsToIdle : Prop :=
  OneWord .d 0x03#8 0x00FF0000#32 (fun w => .resetStream (w.extractLsb' 0 16)) ∧
  ∀ (s : State) (pid : BitVec 16),
    (s.disposed = true → exec (.resetStream pid) s = .next (s.post .d [0x03030000#32])) ∧
    (s.disposed = false → 0x1FFF < pid.toNat → exec (.resetStream pid) s = .next (s.post .d [0x03010000#32])) ∧
    (s.disposed = false → pid.toNat ≤ 0x1FFF → NotStream s (pidNamed pid) →
      exec (.resetStream pid) s = .next (s.post .d [0x03040000#32])) ∧
    (∀ e t r, s.disposed = false → pid.toNat ≤ 0x1FFF → StreamEntry s (pidNamed pid) e t r →
      ∃ reg', OnlyAt s.reg reg' (pidNamed pid)
          (some { e with consumer := .stream t { r with buf := [], collecting := false, lastCc := none } }) ∧
        exec (.resetStream pid) s = .next (State.post { s with reg := reg' } .d [0x03000000#32]))

/-- R262. -/
def Obligations.DisposeStreamStopsTheReconstructor : Prop :=
  OneWord .d 0x04#8 0x00FF0000#32 (fun w => .disposeStream (w.extractLsb' 0 16)) ∧
  ∀ (s : State) (pid : BitVec 16),
    (s.disposed = true → exec (.disposeStream pid) s = .next (s.post .d [0x04030000#32])) ∧
    (s.disposed = false → 0x1FFF < pid.toNat → exec (.disposeStream pid) s = .next (s.post .d [0x04010000#32])) ∧
    (s.disposed = false → pid.toNat ≤ 0x1FFF → NotStream s (pidNamed pid) →
      exec (.disposeStream pid) s = .next (s.post .d [0x04040000#32])) ∧
    (∀ e t r, s.disposed = false → pid.toNat ≤ 0x1FFF → StreamEntry s (pidNamed pid) e t r →
      ∃ reg', OnlyAt s.reg reg' (pidNamed pid)
          (some { e with consumer := .stream t { r with disposed := true, buf := [], collecting := false } }) ∧
        exec (.disposeStream pid) s = .next (State.post { s with reg := reg' } .d [0x04000000#32]))

/-- R270, R49, R50. The values of MIN_UNIT and MAX_UNIT from 2^64 on, and of STATE for a buffer of 2^32 bytes or more, are
free values of the model (assumption 6) and outside these clauses. -/
def Obligations.ReadSstatAnswersTheStreamRegister : Prop :=
  OneWord .d 0x06#8 0x00000000#32 (fun w => .readSstat (w.extractLsb' 16 8) (w.extractLsb' 0 16)) ∧
  ∀ (s : State) (sel : BitVec 8) (pid : BitVec 16),
    (0x07 < sel.toNat → exec (.readSstat sel pid) s = .next (s.post .d [0x06020000#32])) ∧
    (sel.toNat ≤ 0x07 → s.disposed = true → exec (.readSstat sel pid) s = .next (s.post .d [0x06030000#32])) ∧
    (sel.toNat ≤ 0x07 → s.disposed = false → 0x1FFF < pid.toNat →
      exec (.readSstat sel pid) s = .next (s.post .d [0x06010000#32])) ∧
    (sel.toNat ≤ 0x07 → s.disposed = false → pid.toNat ≤ 0x1FFF → NotStream s (pidNamed pid) →
      exec (.readSstat sel pid) s = .next (s.post .d [0x06040000#32])) ∧
    (∀ e t r, s.disposed = false → pid.toNat ≤ 0x1FFF → StreamEntry s (pidNamed pid) e t r →
      exec (.readSstat 0x00 pid) s = .next (s.post .d (0x06000000#32 :: words64 r.units)) ∧
      exec (.readSstat 0x01 pid) s = .next (s.post .d (0x06000000#32 :: words64 r.bytes)) ∧
      (r.minUnit = none → exec (.readSstat 0x02 pid) s = .next (s.post .d [0x06060000#32, 0#32, 0#32])) ∧
      (∀ n, r.minUnit = some n → n < 2 ^ 64 →
        exec (.readSstat 0x02 pid) s = .next (s.post .d (0x06000000#32 :: words64 (BitVec.ofNat 64 n)))) ∧
      (r.maxUnit = none → exec (.readSstat 0x03 pid) s = .next (s.post .d [0x06060000#32, 0#32, 0#32])) ∧
      (∀ n, r.maxUnit = some n → n < 2 ^ 64 →
        exec (.readSstat 0x03 pid) s = .next (s.post .d (0x06000000#32 :: words64 (BitVec.ofNat 64 n)))) ∧
      exec (.readSstat 0x04 pid) s = .next (s.post .d (0x06000000#32 :: words64 r.loss)) ∧
      (r.buf.length < 2 ^ 32 →
        exec (.readSstat 0x05 pid) s = .next (s.post .d (0x06000000#32 :: words64 (BitVec.ofNat 64
          (bit r.collecting + 2 * bit r.lastCc.isSome + 16 * (r.lastCc.elim 0 BitVec.toNat) + 256 * bit r.disposed +
            512 * (match t with
              | .audio => 0
              | .subtitle => 1
              | .video => 2) + 2048 * bit e.small + 4096 * bit e.vhint + 2 ^ 32 * r.buf.length))))) ∧
      exec (.readSstat 0x06 pid) s = .next (s.post .d (0x06000000#32 :: words64 r.overflow)) ∧
      exec (.readSstat 0x07 pid) s = .next (s.post .d (0x06000000#32 :: words64 e.epoch)))

/-! ### Commands of the C engine -/

/-- R201, R202. -/
def Obligations.SetFilterInstallsItsEntry : Prop :=
  OneWord .c 0x10#8 0x00030000#32 (fun w => .setFilter (w.extractLsb' 22 2) (w.extractLsb' 20 2) (w.getLsbD 19)
    (w.getLsbD 18) (w.extractLsb' 0 16)) ∧
  ∀ (s : State) (kind stype : BitVec 2) (small video : Bool) (pid : BitVec 16),
    (kind = 3#2 ∨ stype = 3#2 ∨ (kind ≠ 2#2 ∧ stype ≠ 0#2) →
      exec (.setFilter kind stype small video pid) s = .next (s.post .c [0x10020000#32])) ∧
    (∀ k, Names kind stype k → s.disposed = true →
      exec (.setFilter kind stype small video pid) s = .next (s.post .c [0x10030000#32])) ∧
    (∀ k, Names kind stype k → s.disposed = false → 0x1FFF < pid.toNat →
      exec (.setFilter kind stype small video pid) s = .next (s.post .c [0x10010000#32])) ∧
    (∀ k, Names kind stype k → s.disposed = false → pid.toNat ≤ 0x1FFF →
      ∃ reg', OnlyAt s.reg reg' (pidNamed pid)
          (some { consumer := k, small := small, vhint := video, epoch := s.epochNext }) ∧
        exec (.setFilter kind stype small video pid) s =
          .next (State.post { s with reg := reg', epochNext := s.epochNext + 1#64 } .c
            [responseWord 0x10#8 .ok (BitVec.ofNat 16 (s.epochNext.toNat % 2 ^ 16))]))

/-- R204. -/
def Obligations.RequestSectionInstallsASectionEntry : Prop :=
  OneWord .c 0x11#8 0x00FF0000#32 (fun w => .requestSection (w.extractLsb' 0 16)) ∧
  ∀ (s : State) (pid : BitVec 16),
    (s.disposed = true → exec (.requestSection pid) s = .next (s.post .c [0x11030000#32])) ∧
    (s.disposed = false → 0x1FFF < pid.toNat → exec (.requestSection pid) s = .next (s.post .c [0x11010000#32])) ∧
    (s.disposed = false → pid.toNat ≤ 0x1FFF →
      ∃ reg', OnlyAt s.reg reg' (pidNamed pid)
          (some { consumer := .sect, small := false, vhint := false, epoch := s.epochNext }) ∧
        exec (.requestSection pid) s =
          .next (State.post { s with reg := reg', epochNext := s.epochNext + 1#64 } .c
            [responseWord 0x11#8 .ok (BitVec.ofNat 16 (s.epochNext.toNat % 2 ^ 16))]))

/-- R207. The registry's canonical form is a premise: in a list that is no map, removing one entry of a PID could bare
another. -/
def Obligations.RemoveFilterUninstallsItsEntry : Prop :=
  OneWord .c 0x12#8 0x00FF0000#32 (fun w => .removeFilter (w.extractLsb' 0 16)) ∧
  ∀ (s : State) (pid : BitVec 16),
    (s.disposed = true → exec (.removeFilter pid) s = .next (s.post .c [0x12030000#32])) ∧
    (s.disposed = false → 0x1FFF < pid.toNat → exec (.removeFilter pid) s = .next (s.post .c [0x12010000#32])) ∧
    (s.disposed = false → pid.toNat ≤ 0x1FFF → Registry.Wf s.reg →
      ∃ reg', OnlyAt s.reg reg' (pidNamed pid) none ∧
        (Registry.lookup (pidNamed pid) s.reg = none → reg' = s.reg) ∧
        exec (.removeFilter pid) s = .next (State.post { s with reg := reg' } .c [0x12000000#32]))

/-- R208. -/
def Obligations.ClearFiltersEmptiesTheRegistry : Prop :=
  OneWord .c 0x13#8 0x00FFFFFF#32 (fun _ => .clearFilters) ∧
  ∀ s : State,
    (s.disposed = true → exec .clearFilters s = .next (s.post .c [0x13030000#32])) ∧
    (s.disposed = false → exec .clearFilters s = .next (State.post { s with reg := [] } .c [0x13000000#32]))

/-- R214. -/
def Obligations.SetPcrSeenSetsTheBit : Prop :=
  OneWord .c 0x14#8 0x00FFFFFF#32 (fun _ => .setPcrSeen) ∧
  ∀ s : State,
    (s.disposed = true → exec .setPcrSeen s = .next (s.post .c [0x14030000#32])) ∧
    (s.disposed = false → exec .setPcrSeen s = .next (State.post { s with pcrSeen := true } .c [0x14000000#32]))

/-! ### Commands of the S engine: the section buffer -/

/-- R290. -/
def Obligations.SbClearEmptiesTheBuffer : Prop :=
  OneWord .s 0x20#8 0x00FFFFFF#32 (fun _ => .sbClear) ∧
  ∀ s : State, exec .sbClear s = .next (State.post { s with sb := [] } .s [0x20000000#32])

/-- R291. -/
def Obligations.SbAppendByteAppendsIt : Prop :=
  OneWord .s 0x21#8 0x00FFFF00#32 (fun w => .sbAppendByte (w.extractLsb' 0 8)) ∧
  ∀ (s : State) (b : Byte),
    (s.sb.length + 1 ≤ 65535 →
      exec (.sbAppendByte b) s = .next (State.post { s with sb := s.sb ++ [b] } .s [0x21000000#32])) ∧
    (65535 < s.sb.length + 1 → exec (.sbAppendByte b) s = .next (s.post .s [0x21070000#32]))

/-- R292. -/
def Obligations.SbAppendU16IsBigEndian : Prop :=
  OneWord .s 0x22#8 0x00FF0000#32 (fun w => .sbAppendU16 (w.extractLsb' 0 16)) ∧
  ∀ (s : State) (v : BitVec 16),
    (s.sb.length + 2 ≤ 65535 → exec (.sbAppendU16 v) s =
      .next (State.post { s with sb := s.sb ++ [BitVec.ofNat 8 (v.toNat / 256), BitVec.ofNat 8 (v.toNat % 256)] } .s
        [0x22000000#32])) ∧
    (65535 < s.sb.length + 2 → exec (.sbAppendU16 v) s = .next (s.post .s [0x22070000#32]))

/-- R293. -/
def Obligations.SbAppendBytesAppendsTheRun : Prop :=
  Counted .s 0x23#8 .sbAppendBytes ∧
  ∀ (s : State) (data : List Byte),
    (s.sb.length + data.length ≤ 65535 →
      exec (.sbAppendBytes data) s = .next (State.post { s with sb := s.sb ++ data } .s [0x23000000#32])) ∧
    (65535 < s.sb.length + data.length → exec (.sbAppendBytes data) s = .next (s.post .s [0x23070000#32]))

/-- R294, R295. -/
def Obligations.SbAppendLangAppendsThreeBytes : Prop :=
  Counted .s 0x24#8 .sbAppendLang ∧
  ∀ (s : State) (data code : List Byte),
    (data = [] ∧ code = [s.params.langDefault.b0, s.params.langDefault.b1, s.params.langDefault.b2] ∨
      0 < data.length ∧ data.length < 3 ∧ code = data ++ List.replicate (3 - data.length) 0x20#8 ∨
      3 ≤ data.length ∧ code = data.take 3) →
    (s.sb.length + 3 ≤ 65535 →
      exec (.sbAppendLang data) s = .next (State.post { s with sb := s.sb ++ code } .s [0x24000000#32])) ∧
    (65535 < s.sb.length + 3 → exec (.sbAppendLang data) s = .next (s.post .s [0x24070000#32]))

/-- R296. -/
def Obligations.SbReserveAnswersTheSlotsPosition : Prop :=
  OneWord .s 0x25#8 0x00FFFFFF#32 (fun _ => .sbReserve) ∧
  ∀ s : State,
    (s.sb.length + 1 ≤ 65535 → exec .sbReserve s =
      .next (State.post { s with sb := s.sb ++ [0x00#8] } .s [responseWord 0x25#8 .ok (BitVec.ofNat 16 s.sb.length)])) ∧
    (65535 < s.sb.length + 1 → exec .sbReserve s = .next (s.post .s [0x25070000#32]))

/-- R297. -/
def Obligations.SbBackfillWritesTheCount : Prop :=
  OneWord .s 0x26#8 0x00FF0000#32 (fun w => .sbBackfill (w.extractLsb' 0 16)) ∧
  ∀ (s : State) (pos : BitVec 16),
    (s.sb.length ≤ pos.toNat → exec (.sbBackfill pos) s = .next (s.post .s [0x26010000#32])) ∧
    (pos.toNat < s.sb.length → exec (.sbBackfill pos) s =
      .next (State.post
        { s with sb := s.sb.set pos.toNat (BitVec.ofNat 8 ((s.sb.length - pos.toNat - 1) % 256)) } .s [0x26000000#32]))

/-- R298, R109. The value is the length for a section buffer of at most 65535 bytes, which the invariant gives (R44). Above
that bound, which no run passes, the value takes the low 16 bits of the length: the model's choice (assumption 11). -/
def Obligations.SbToBytesAnswersTheBuffer : Prop :=
  OneWord .s 0x27#8 0x00FFFFFF#32 (fun _ => .sbToBytes) ∧
  ∀ s : State, exec .sbToBytes s =
    .next (s.post .s (responseWord 0x27#8 .ok (BitVec.ofNat 16 s.sb.length) :: pack s.sb))

/-- R301: SB_RESERVE answers the position of a slot; whatever then builds up `content` after it, inner slots included, a
backfill at that position writes the byte count of exactly that content. -/
def Obligations.BackfilledSlotHoldsItsContentsLength : Prop :=
  ∀ s : State, s.sb.length + 1 ≤ 65535 →
    ∃ t, exec .sbReserve s = .next t ∧
      t.rsp.s = s.rsp.s ++ [responseWord 0x25#8 .ok (BitVec.ofNat 16 s.sb.length)] ∧
      ∀ (u : State) (content : List Byte), content.length ≤ 255 → u.sb = t.sb ++ content →
        ∃ v, exec (.sbBackfill (BitVec.ofNat 16 s.sb.length)) u = .next v ∧
          v.sb = s.sb ++ BitVec.ofNat 8 content.length :: content

/-! ### Commands of the S engine: the parse buffer -/

/-- R330. -/
def Obligations.PbLoadReplacesTheBuffer : Prop :=
  Counted .s 0x30#8 .pbLoad ∧
  ∀ (s : State) (data : List Byte),
    (data.length ≤ 4096 → exec (.pbLoad data) s = .next (State.post { s with pb := data } .s [0x30000000#32])) ∧
    (4096 < data.length → exec (.pbLoad data) s = .next (s.post .s [0x30070000#32]))

/-- R331. -/
def Obligations.PbRd8ReadsAByte : Prop :=
  OneWord .s 0x31#8 0x00FFF000#32 (fun w => .pbRd8 (w.extractLsb' 0 12)) ∧
  ∀ (s : State) (off : BitVec 12),
    (s.pb.length < off.toNat + 1 → exec (.pbRd8 off) s = .next (s.post .s [0x31010000#32])) ∧
    (∀ b, s.pb[off.toNat]? = some b →
      exec (.pbRd8 off) s = .next (s.post .s [responseWord 0x31#8 .ok (BitVec.ofNat 16 b.toNat)]))

/-- R332, R333. -/
def Obligations.PbRd16AndPbRd12ReadBigEndian : Prop :=
  OneWord .s 0x32#8 0x00FFF000#32 (fun w => .pbRd16 (w.extractLsb' 0 12)) ∧
  OneWord .s 0x33#8 0x00FFF000#32 (fun w => .pbRd12 (w.extractLsb' 0 12)) ∧
  ∀ (s : State) (off : BitVec 12),
    (s.pb.length < off.toNat + 2 →
      exec (.pbRd16 off) s = .next (s.post .s [0x32010000#32]) ∧
      exec (.pbRd12 off) s = .next (s.post .s [0x33010000#32])) ∧
    (∀ hi lo, s.pb[off.toNat]? = some hi → s.pb[off.toNat + 1]? = some lo →
      exec (.pbRd16 off) s =
        .next (s.post .s [responseWord 0x32#8 .ok (BitVec.ofNat 16 (hi.toNat * 256 + lo.toNat))]) ∧
      exec (.pbRd12 off) s =
        .next (s.post .s [responseWord 0x33#8 .ok (BitVec.ofNat 16 ((hi.toNat * 256 + lo.toNat) % 4096))]))

/-- R334, R335: within the loaded bytes, a walk splits the list into descriptors and what follows them: nothing, and the
status is OK, or bytes that hold no whole descriptor, and it is INVALID; one data word goes out for each descriptor. -/
def Obligations.PbWalkAnswersTheDescriptors : Prop :=
  OneWord .s 0x34#8 0x00000000#32 (fun w => .pbWalk (w.extractLsb' 12 12) (w.extractLsb' 0 12)) ∧
  ∀ (s : State) (off len : BitVec 12),
    (s.pb.length < off.toNat + len.toNat → exec (.pbWalk off len) s = .next (s.post .s [0x34010000#32])) ∧
    (off.toNat + len.toNat ≤ s.pb.length →
      ∃ ds tail, (s.pb.drop off.toNat).take len.toNat = listed ds ++ tail ∧
        (∀ d ∈ ds, d.2.length ≤ 255) ∧
        (tail = [] ∧ (ds.map fun d => 2 + d.2.length).sum = len.toNat ∧ exec (.pbWalk off len) s =
            .next (s.post .s (responseWord 0x34#8 .ok (BitVec.ofNat 16 ds.length) :: listedWords off.toNat ds)) ∨
          Fragment tail ∧ exec (.pbWalk off len) s =
            .next (s.post .s (responseWord 0x34#8 .invalid (BitVec.ofNat 16 ds.length) :: listedWords off.toNat ds))))

/-- R302: where SB_TO_BYTES gives a buffer that still holds what an append put there (whatever was appended before and
after it, and whichever other slots were backfilled), and PB_LOAD loads those bytes, the parse commands read back what was
appended, at its position: a byte of SB_APPEND_BYTE by PB_RD8, a value of SB_APPEND_U16 by PB_RD16, and masked with 0x0FFF
by PB_RD12. -/
def Obligations.SerializedBytesReadBack : Prop :=
  ∀ (s m u v : State) (off : BitVec 12) (ws : List Word),
    off.toNat = s.sb.length → m.sb.length ≤ 4096 → exec .sbToBytes m = .next u →
    u.rsp.s = m.rsp.s ++ responseWord 0x27#8 .ok (BitVec.ofNat 16 m.sb.length) :: ws →
    exec (.pbLoad (unpack ws m.sb.length)) u = .next v →
    (∀ (b : Byte) (t : State), exec (.sbAppendByte b) s = .next t → t.sb.length = s.sb.length + 1 →
        m.sb[s.sb.length]? = t.sb[s.sb.length]? →
      exec (.pbRd8 off) v = .next (v.post .s [responseWord 0x31#8 .ok (BitVec.ofNat 16 b.toNat)])) ∧
    (∀ (x : BitVec 16) (t : State), exec (.sbAppendU16 x) s = .next t → t.sb.length = s.sb.length + 2 →
        m.sb[s.sb.length]? = t.sb[s.sb.length]? → m.sb[s.sb.length + 1]? = t.sb[s.sb.length + 1]? →
      exec (.pbRd16 off) v = .next (v.post .s [responseWord 0x32#8 .ok x]) ∧
      exec (.pbRd12 off) v = .next (v.post .s [responseWord 0x33#8 .ok (x &&& 0x0FFF#16)]))
end

