-- ==== Sys2Proof/Laws/Decode.lean ====
section
/-! SUPPORT. Bits of concatenated fields, the packing of bytes into words, and the fields of an encoded command word. -/

namespace Sys2Proof

/-! ### Bits of a concatenation -/

theorem extract_append_hi {m n k s : Nat} (x : BitVec m) (y : BitVec n) (h : n ≤ s) :
    (x ++ y).extractLsb' s k = x.extractLsb' (s - n) k := by
  apply BitVec.eq_of_getLsbD_eq
  intro i hi
  simp [BitVec.getLsbD_append, hi, show ¬ s + i < n by omega, show s + i - n = s - n + i by omega]

theorem extract_append_lo {m n k s : Nat} (x : BitVec m) (y : BitVec n) (h : s + k ≤ n) :
    (x ++ y).extractLsb' s k = y.extractLsb' s k := by
  apply BitVec.eq_of_getLsbD_eq
  intro i hi
  simp [BitVec.getLsbD_append, hi, show s + i < n by omega]

/-- A concatenation as a number. -/
theorem toNat_append_eq {m n : Nat} (x : BitVec m) (y : BitVec n) : (x ++ y).toNat = x.toNat * 2 ^ n + y.toNat := by
  rw [BitVec.toNat_append, ← Nat.shiftLeft_add_eq_or_of_lt y.isLt, Nat.shiftLeft_eq]

/-- A field as a number. -/
theorem toNat_extract {n : Nat} (x : BitVec n) (s k : Nat) : (x.extractLsb' s k).toNat = x.toNat / 2 ^ s % 2 ^ k := by
  simp [BitVec.extractLsb'_toNat, Nat.shiftRight_eq_div_pow]

/-! ### Packing (R15) -/

theorem wordOf_toNat (a b c d : Byte) :
    (wordOf a b c d).toNat = ((a.toNat * 2 ^ 8 + b.toNat) * 2 ^ 8 + c.toNat) * 2 ^ 8 + d.toNat := by
  show (a ++ b ++ c ++ d : BitVec (8 + 8 + 8 + 8)).toNat = _
  rw [toNat_append_eq, toNat_append_eq, toNat_append_eq]

@[simp] theorem bytesOf_wordOf (a b c d : Byte) : bytesOf (wordOf a b c d) = [a, b, c, d] := by
  simp only [bytesOf, List.cons.injEq, and_true, ← BitVec.toNat_inj, toNat_extract, wordOf_toNat]
  omega

@[simp] theorem bytesOf_length (w : Word) : (bytesOf w).length = 4 := rfl

theorem flatMap_bytesOf_length (ws : List Word) : (ws.flatMap bytesOf).length = 4 * ws.length := by
  induction ws with
  | nil => rfl
  | cons w ws ih => rw [List.flatMap_cons, List.length_append, ih, bytesOf_length, List.length_cons]; omega

/-- The bytes of the packed words are the bytes packed, and then the padding. -/
theorem flatMap_bytesOf_pack (s : List Byte) :
    (pack s).flatMap bytesOf = s ++ List.replicate (4 * dataWords s.length - s.length) 0#8 := by
  induction s using pack.induct with
  | case1 => rfl
  | case2 a => simp [pack, dataWords]
  | case3 a b => simp [pack, dataWords]
  | case4 a b c => simp [pack, dataWords]
  | case5 a b c d rest ih =>
    have h : 4 * dataWords (rest.length + 1 + 1 + 1 + 1) - (rest.length + 1 + 1 + 1 + 1)
        = 4 * dataWords rest.length - rest.length := by
      unfold dataWords; omega
    simp [pack, ih, h]

theorem pack_length (s : List Byte) : (pack s).length = dataWords s.length := by
  induction s using pack.induct with
  | case1 => rfl
  | case2 a => simp [pack, dataWords]
  | case3 a b => simp [pack, dataWords]
  | case4 a b c => simp [pack, dataWords]
  | case5 a b c d rest ih => simp [pack, ih, dataWords]; omega

theorem unpack_length (ws : List Word) (n : Nat) (h : dataWords n ≤ ws.length) : (unpack ws n).length = n := by
  rw [unpack, List.length_take, flatMap_bytesOf_length]
  unfold dataWords at h
  omega

/-! ### The fields of an encoded command word (R101) -/

theorem wordLow16_toNat (op : BitVec 8) (v : BitVec 16) : (wordLow16 op v).toNat = op.toNat * 2 ^ 24 + v.toNat := by
  show (op ++ 0#8 ++ v : BitVec (8 + 8 + 16)).toNat = _
  rw [toNat_append_eq, toNat_append_eq, BitVec.toNat_ofNat]
  omega

theorem wordLow8_toNat (op : BitVec 8) (v : BitVec 8) : (wordLow8 op v).toNat = op.toNat * 2 ^ 24 + v.toNat := by
  show (op ++ 0#16 ++ v : BitVec (8 + 16 + 8)).toNat = _
  rw [toNat_append_eq, toNat_append_eq, BitVec.toNat_ofNat]
  omega

theorem wordLow12_toNat (op : BitVec 8) (v : BitVec 12) : (wordLow12 op v).toNat = op.toNat * 2 ^ 24 + v.toNat := by
  show (op ++ 0#12 ++ v : BitVec (8 + 12 + 12)).toNat = _
  rw [toNat_append_eq, toNat_append_eq, BitVec.toNat_ofNat]
  omega

theorem wordF0_toNat (op : BitVec 8) : (wordF0 op).toNat = op.toNat * 2 ^ 24 := by
  show (op ++ 0#24 : BitVec (8 + 24)).toNat = _
  rw [toNat_append_eq, BitVec.toNat_ofNat]
  omega

@[simp] theorem opField_wordLow16 (op : BitVec 8) (v : BitVec 16) : opField (wordLow16 op v) = op := by
  simp only [opField, ← BitVec.toNat_inj, toNat_extract, wordLow16_toNat]; omega

@[simp] theorem opField_wordLow8 (op : BitVec 8) (v : BitVec 8) : opField (wordLow8 op v) = op := by
  simp only [opField, ← BitVec.toNat_inj, toNat_extract, wordLow8_toNat]; omega

@[simp] theorem opField_wordLow12 (op : BitVec 8) (v : BitVec 12) : opField (wordLow12 op v) = op := by
  simp only [opField, ← BitVec.toNat_inj, toNat_extract, wordLow12_toNat]; omega

@[simp] theorem opField_wordF0 (op : BitVec 8) : opField (wordF0 op) = op := by
  simp only [opField, ← BitVec.toNat_inj, toNat_extract, wordF0_toNat]; omega

@[simp] theorem lowHalf_wordLow16 (op : BitVec 8) (v : BitVec 16) : lowHalf (wordLow16 op v) = v := by
  simp only [lowHalf, ← BitVec.toNat_inj, toNat_extract, wordLow16_toNat]; omega

@[simp] theorem lowByte_wordLow8 (op : BitVec 8) (v : BitVec 8) : lowByte (wordLow8 op v) = v := by
  simp only [lowByte, ← BitVec.toNat_inj, toNat_extract, wordLow8_toNat]; omega

@[simp] theorem low12_wordLow12 (op : BitVec 8) (v : BitVec 12) : low12 (wordLow12 op v) = v := by
  simp only [low12, ← BitVec.toNat_inj, toNat_extract, wordLow12_toNat]; omega

/-- A field that is masked is zero exactly where each of its bits is. -/
theorem and_eq_zero_iff (w m : Word) : w &&& m = 0 ↔ ∀ i < 32, m.getLsbD i = true → w.getLsbD i = false := by
  constructor
  · intro h i _ hm
    have := congrArg (fun v : Word => v.getLsbD i) h
    simpa [hm] using this
  · intro h
    apply BitVec.eq_of_getLsbD_eq
    intro i hi
    by_cases hm : m.getLsbD i = true
    · simp [h i hi hm]
    · simp [hm]

@[simp] theorem wordLow16_reserved (op : BitVec 8) (v : BitVec 16) : wordLow16 op v &&& 0x00FF0000#32 = 0 := by
  apply BitVec.eq_of_getLsbD_eq
  intro i hi
  have h : (wordLow16 op v).getLsbD i = (op ++ 0#8 ++ v : BitVec (8 + 8 + 16)).getLsbD i := rfl
  rw [BitVec.getLsbD_and, h]
  simp only [BitVec.getLsbD_append]
  interval_cases i <;> simp

@[simp] theorem wordLow8_reserved (op : BitVec 8) (v : BitVec 8) : wordLow8 op v &&& 0x00FFFF00#32 = 0 := by
  apply BitVec.eq_of_getLsbD_eq
  intro i hi
  have h : (wordLow8 op v).getLsbD i = (op ++ 0#16 ++ v : BitVec (8 + 16 + 8)).getLsbD i := rfl
  rw [BitVec.getLsbD_and, h]
  simp only [BitVec.getLsbD_append]
  interval_cases i <;> simp

@[simp] theorem wordLow12_reserved (op : BitVec 8) (v : BitVec 12) : wordLow12 op v &&& 0x00FFF000#32 = 0 := by
  apply BitVec.eq_of_getLsbD_eq
  intro i hi
  have h : (wordLow12 op v).getLsbD i = (op ++ 0#12 ++ v : BitVec (8 + 12 + 12)).getLsbD i := rfl
  rw [BitVec.getLsbD_and, h]
  simp only [BitVec.getLsbD_append]
  interval_cases i <;> simp

@[simp] theorem wordF0_reserved (op : BitVec 8) : wordF0 op &&& 0x00FFFFFF#32 = 0 := by
  apply BitVec.eq_of_getLsbD_eq
  intro i hi
  have h : (wordF0 op).getLsbD i = (op ++ 0#24 : BitVec (8 + 24)).getLsbD i := rfl
  rw [BitVec.getLsbD_and, h]
  simp only [BitVec.getLsbD_append]
  interval_cases i <;> simp

/-! ### The opcode map -/

/-- Every command stands in the opcode map, on its own port. -/
theorem opRow_opcode (i : Instr) : ∃ r, opRow i.opcode = some r ∧ r.port = i.port := by
  cases i <;> exact ⟨_, rfl, rfl⟩

/-- A row of the opcode map says commands of its own port and opcode. -/
theorem opRow_make {op : BitVec 8} {r : OpRow} (h : opRow op = some r) (w : Word) (data : List Byte) :
    (r.make w data).port = r.port ∧ (r.make w data).opcode = op := by
  have hop (n : Nat) (hn : op.toNat = n) (hlt : n < 256) : op = BitVec.ofNat 8 n := by
    apply BitVec.eq_of_toNat_eq
    simp [hn, Nat.mod_eq_of_lt hlt]
  unfold opRow at h
  split at h <;> first
    | (injection h with h; subst h; exact ⟨rfl, (hop _ (by assumption) (by decide)).symm⟩)
    | cases h

/-- What stands on a port where the decoder reads a command (R104, R111). -/
theorem decode_command {p : Port} {ws rest : List Word} {i : Instr} (h : decode p ws = .command i rest) :
    ∃ w ds r, ws = w :: (ds ++ rest) ∧ opRow (opField w) = some r ∧ r.port = p ∧
      ds.length = dataWords (r.format.byteCount w) ∧ w &&& r.format.reserved = 0 ∧
      i = r.make w (unpack ds (r.format.byteCount w)) := by
  cases ws with
  | nil => cases h
  | cons w ws =>
    simp only [decode] at h
    split at h
    · cases h
    · rename_i r hr
      split at h
      · cases h
      · rename_i hlen
        split at h
        · cases h
        · rename_i hport
          split at h
          · cases h
          · rename_i hres
            injection h with hi hrest
            refine ⟨w, ws.take (dataWords (r.format.byteCount w)), r, ?_, hr, Decidable.not_not.mp hport, ?_,
              Decidable.not_not.mp hres, hi.symm⟩
            · rw [← hrest, List.take_append_drop]
            · rw [List.length_take]; omega

/-- The decoder of a port reads commands of that port alone. -/
theorem decode_port {p : Port} {ws rest : List Word} {i : Instr} (h : decode p ws = .command i rest) : i.port = p := by
  obtain ⟨w, ds, r, -, hr, hp, -, -, rfl⟩ := decode_command h
  exact (opRow_make hr _ _).1.trans hp

end Sys2Proof
end

