-- ==== Sys2Proof/Laws/Reconstructor.lean ====
section
/-! SUPPORT. What the delivery of one packet can do to a reconstructor (42_reconstructor.md R240 to R253). -/

namespace Sys2Proof.Machine

/-! ### The start-code check -/

theorem streamPred_audio (ps : Params) (x : Byte) :
    streamPred ps .audio x = true ↔ 0xC0 ≤ x.toNat ∧ x.toNat ≤ 0xDF := by
  simp [streamPred, BitVec.le_def]

theorem streamPred_subtitle (ps : Params) (x : Byte) : streamPred ps .subtitle x = true ↔ x.toNat = 0xBD := by
  simp [streamPred, ← BitVec.toNat_inj]

theorem streamPred_video (ps : Params) (x : Byte) : streamPred ps .video x = true ↔ x ∈ ps.videoBytes := by
  simp [streamPred]

/-- `ValidStart` is what R253 says of a unit. -/
theorem validStart_iff (ps : Params) (t : StreamType) (b : List Byte) : validStart ps t b = true ↔ ValidUnit ps t b := by
  have hpred (x : Byte) : streamPred ps t x = true ↔
      match t with
      | .audio => 0xC0 ≤ x.toNat ∧ x.toNat ≤ 0xDF
      | .subtitle => x.toNat = 0xBD
      | .video => x ∈ ps.videoBytes := by
    cases t
    · exact streamPred_audio ps x
    · exact streamPred_subtitle ps x
    · exact streamPred_video ps x
  match b with
  | [] => simp [validStart, ValidUnit]
  | [_] => simp [validStart, ValidUnit]
  | [_, _] => simp [validStart, ValidUnit]
  | [_, _, _] => simp [validStart, ValidUnit]
  | b0 :: b1 :: b2 :: b3 :: rest =>
    simp only [validStart, ValidUnit, Bool.and_eq_true, decide_eq_true_eq, hpred]
    constructor
    · rintro ⟨⟨⟨rfl, rfl⟩, rfl⟩, h⟩
      exact ⟨b3, rest, rfl, h⟩
    · rintro ⟨x, r, h, hx⟩
      cases h
      exact ⟨⟨⟨rfl, rfl⟩, rfl⟩, hx⟩

theorem ValidUnit.four_le {ps : Params} {t : StreamType} {b : List Byte} (h : ValidUnit ps t b) : 4 ≤ b.length := by
  obtain ⟨x, rest, rfl, -⟩ := h
  simp

/-! ### Continuity -/

/-- A packet that passes the continuity check changes the continuity state alone. -/
theorem Recon.checkCC_frame {r r' : Recon} {cc : Cc} (h : r.checkCC cc = some r') :
    r' = { r with lastCc := some cc, loss := r'.loss } := by
  simp only [Recon.checkCC] at h
  split at h
  · cases h; rfl
  · split at h
    · cases h
    · split at h <;> cases h <;> rfl

/-! ### Capacity -/

/-- Every UNIT_CAP holds a payload (R246). -/
theorem Params.holds_payload (ps : Params) {n : Nat} (h : n ≤ 184) : Params.holds ps n = true := by
  unfold Params.holds Params.unitCap
  cases ps.capSlack with
  | none => rfl
  | some c => simp; omega

/-! ### Unit boundaries -/

/-- A boundary emits the accumulated bytes or nothing; it empties the buffer and touches the statistics alone. -/
theorem Recon.boundary_cases (r : Recon) (ps : Params) (t : StreamType) (pcr : Bool) :
    (validStart ps t r.buf = true ∧ (t = .subtitle → pcr = true) ∧
      r.boundary ps t pcr = ({ r.countUnit r.buf.length with buf := [] }, some r.buf)) ∨
    ((validStart ps t r.buf = false ∨ (t = .subtitle ∧ pcr = false)) ∧
      r.boundary ps t pcr = ({ r with buf := [] }, none)) := by
  unfold Recon.boundary Recon.emitUnit
  by_cases hv : validStart ps t r.buf = true
  · by_cases hp : t = .subtitle ∧ pcr = false
    · exact .inr ⟨.inr hp, by simp [hp]⟩
    · refine .inl ⟨hv, fun ht => ?_, by simp [hv, hp]⟩
      cases pcr
      · exact absurd ⟨ht, rfl⟩ hp
      · rfl
  · have hv' : validStart ps t r.buf = false := by simpa using hv
    exact .inr ⟨.inl hv', by simp [hv']⟩

/-! ### Delivery -/

/-- A delivery emits only the accumulated bytes, begun by a valid start code, and a SUBTITLE unit only once the PCR has been
seen. -/
theorem Recon.deliver_emits {r : Recon} {ps : Params} {t : StreamType} {pcr : Bool} {payload : List Byte} {pusi : Bool}
    {cc : Cc} {noinc : Bool} {b : List Byte} (h : (r.deliver ps t pcr payload pusi cc noinc).2 = some b) :
    b = r.buf ∧ ValidUnit ps t b ∧ (t = .subtitle → pcr = true) := by
  unfold Recon.deliver at h
  split at h
  · cases h
  · split at h
    · cases h
    · split at h
      · cases h
      · rename_i r' hc
        have hf := Recon.checkCC_frame hc
        have hb : r'.buf = r.buf := by rw [hf]
        unfold Recon.process Recon.startUnit at h
        split at h
        · simp only at h
          split at h
          · rcases Recon.boundary_cases r' ps t pcr with ⟨hv, hp, he⟩ | ⟨-, he⟩
            · rw [he] at h
              cases h
              exact ⟨hb, (validStart_iff ps t _).mp hv, hp⟩
            · rw [he] at h
              cases h
          · cases h
        · split at h <;> cases h

/-- The statistics of a unit of at least four bytes keep the least and the greatest length in order. -/
theorem Recon.countUnit_bounds {r : Recon} {n : Nat} (hn : 4 ≤ n)
    (h : match r.minUnit, r.maxUnit with
      | none, none => True
      | some m, some k => 4 ≤ m ∧ m ≤ k
      | none, some _ => False
      | some _, none => False) :
    match (r.countUnit n).minUnit, (r.countUnit n).maxUnit with
      | none, none => True
      | some m, some k => 4 ≤ m ∧ m ≤ k
      | none, some _ => False
      | some _, none => False := by
  unfold Recon.countUnit
  cases hmin : r.minUnit <;> cases hmax : r.maxUnit <;> simp_all

/-- A delivery keeps a reconstructor sound. -/
theorem Recon.deliver_sound {r : Recon} {ps : Params} (t : StreamType) (pcr : Bool) {payload : List Byte} (pusi : Bool)
    (cc : Cc) (noinc : Bool) (h : Recon.Sound ps r) (hp : payload.length ≤ 184) :
    Recon.Sound ps (r.deliver ps t pcr payload pusi cc noinc).1 := by
  unfold Recon.deliver
  split
  · exact h
  · rename_i hd
    split
    · exact h
    · split
      · exact h
      · rename_i r' hc
        have hf := Recon.checkCC_frame hc
        obtain ⟨h1, h2, h3, h4⟩ := h
        have hd' : r'.disposed = false := by rw [hf]; simpa using hd
        have hcol : r'.collecting = r.collecting := by rw [hf]
        have hbuf : r'.buf = r.buf := by rw [hf]
        have hmin : r'.minUnit = r.minUnit := by rw [hf]
        have hmax : r'.maxUnit = r.maxUnit := by rw [hf]
        unfold Recon.process
        split
        · unfold Recon.startUnit
          simp only
          split
          · rcases Recon.boundary_cases r' ps t pcr with ⟨hv, -, he⟩ | ⟨-, he⟩
            · rw [he]
              refine ⟨by simp, by simp [Recon.countUnit, hd'], Params.holds_payload ps hp, ?_⟩
              exact Recon.countUnit_bounds ((validStart_iff ps t _).mp hv).four_le (by rw [hmin, hmax]; exact h4)
            · rw [he]
              exact ⟨by simp, by simp [hd'], Params.holds_payload ps hp, by simp only [hmin, hmax]; exact h4⟩
          · exact ⟨by simp, by simp [hd'], Params.holds_payload ps hp, by simp only [hmin, hmax]; exact h4⟩
        · split
          · rename_i hcl
            unfold Recon.append
            split
            · rename_i hh
              exact ⟨by simp [hcl], by simp [hd'], by simpa using hh, by simp only [hmin, hmax]; exact h4⟩
            · exact ⟨by simp [Recon.dropUnit], by simp [Recon.dropUnit], Params.holds_payload ps (by simp [Recon.dropUnit]),
                by simp only [Recon.dropUnit, hmin, hmax]; exact h4⟩
          · exact ⟨by rw [hcol, hbuf]; exact h1, by simp [hd'], by rw [hbuf]; exact h3, by rw [hmin, hmax]; exact h4⟩

theorem Recon.fresh_sound (ps : Params) : Recon.Sound ps Recon.fresh :=
  ⟨fun _ => rfl, fun h => by simp [Recon.fresh] at h, Params.holds_payload ps (by simp [Recon.fresh]), by simp [Recon.fresh]⟩

/-- RESET_STREAM keeps a reconstructor sound. -/
theorem Recon.resetState_sound {r : Recon} {ps : Params} (h : Recon.Sound ps r) : Recon.Sound ps r.resetState :=
  ⟨fun _ => rfl, fun _ => rfl, Params.holds_payload ps (by simp [Recon.resetState]), h.2.2.2⟩

/-- DISPOSE_STREAM keeps a reconstructor sound. -/
theorem Recon.disposeState_sound {r : Recon} {ps : Params} (h : Recon.Sound ps r) : Recon.Sound ps r.disposeState :=
  ⟨fun _ => rfl, fun _ => rfl, Params.holds_payload ps (by simp [Recon.disposeState]), h.2.2.2⟩

end Sys2Proof.Machine
end

