-- ==== Sys2Proof/Laws/Registry.lean ====
section
/-! SUPPORT. The registry is a map by PID (10_state.md R38), and every operation on it keeps its canonical form. -/

namespace Sys2Proof.Machine

@[simp] theorem Registry.lookup_nil (p : Pid) : Registry.lookup p [] = none := rfl

theorem Registry.lookup_insert (r : Registry) (p q : Pid) (e : Entry) :
    Registry.lookup q (Registry.insert p e r) = if q = p then some e else Registry.lookup q r := by
  induction r with
  | nil => simp [Registry.insert, Registry.lookup]
  | cons x r ih =>
    obtain ⟨a, f⟩ := x
    by_cases h1 : p < a
    · simp [Registry.insert, Registry.lookup, h1]
    · by_cases h2 : p = a
      · subst h2
        by_cases hq : q = p <;> simp [Registry.insert, Registry.lookup, hq]
      · by_cases hq : q = a
        · simp [Registry.insert, Registry.lookup, h1, h2, hq]
          intro h
          exact absurd h.symm h2
        · simp [Registry.insert, Registry.lookup, h1, h2, hq, ih]

theorem Registry.mem_insert {r : Registry} {p : Pid} {e : Entry} {x : Pid × Entry}
    (h : x ∈ Registry.insert p e r) : x = (p, e) ∨ x ∈ r := by
  induction r with
  | nil => simpa [Registry.insert] using h
  | cons y r ih =>
    obtain ⟨a, f⟩ := y
    simp only [Registry.insert] at h
    split at h
    · simpa using h
    · split at h
      · rcases List.mem_cons.mp h with h | h
        · exact .inl h
        · exact .inr (List.mem_cons_of_mem _ h)
      · rcases List.mem_cons.mp h with h | h
        · exact .inr (h ▸ List.mem_cons_self)
        · exact (ih h).imp_right (List.mem_cons_of_mem _)

theorem Registry.mem_erase {r : Registry} {p : Pid} {x : Pid × Entry} (h : x ∈ Registry.erase p r) : x ∈ r := by
  induction r with
  | nil => exact h
  | cons y r ih =>
    obtain ⟨a, f⟩ := y
    simp only [Registry.erase] at h
    split at h
    · exact List.mem_cons_of_mem _ h
    · rcases List.mem_cons.mp h with h | h
      · exact h ▸ List.mem_cons_self
      · exact List.mem_cons_of_mem _ (ih h)

theorem Registry.mem_of_lookup {r : Registry} {p : Pid} {e : Entry} (h : Registry.lookup p r = some e) :
    (p, e) ∈ r := by
  induction r with
  | nil => simp at h
  | cons y r ih =>
    obtain ⟨a, f⟩ := y
    simp only [Registry.lookup] at h
    split at h
    · rename_i hp
      cases h
      exact hp ▸ List.mem_cons_self
    · exact List.mem_cons_of_mem _ (ih h)

/-- Installing an entry keeps the canonical form. -/
theorem Registry.insert_wf {r : Registry} (h : Registry.Wf r) (p : Pid) (e : Entry) :
    Registry.Wf (Registry.insert p e r) := by
  induction r with
  | nil => simp [Registry.insert, Registry.Wf]
  | cons x r ih =>
    obtain ⟨a, f⟩ := x
    have ⟨hx, hr⟩ := List.pairwise_cons.mp h
    simp only [Registry.insert]
    split
    · rename_i hlt
      refine List.pairwise_cons.mpr ⟨fun y hy => ?_, h⟩
      rcases List.mem_cons.mp hy with hy | hy
      · exact hy ▸ hlt
      · exact BitVec.lt_trans hlt (hx y hy)
    · split
      · rename_i heq
        exact List.pairwise_cons.mpr ⟨fun y hy => heq ▸ hx y hy, hr⟩
      · rename_i hlt hne
        refine List.pairwise_cons.mpr ⟨fun y hy => ?_, ih hr⟩
        rcases Registry.mem_insert hy with hy | hy
        · subst hy
          show a < p
          simp only [BitVec.lt_def] at hlt ⊢
          have : p.toNat ≠ a.toNat := fun hh => hne (BitVec.eq_of_toNat_eq hh)
          omega
        · exact hx y hy

/-- Removing an entry keeps the canonical form. -/
theorem Registry.erase_wf {r : Registry} (h : Registry.Wf r) (p : Pid) : Registry.Wf (Registry.erase p r) := by
  induction r with
  | nil => exact h
  | cons x r ih =>
    obtain ⟨a, f⟩ := x
    have ⟨hx, hr⟩ := List.pairwise_cons.mp h
    simp only [Registry.erase]
    split
    · exact hr
    · exact List.pairwise_cons.mpr ⟨fun y hy => hx y (Registry.mem_erase hy), ih hr⟩

theorem Registry.lookup_none_of_lt {r : Registry} {p : Pid} (h : ∀ y ∈ r, p < y.1) : Registry.lookup p r = none := by
  induction r with
  | nil => rfl
  | cons x r ih =>
    obtain ⟨a, f⟩ := x
    have hpa : p ≠ a := fun hh => by
      have := h _ List.mem_cons_self
      simp [hh] at this
    simp only [Registry.lookup, if_neg hpa]
    exact ih fun y hy => h y (List.mem_cons_of_mem _ hy)

theorem Registry.lookup_erase {r : Registry} (h : Registry.Wf r) (p q : Pid) :
    Registry.lookup q (Registry.erase p r) = if q = p then none else Registry.lookup q r := by
  induction r with
  | nil => simp [Registry.erase]
  | cons x r ih =>
    obtain ⟨a, f⟩ := x
    have ⟨hx, hr⟩ := List.pairwise_cons.mp h
    by_cases hp : p = a
    · subst hp
      by_cases hq : q = p
      · subst hq
        simpa [Registry.erase] using Registry.lookup_none_of_lt hx
      · simp [Registry.erase, Registry.lookup, hq]
    · by_cases hq : q = a
      · subst hq
        simp [Registry.erase, Registry.lookup, hp, Ne.symm hp]
      · simp [Registry.erase, Registry.lookup, hp, hq, ih hr]

/-- Removing the entry of a PID that has none changes nothing. -/
theorem Registry.erase_of_lookup_none {r : Registry} {p : Pid} (h : Registry.lookup p r = none) :
    Registry.erase p r = r := by
  induction r with
  | nil => rfl
  | cons x r ih =>
    obtain ⟨a, f⟩ := x
    simp only [Registry.lookup] at h
    split at h
    · cases h
    · rename_i hp
      simp [Registry.erase, hp, ih h]

/-- In the canonical form an entry of the list is what its PID reads. -/
theorem Registry.lookup_of_mem {r : Registry} (h : Registry.Wf r) {p : Pid} {e : Entry} (hm : (p, e) ∈ r) :
    Registry.lookup p r = some e := by
  induction r with
  | nil => cases hm
  | cons x r ih =>
    obtain ⟨a, f⟩ := x
    have ⟨hx, hr⟩ := List.pairwise_cons.mp h
    rcases List.mem_cons.mp hm with hm | hm
    · cases hm
      simp [Registry.lookup]
    · have hlt : a < p := hx _ hm
      have hne : p ≠ a := fun hh => by simp [hh] at hlt
      simp [Registry.lookup, hne, ih hr hm]

end Sys2Proof.Machine
end

