-- ==== Sys2Proof/Laws/State.lean ====
section
/-! SUPPORT. The fields of the state after each named update, one lemma a field, and the queues read and written. -/

namespace Sys2Proof.Machine

/-! ### Queues -/

@[simp] theorem Lanes.get_set_self (l : Lanes) (p : Port) (ws : List Word) : (l.set p ws).get p = ws := by
  cases p <;> rfl

theorem Lanes.get_set_other (l : Lanes) (p q : Port) (ws : List Word) (h : q ≠ p) :
    (l.set p ws).get q = l.get q := by
  cases p <;> cases q <;> first | rfl | exact absurd rfl h

@[simp] theorem Lanes.set_set (l : Lanes) (p : Port) (ws vs : List Word) : (l.set p ws).set p vs = l.set p vs := by
  cases p <;> rfl

@[simp] theorem Lanes.set_get_self (l : Lanes) (p : Port) : l.set p (l.get p) = l := by
  cases p <;> rfl

theorem Lanes.set_comm (l : Lanes) (p q : Port) (ws vs : List Word) (h : p ≠ q) :
    (l.set p ws).set q vs = (l.set q vs).set p ws := by
  cases p <;> cases q <;> first | rfl | exact absurd rfl h

/-! ### State.setCmd -/

@[simp] theorem State.setCmd_cmd (s : State) (p : Port) (ws : List Word) : (s.setCmd p ws).cmd = s.cmd.set p ws := rfl
@[simp] theorem State.setCmd_rsp (s : State) (p : Port) (ws : List Word) : (s.setCmd p ws).rsp = s.rsp := rfl
@[simp] theorem State.setCmd_out (s : State) (p : Port) (ws : List Word) : (s.setCmd p ws).out = s.out := rfl
@[simp] theorem State.setCmd_carry (s : State) (p : Port) (ws : List Word) : (s.setCmd p ws).carry = s.carry := rfl
@[simp] theorem State.setCmd_sync (s : State) (p : Port) (ws : List Word) : (s.setCmd p ws).sync = s.sync := rfl
@[simp] theorem State.setCmd_disposed (s : State) (p : Port) (ws : List Word) :
    (s.setCmd p ws).disposed = s.disposed := rfl
@[simp] theorem State.setCmd_pktCount (s : State) (p : Port) (ws : List Word) :
    (s.setCmd p ws).pktCount = s.pktCount := rfl
@[simp] theorem State.setCmd_skipBytes (s : State) (p : Port) (ws : List Word) :
    (s.setCmd p ws).skipBytes = s.skipBytes := rfl
@[simp] theorem State.setCmd_resyncCount (s : State) (p : Port) (ws : List Word) :
    (s.setCmd p ws).resyncCount = s.resyncCount := rfl
@[simp] theorem State.setCmd_unroutedCount (s : State) (p : Port) (ws : List Word) :
    (s.setCmd p ws).unroutedCount = s.unroutedCount := rfl
@[simp] theorem State.setCmd_pcrSeen (s : State) (p : Port) (ws : List Word) :
    (s.setCmd p ws).pcrSeen = s.pcrSeen := rfl
@[simp] theorem State.setCmd_reg (s : State) (p : Port) (ws : List Word) : (s.setCmd p ws).reg = s.reg := rfl
@[simp] theorem State.setCmd_epochNext (s : State) (p : Port) (ws : List Word) :
    (s.setCmd p ws).epochNext = s.epochNext := rfl
@[simp] theorem State.setCmd_sb (s : State) (p : Port) (ws : List Word) : (s.setCmd p ws).sb = s.sb := rfl
@[simp] theorem State.setCmd_pb (s : State) (p : Port) (ws : List Word) : (s.setCmd p ws).pb = s.pb := rfl
@[simp] theorem State.setCmd_pumping (s : State) (p : Port) (ws : List Word) :
    (s.setCmd p ws).pumping = s.pumping := rfl
@[simp] theorem State.setCmd_params (s : State) (p : Port) (ws : List Word) : (s.setCmd p ws).params = s.params := rfl
@[simp] theorem State.setCmd_schedule (s : State) (p : Port) (ws : List Word) :
    (s.setCmd p ws).schedule = s.schedule := rfl
@[simp] theorem State.setCmd_picks (s : State) (p : Port) (ws : List Word) : (s.setCmd p ws).picks = s.picks := rfl

/-! ### State.post -/

@[simp] theorem State.post_cmd (s : State) (p : Port) (ws : List Word) : (s.post p ws).cmd = s.cmd := rfl
@[simp] theorem State.post_rsp (s : State) (p : Port) (ws : List Word) :
    (s.post p ws).rsp = s.rsp.set p (s.rsp.get p ++ ws) := rfl
@[simp] theorem State.post_out (s : State) (p : Port) (ws : List Word) : (s.post p ws).out = s.out := rfl
@[simp] theorem State.post_carry (s : State) (p : Port) (ws : List Word) : (s.post p ws).carry = s.carry := rfl
@[simp] theorem State.post_sync (s : State) (p : Port) (ws : List Word) : (s.post p ws).sync = s.sync := rfl
@[simp] theorem State.post_disposed (s : State) (p : Port) (ws : List Word) :
    (s.post p ws).disposed = s.disposed := rfl
@[simp] theorem State.post_pktCount (s : State) (p : Port) (ws : List Word) :
    (s.post p ws).pktCount = s.pktCount := rfl
@[simp] theorem State.post_skipBytes (s : State) (p : Port) (ws : List Word) :
    (s.post p ws).skipBytes = s.skipBytes := rfl
@[simp] theorem State.post_resyncCount (s : State) (p : Port) (ws : List Word) :
    (s.post p ws).resyncCount = s.resyncCount := rfl
@[simp] theorem State.post_unroutedCount (s : State) (p : Port) (ws : List Word) :
    (s.post p ws).unroutedCount = s.unroutedCount := rfl
@[simp] theorem State.post_pcrSeen (s : State) (p : Port) (ws : List Word) : (s.post p ws).pcrSeen = s.pcrSeen := rfl
@[simp] theorem State.post_reg (s : State) (p : Port) (ws : List Word) : (s.post p ws).reg = s.reg := rfl
@[simp] theorem State.post_epochNext (s : State) (p : Port) (ws : List Word) :
    (s.post p ws).epochNext = s.epochNext := rfl
@[simp] theorem State.post_sb (s : State) (p : Port) (ws : List Word) : (s.post p ws).sb = s.sb := rfl
@[simp] theorem State.post_pb (s : State) (p : Port) (ws : List Word) : (s.post p ws).pb = s.pb := rfl
@[simp] theorem State.post_pumping (s : State) (p : Port) (ws : List Word) : (s.post p ws).pumping = s.pumping := rfl
@[simp] theorem State.post_params (s : State) (p : Port) (ws : List Word) : (s.post p ws).params = s.params := rfl
@[simp] theorem State.post_schedule (s : State) (p : Port) (ws : List Word) :
    (s.post p ws).schedule = s.schedule := rfl
@[simp] theorem State.post_picks (s : State) (p : Port) (ws : List Word) : (s.post p ws).picks = s.picks := rfl

/-! ### State.emit -/

@[simp] theorem State.emit_cmd (s : State) (e : Event) : (s.emit e).cmd = s.cmd := rfl
@[simp] theorem State.emit_rsp (s : State) (e : Event) : (s.emit e).rsp = s.rsp := rfl
@[simp] theorem State.emit_out (s : State) (e : Event) : (s.emit e).out = s.out ++ [e] := rfl
@[simp] theorem State.emit_carry (s : State) (e : Event) : (s.emit e).carry = s.carry := rfl
@[simp] theorem State.emit_sync (s : State) (e : Event) : (s.emit e).sync = s.sync := rfl
@[simp] theorem State.emit_disposed (s : State) (e : Event) : (s.emit e).disposed = s.disposed := rfl
@[simp] theorem State.emit_pktCount (s : State) (e : Event) : (s.emit e).pktCount = s.pktCount := rfl
@[simp] theorem State.emit_skipBytes (s : State) (e : Event) : (s.emit e).skipBytes = s.skipBytes := rfl
@[simp] theorem State.emit_resyncCount (s : State) (e : Event) : (s.emit e).resyncCount = s.resyncCount := rfl
@[simp] theorem State.emit_unroutedCount (s : State) (e : Event) : (s.emit e).unroutedCount = s.unroutedCount := rfl
@[simp] theorem State.emit_pcrSeen (s : State) (e : Event) : (s.emit e).pcrSeen = s.pcrSeen := rfl
@[simp] theorem State.emit_reg (s : State) (e : Event) : (s.emit e).reg = s.reg := rfl
@[simp] theorem State.emit_epochNext (s : State) (e : Event) : (s.emit e).epochNext = s.epochNext := rfl
@[simp] theorem State.emit_sb (s : State) (e : Event) : (s.emit e).sb = s.sb := rfl
@[simp] theorem State.emit_pb (s : State) (e : Event) : (s.emit e).pb = s.pb := rfl
@[simp] theorem State.emit_pumping (s : State) (e : Event) : (s.emit e).pumping = s.pumping := rfl
@[simp] theorem State.emit_params (s : State) (e : Event) : (s.emit e).params = s.params := rfl
@[simp] theorem State.emit_schedule (s : State) (e : Event) : (s.emit e).schedule = s.schedule := rfl
@[simp] theorem State.emit_picks (s : State) (e : Event) : (s.emit e).picks = s.picks := rfl

/-! ### State.respond -/

@[simp] theorem State.respond_cmd (s : State) (p : Port) (op : BitVec 8) (st : Status) (v : BitVec 16) :
    (s.respond p op st v).cmd = s.cmd := rfl
@[simp] theorem State.respond_rsp (s : State) (p : Port) (op : BitVec 8) (st : Status) (v : BitVec 16) :
    (s.respond p op st v).rsp = s.rsp.set p (s.rsp.get p ++ [responseWord op st v]) := rfl
@[simp] theorem State.respond_out (s : State) (p : Port) (op : BitVec 8) (st : Status) (v : BitVec 16) :
    (s.respond p op st v).out = s.out := rfl
@[simp] theorem State.respond_carry (s : State) (p : Port) (op : BitVec 8) (st : Status) (v : BitVec 16) :
    (s.respond p op st v).carry = s.carry := rfl
@[simp] theorem State.respond_sync (s : State) (p : Port) (op : BitVec 8) (st : Status) (v : BitVec 16) :
    (s.respond p op st v).sync = s.sync := rfl
@[simp] theorem State.respond_disposed (s : State) (p : Port) (op : BitVec 8) (st : Status) (v : BitVec 16) :
    (s.respond p op st v).disposed = s.disposed := rfl
@[simp] theorem State.respond_pktCount (s : State) (p : Port) (op : BitVec 8) (st : Status) (v : BitVec 16) :
    (s.respond p op st v).pktCount = s.pktCount := rfl
@[simp] theorem State.respond_skipBytes (s : State) (p : Port) (op : BitVec 8) (st : Status) (v : BitVec 16) :
    (s.respond p op st v).skipBytes = s.skipBytes := rfl
@[simp] theorem State.respond_resyncCount (s : State) (p : Port) (op : BitVec 8) (st : Status) (v : BitVec 16) :
    (s.respond p op st v).resyncCount = s.resyncCount := rfl
@[simp] theorem State.respond_unroutedCount (s : State) (p : Port) (op : BitVec 8) (st : Status) (v : BitVec 16) :
    (s.respond p op st v).unroutedCount = s.unroutedCount := rfl
@[simp] theorem State.respond_pcrSeen (s : State) (p : Port) (op : BitVec 8) (st : Status) (v : BitVec 16) :
    (s.respond p op st v).pcrSeen = s.pcrSeen := rfl
@[simp] theorem State.respond_reg (s : State) (p : Port) (op : BitVec 8) (st : Status) (v : BitVec 16) :
    (s.respond p op st v).reg = s.reg := rfl
@[simp] theorem State.respond_epochNext (s : State) (p : Port) (op : BitVec 8) (st : Status) (v : BitVec 16) :
    (s.respond p op st v).epochNext = s.epochNext := rfl
@[simp] theorem State.respond_sb (s : State) (p : Port) (op : BitVec 8) (st : Status) (v : BitVec 16) :
    (s.respond p op st v).sb = s.sb := rfl
@[simp] theorem State.respond_pb (s : State) (p : Port) (op : BitVec 8) (st : Status) (v : BitVec 16) :
    (s.respond p op st v).pb = s.pb := rfl
@[simp] theorem State.respond_pumping (s : State) (p : Port) (op : BitVec 8) (st : Status) (v : BitVec 16) :
    (s.respond p op st v).pumping = s.pumping := rfl
@[simp] theorem State.respond_params (s : State) (p : Port) (op : BitVec 8) (st : Status) (v : BitVec 16) :
    (s.respond p op st v).params = s.params := rfl
@[simp] theorem State.respond_schedule (s : State) (p : Port) (op : BitVec 8) (st : Status) (v : BitVec 16) :
    (s.respond p op st v).schedule = s.schedule := rfl
@[simp] theorem State.respond_picks (s : State) (p : Port) (op : BitVec 8) (st : Status) (v : BitVec 16) :
    (s.respond p op st v).picks = s.picks := rfl

/-! ### State.install -/

@[simp] theorem State.install_cmd (s : State) (p : Pid) (e : Entry) : (s.install p e).cmd = s.cmd := rfl
@[simp] theorem State.install_rsp (s : State) (p : Pid) (e : Entry) : (s.install p e).rsp = s.rsp := rfl
@[simp] theorem State.install_out (s : State) (p : Pid) (e : Entry) : (s.install p e).out = s.out := rfl
@[simp] theorem State.install_carry (s : State) (p : Pid) (e : Entry) : (s.install p e).carry = s.carry := rfl
@[simp] theorem State.install_sync (s : State) (p : Pid) (e : Entry) : (s.install p e).sync = s.sync := rfl
@[simp] theorem State.install_disposed (s : State) (p : Pid) (e : Entry) :
    (s.install p e).disposed = s.disposed := rfl
@[simp] theorem State.install_pktCount (s : State) (p : Pid) (e : Entry) :
    (s.install p e).pktCount = s.pktCount := rfl
@[simp] theorem State.install_skipBytes (s : State) (p : Pid) (e : Entry) :
    (s.install p e).skipBytes = s.skipBytes := rfl
@[simp] theorem State.install_resyncCount (s : State) (p : Pid) (e : Entry) :
    (s.install p e).resyncCount = s.resyncCount := rfl
@[simp] theorem State.install_unroutedCount (s : State) (p : Pid) (e : Entry) :
    (s.install p e).unroutedCount = s.unroutedCount := rfl
@[simp] theorem State.install_pcrSeen (s : State) (p : Pid) (e : Entry) : (s.install p e).pcrSeen = s.pcrSeen := rfl
@[simp] theorem State.install_reg (s : State) (p : Pid) (e : Entry) :
    (s.install p e).reg = Registry.insert p e s.reg := rfl
@[simp] theorem State.install_epochNext (s : State) (p : Pid) (e : Entry) :
    (s.install p e).epochNext = s.epochNext := rfl
@[simp] theorem State.install_sb (s : State) (p : Pid) (e : Entry) : (s.install p e).sb = s.sb := rfl
@[simp] theorem State.install_pb (s : State) (p : Pid) (e : Entry) : (s.install p e).pb = s.pb := rfl
@[simp] theorem State.install_pumping (s : State) (p : Pid) (e : Entry) : (s.install p e).pumping = s.pumping := rfl
@[simp] theorem State.install_params (s : State) (p : Pid) (e : Entry) : (s.install p e).params = s.params := rfl
@[simp] theorem State.install_schedule (s : State) (p : Pid) (e : Entry) :
    (s.install p e).schedule = s.schedule := rfl
@[simp] theorem State.install_picks (s : State) (p : Pid) (e : Entry) : (s.install p e).picks = s.picks := rfl

/-! ### State.uninstall -/

@[simp] theorem State.uninstall_cmd (s : State) (p : Pid) : (s.uninstall p).cmd = s.cmd := rfl
@[simp] theorem State.uninstall_rsp (s : State) (p : Pid) : (s.uninstall p).rsp = s.rsp := rfl
@[simp] theorem State.uninstall_out (s : State) (p : Pid) : (s.uninstall p).out = s.out := rfl
@[simp] theorem State.uninstall_carry (s : State) (p : Pid) : (s.uninstall p).carry = s.carry := rfl
@[simp] theorem State.uninstall_sync (s : State) (p : Pid) : (s.uninstall p).sync = s.sync := rfl
@[simp] theorem State.uninstall_disposed (s : State) (p : Pid) : (s.uninstall p).disposed = s.disposed := rfl
@[simp] theorem State.uninstall_pktCount (s : State) (p : Pid) : (s.uninstall p).pktCount = s.pktCount := rfl
@[simp] theorem State.uninstall_skipBytes (s : State) (p : Pid) : (s.uninstall p).skipBytes = s.skipBytes := rfl
@[simp] theorem State.uninstall_resyncCount (s : State) (p : Pid) : (s.uninstall p).resyncCount = s.resyncCount := rfl
@[simp] theorem State.uninstall_unroutedCount (s : State) (p : Pid) :
    (s.uninstall p).unroutedCount = s.unroutedCount := rfl
@[simp] theorem State.uninstall_pcrSeen (s : State) (p : Pid) : (s.uninstall p).pcrSeen = s.pcrSeen := rfl
@[simp] theorem State.uninstall_reg (s : State) (p : Pid) : (s.uninstall p).reg = Registry.erase p s.reg := rfl
@[simp] theorem State.uninstall_epochNext (s : State) (p : Pid) : (s.uninstall p).epochNext = s.epochNext := rfl
@[simp] theorem State.uninstall_sb (s : State) (p : Pid) : (s.uninstall p).sb = s.sb := rfl
@[simp] theorem State.uninstall_pb (s : State) (p : Pid) : (s.uninstall p).pb = s.pb := rfl
@[simp] theorem State.uninstall_pumping (s : State) (p : Pid) : (s.uninstall p).pumping = s.pumping := rfl
@[simp] theorem State.uninstall_params (s : State) (p : Pid) : (s.uninstall p).params = s.params := rfl
@[simp] theorem State.uninstall_schedule (s : State) (p : Pid) : (s.uninstall p).schedule = s.schedule := rfl
@[simp] theorem State.uninstall_picks (s : State) (p : Pid) : (s.uninstall p).picks = s.picks := rfl

/-! ### State.setRecon -/

@[simp] theorem State.setRecon_cmd (s : State) (p : Pid) (e : Entry) (t : StreamType) (r : Recon) :
    (s.setRecon p e t r).cmd = s.cmd := rfl
@[simp] theorem State.setRecon_rsp (s : State) (p : Pid) (e : Entry) (t : StreamType) (r : Recon) :
    (s.setRecon p e t r).rsp = s.rsp := rfl
@[simp] theorem State.setRecon_out (s : State) (p : Pid) (e : Entry) (t : StreamType) (r : Recon) :
    (s.setRecon p e t r).out = s.out := rfl
@[simp] theorem State.setRecon_carry (s : State) (p : Pid) (e : Entry) (t : StreamType) (r : Recon) :
    (s.setRecon p e t r).carry = s.carry := rfl
@[simp] theorem State.setRecon_sync (s : State) (p : Pid) (e : Entry) (t : StreamType) (r : Recon) :
    (s.setRecon p e t r).sync = s.sync := rfl
@[simp] theorem State.setRecon_disposed (s : State) (p : Pid) (e : Entry) (t : StreamType) (r : Recon) :
    (s.setRecon p e t r).disposed = s.disposed := rfl
@[simp] theorem State.setRecon_pktCount (s : State) (p : Pid) (e : Entry) (t : StreamType) (r : Recon) :
    (s.setRecon p e t r).pktCount = s.pktCount := rfl
@[simp] theorem State.setRecon_skipBytes (s : State) (p : Pid) (e : Entry) (t : StreamType) (r : Recon) :
    (s.setRecon p e t r).skipBytes = s.skipBytes := rfl
@[simp] theorem State.setRecon_resyncCount (s : State) (p : Pid) (e : Entry) (t : StreamType) (r : Recon) :
    (s.setRecon p e t r).resyncCount = s.resyncCount := rfl
@[simp] theorem State.setRecon_unroutedCount (s : State) (p : Pid) (e : Entry) (t : StreamType) (r : Recon) :
    (s.setRecon p e t r).unroutedCount = s.unroutedCount := rfl
@[simp] theorem State.setRecon_pcrSeen (s : State) (p : Pid) (e : Entry) (t : StreamType) (r : Recon) :
    (s.setRecon p e t r).pcrSeen = s.pcrSeen := rfl
@[simp] theorem State.setRecon_reg (s : State) (p : Pid) (e : Entry) (t : StreamType) (r : Recon) :
    (s.setRecon p e t r).reg = Registry.insert p { e with consumer := .stream t r } s.reg := rfl
@[simp] theorem State.setRecon_epochNext (s : State) (p : Pid) (e : Entry) (t : StreamType) (r : Recon) :
    (s.setRecon p e t r).epochNext = s.epochNext := rfl
@[simp] theorem State.setRecon_sb (s : State) (p : Pid) (e : Entry) (t : StreamType) (r : Recon) :
    (s.setRecon p e t r).sb = s.sb := rfl
@[simp] theorem State.setRecon_pb (s : State) (p : Pid) (e : Entry) (t : StreamType) (r : Recon) :
    (s.setRecon p e t r).pb = s.pb := rfl
@[simp] theorem State.setRecon_pumping (s : State) (p : Pid) (e : Entry) (t : StreamType) (r : Recon) :
    (s.setRecon p e t r).pumping = s.pumping := rfl
@[simp] theorem State.setRecon_params (s : State) (p : Pid) (e : Entry) (t : StreamType) (r : Recon) :
    (s.setRecon p e t r).params = s.params := rfl
@[simp] theorem State.setRecon_schedule (s : State) (p : Pid) (e : Entry) (t : StreamType) (r : Recon) :
    (s.setRecon p e t r).schedule = s.schedule := rfl
@[simp] theorem State.setRecon_picks (s : State) (p : Pid) (e : Entry) (t : StreamType) (r : Recon) :
    (s.setRecon p e t r).picks = s.picks := rfl

/-! ### State.skipByte -/

@[simp] theorem State.skipByte_cmd (s : State) : (s.skipByte).cmd = s.cmd := rfl
@[simp] theorem State.skipByte_rsp (s : State) : (s.skipByte).rsp = s.rsp := rfl
@[simp] theorem State.skipByte_out (s : State) : (s.skipByte).out = s.out := rfl
@[simp] theorem State.skipByte_carry (s : State) : (s.skipByte).carry = s.carry.tail := rfl
@[simp] theorem State.skipByte_sync (s : State) : (s.skipByte).sync = s.sync := rfl
@[simp] theorem State.skipByte_disposed (s : State) : (s.skipByte).disposed = s.disposed := rfl
@[simp] theorem State.skipByte_pktCount (s : State) : (s.skipByte).pktCount = s.pktCount := rfl
@[simp] theorem State.skipByte_skipBytes (s : State) : (s.skipByte).skipBytes = s.skipBytes + 1 := rfl
@[simp] theorem State.skipByte_resyncCount (s : State) : (s.skipByte).resyncCount = s.resyncCount := rfl
@[simp] theorem State.skipByte_unroutedCount (s : State) : (s.skipByte).unroutedCount = s.unroutedCount := rfl
@[simp] theorem State.skipByte_pcrSeen (s : State) : (s.skipByte).pcrSeen = s.pcrSeen := rfl
@[simp] theorem State.skipByte_reg (s : State) : (s.skipByte).reg = s.reg := rfl
@[simp] theorem State.skipByte_epochNext (s : State) : (s.skipByte).epochNext = s.epochNext := rfl
@[simp] theorem State.skipByte_sb (s : State) : (s.skipByte).sb = s.sb := rfl
@[simp] theorem State.skipByte_pb (s : State) : (s.skipByte).pb = s.pb := rfl
@[simp] theorem State.skipByte_pumping (s : State) : (s.skipByte).pumping = s.pumping := rfl
@[simp] theorem State.skipByte_params (s : State) : (s.skipByte).params = s.params := rfl
@[simp] theorem State.skipByte_schedule (s : State) : (s.skipByte).schedule = s.schedule := rfl
@[simp] theorem State.skipByte_picks (s : State) : (s.skipByte).picks = s.picks := rfl

/-! ### State.feed -/

@[simp] theorem State.feed_cmd (s : State) (data : List Byte) : (s.feed data).cmd = s.cmd := rfl
@[simp] theorem State.feed_rsp (s : State) (data : List Byte) : (s.feed data).rsp = s.rsp := rfl
@[simp] theorem State.feed_out (s : State) (data : List Byte) : (s.feed data).out = s.out := rfl
@[simp] theorem State.feed_carry (s : State) (data : List Byte) : (s.feed data).carry = s.carry ++ data := rfl
@[simp] theorem State.feed_sync (s : State) (data : List Byte) : (s.feed data).sync = s.sync := rfl
@[simp] theorem State.feed_disposed (s : State) (data : List Byte) : (s.feed data).disposed = s.disposed := rfl
@[simp] theorem State.feed_pktCount (s : State) (data : List Byte) : (s.feed data).pktCount = s.pktCount := rfl
@[simp] theorem State.feed_skipBytes (s : State) (data : List Byte) : (s.feed data).skipBytes = s.skipBytes := rfl
@[simp] theorem State.feed_resyncCount (s : State) (data : List Byte) :
    (s.feed data).resyncCount = s.resyncCount := rfl
@[simp] theorem State.feed_unroutedCount (s : State) (data : List Byte) :
    (s.feed data).unroutedCount = s.unroutedCount := rfl
@[simp] theorem State.feed_pcrSeen (s : State) (data : List Byte) : (s.feed data).pcrSeen = s.pcrSeen := rfl
@[simp] theorem State.feed_reg (s : State) (data : List Byte) : (s.feed data).reg = s.reg := rfl
@[simp] theorem State.feed_epochNext (s : State) (data : List Byte) : (s.feed data).epochNext = s.epochNext := rfl
@[simp] theorem State.feed_sb (s : State) (data : List Byte) : (s.feed data).sb = s.sb := rfl
@[simp] theorem State.feed_pb (s : State) (data : List Byte) : (s.feed data).pb = s.pb := rfl
@[simp] theorem State.feed_pumping (s : State) (data : List Byte) : (s.feed data).pumping = s.pumping := rfl
@[simp] theorem State.feed_params (s : State) (data : List Byte) : (s.feed data).params = s.params := rfl
@[simp] theorem State.feed_schedule (s : State) (data : List Byte) : (s.feed data).schedule = s.schedule := rfl
@[simp] theorem State.feed_picks (s : State) (data : List Byte) : (s.feed data).picks = s.picks := rfl

/-! ### Posting twice -/

/-- Two posts on one port are one post of both. -/
@[simp] theorem State.post_post (s : State) (p : Port) (ws vs : List Word) :
    (s.post p ws).post p vs = s.post p (ws ++ vs) := by
  cases p <;> simp [State.post, Lanes.set, Lanes.get, List.append_assoc]

/-- A response is a post of its word. -/
theorem State.respond_eq (s : State) (p : Port) (op : BitVec 8) (st : Status) (v : BitVec 16) :
    s.respond p op st v = s.post p [responseWord op st v] := rfl

end Sys2Proof.Machine
end

