-- ==== Sys2Proof/Laws/Pump.lean ====
section
/-! SUPPORT. What one packet and one pump step can do to the state (40_demux.md R152 to R158). -/

namespace Sys2Proof.Machine

/-! ### Packets -/

/-- A payload has at most 184 bytes (R74, R156). -/
theorem extractPayload_length {pkt : List Byte} (afc : BitVec 2) (h : pkt.length ≤ 188) :
    (extractPayload pkt afc).1.length ≤ 184 := by
  unfold extractPayload
  split
  · simp; omega
  · simp only
    split
    · simp; omega
    · simp
  · simp

/-- What routing can do: count the packet as unrouted, append one RAW or SECT event, or write back one reconstructor and
append the unit it emits, if any. -/
theorem State.route_cases (s : State) (pid : Pid) (payload : List Byte) (pusi : Bool) (cc : Cc) (noinc : Bool) :
    s.route pid payload pusi cc noinc = { s with unroutedCount := s.unroutedCount + 1 } ∨
    (∃ e, Registry.lookup pid s.reg = some e ∧
      s.route pid payload pusi cc noinc = s.emit (.raw pid e.epoch payload pusi cc noinc)) ∨
    (∃ e, Registry.lookup pid s.reg = some e ∧
      s.route pid payload pusi cc noinc = s.emit (.sect pid e.epoch payload pusi cc noinc)) ∨
    (∃ e t r, Registry.lookup pid s.reg = some e ∧ e.consumer = .stream t r ∧
      s.route pid payload pusi cc noinc =
        s.delivered pid e t (r.deliver s.params t s.pcrSeen payload pusi cc noinc)) := by
  unfold State.route
  split
  · exact .inl rfl
  · split
    · exact .inl rfl
    · rename_i e he
      split
      · exact .inr (.inl ⟨e, he, rfl⟩)
      · exact .inr (.inr (.inl ⟨e, he, rfl⟩))
      · rename_i t r hc
        exact .inr (.inr (.inr ⟨e, t, r, he, hc, rfl⟩))

/-- What writing back a delivery can do. -/
theorem State.delivered_cases (s : State) (pid : Pid) (e : Entry) (t : StreamType) (d : Recon × Option (List Byte)) :
    (d.2 = none ∧ s.delivered pid e t d = s.setRecon pid e t d.1) ∨
    (∃ b, d.2 = some b ∧ s.delivered pid e t d = (s.setRecon pid e t d.1).emit (.unit pid e.epoch b)) := by
  unfold State.delivered
  split
  · exact .inl ⟨by assumption, rfl⟩
  · exact .inr ⟨_, by assumption, rfl⟩

/-- Routing touches the unrouted count, the registry and OUT alone. -/
theorem State.route_frame (s : State) (pid : Pid) (payload : List Byte) (pusi : Bool) (cc : Cc) (noinc : Bool) :
    s.route pid payload pusi cc noinc =
      { s with
        unroutedCount := (s.route pid payload pusi cc noinc).unroutedCount
        reg := (s.route pid payload pusi cc noinc).reg
        out := (s.route pid payload pusi cc noinc).out } := by
  rcases State.route_cases s pid payload pusi cc noinc with h | ⟨e, -, h⟩ | ⟨e, -, h⟩ | ⟨e, t, r, -, -, h⟩
  · rw [h]
  · rw [h]; rfl
  · rw [h]; rfl
  · rw [h]
    rcases State.delivered_cases s pid e t (r.deliver s.params t s.pcrSeen payload pusi cc noinc) with ⟨-, h⟩ | ⟨b, -, h⟩
    · rw [h]; rfl
    · rw [h]; rfl

/-- Routing does not read or write the carry buffer. -/
theorem State.route_carry (s : State) (c : List Byte) (pid : Pid) (payload : List Byte) (pusi : Bool) (cc : Cc)
    (noinc : Bool) :
    State.route { s with carry := c } pid payload pusi cc noinc =
      { s.route pid payload pusi cc noinc with carry := c } := by
  by_cases hp : pid = nullPid
  · simp [State.route, hp]
  · cases hl : Registry.lookup pid s.reg with
    | none => simp [State.route, hp, hl]
    | some e =>
      cases hc : e.consumer with
      | raw => simp [State.route, hp, hl, hc, State.emit]
      | sect => simp [State.route, hp, hl, hc, State.emit]
      | stream t r =>
        cases hd : (r.deliver s.params t s.pcrSeen payload pusi cc noinc).2 with
        | none => simp [State.route, hp, hl, hc, State.delivered, hd, State.setRecon, State.install]
        | some b => simp [State.route, hp, hl, hc, State.delivered, hd, State.setRecon, State.install, State.emit]

/-- Processing a packet does not read or write the carry buffer. -/
theorem State.processPacket_carry (s : State) (c : List Byte) (pkt : List Byte) :
    State.processPacket { s with carry := c } pkt = { s.processPacket pkt with carry := c } :=
  State.route_carry { s with pktCount := s.pktCount + 1 } c _ _ _ _ _

/-- The fields the S engine owns, and the queues, replaced: what no command of the other engines reads (R82). -/
def State.overlay (s : State) (cmd rsp : Lanes) (sb pb : List Byte) : State :=
  { s with cmd := cmd, rsp := rsp, sb := sb, pb := pb }

/-- Routing does not read or write the queues of words or the S engine's buffers. -/
theorem State.route_overlay (s : State) (cmd rsp : Lanes) (sb pb : List Byte) (pid : Pid) (payload : List Byte)
    (pusi : Bool) (cc : Cc) (noinc : Bool) :
    (s.overlay cmd rsp sb pb).route pid payload pusi cc noinc =
      (s.route pid payload pusi cc noinc).overlay cmd rsp sb pb := by
  by_cases hp : pid = nullPid
  · simp [State.route, State.overlay, hp]
  · cases hl : Registry.lookup pid s.reg with
    | none => simp [State.route, State.overlay, hp, hl]
    | some e =>
      cases hc : e.consumer with
      | raw => simp [State.route, State.overlay, hp, hl, hc, State.emit]
      | sect => simp [State.route, State.overlay, hp, hl, hc, State.emit]
      | stream t r =>
        cases hd : (r.deliver s.params t s.pcrSeen payload pusi cc noinc).2 with
        | none => simp [State.route, State.overlay, hp, hl, hc, State.delivered, hd, State.setRecon, State.install]
        | some b =>
          simp [State.route, State.overlay, hp, hl, hc, State.delivered, hd, State.setRecon, State.install, State.emit]

theorem State.processPacket_overlay (s : State) (cmd rsp : Lanes) (sb pb : List Byte) (pkt : List Byte) :
    (s.overlay cmd rsp sb pb).processPacket pkt = (s.processPacket pkt).overlay cmd rsp sb pb :=
  State.route_overlay { s with pktCount := s.pktCount + 1 } cmd rsp sb pb _ _ _ _ _

/-- Processing a packet touches two counters, the registry and OUT alone. -/
theorem State.processPacket_frame (s : State) (pkt : List Byte) :
    s.processPacket pkt =
      { s with
        pktCount := s.pktCount + 1
        unroutedCount := (s.processPacket pkt).unroutedCount
        reg := (s.processPacket pkt).reg
        out := (s.processPacket pkt).out } :=
  State.route_frame { s with pktCount := s.pktCount + 1 } _ _ _ _ _

/-! ### The pump -/

/-- `Quiescent()` as R152 writes it. -/
theorem quiet_iff (m : ResyncMode) (sync : Sync) (carry : List Byte) :
    quiet m sync carry = true ↔
      (sync = .inSync ∧ carry.length < 188) ∨ (sync = .scan ∧ carry.length = 0) ∨
        (sync = .scan ∧ m = .stride ∧ carry[0]? = some syncByte ∧ carry.length < 189) := by
  cases sync with
  | inSync =>
      simp only [quiet, decide_eq_true_iff]
      simp [pktLen]
  | scan =>
    cases carry with
    | nil => simp [quiet]
    | cons b rest =>
      simp only [quiet, Bool.and_eq_true, decide_eq_true_iff]
      simp [and_assoc, pktLen]

/-- What a pump step can do: take one packet, lose sync and discard a byte, discard a byte, or regain sync. -/
theorem State.pumpStep_cases (s : State) :
    (s.sync = .inSync ∧ s.carry.head? = some syncByte ∧
      s.pumpStep = State.processPacket { s with carry := s.carry.drop 188 } (s.carry.take 188)) ∨
    (s.sync = .inSync ∧ s.carry.head? ≠ some syncByte ∧
      s.pumpStep = State.skipByte { s with sync := .scan, resyncCount := s.resyncCount + 1 }) ∨
    (s.sync = .scan ∧ s.pumpStep = s.skipByte) ∨
    (s.sync = .scan ∧ s.carry.head? = some syncByte ∧ s.pumpStep = { s with sync := .inSync }) := by
  unfold State.pumpStep
  split
  · rename_i hs
    split
    · rename_i hh
      exact .inl ⟨hs, hh, rfl⟩
    · rename_i hh
      exact .inr (.inl ⟨hs, hh, rfl⟩)
  · rename_i hs
    split
    · exact .inr (.inr (.inl ⟨hs, rfl⟩))
    · rename_i hh
      have hh' : s.carry.head? = some syncByte := by simpa using hh
      split
      · exact .inr (.inr (.inr ⟨hs, hh', rfl⟩))
      · split
        · exact .inr (.inr (.inr ⟨hs, hh', rfl⟩))
        · exact .inr (.inr (.inl ⟨hs, rfl⟩))

/-- A pump step leaves the ports, the S engine's buffers, the control bits and the model's own fields alone. -/
theorem State.pumpStep_frame (s : State) :
    s.pumpStep =
      { s with
        carry := s.pumpStep.carry
        sync := s.pumpStep.sync
        pktCount := s.pumpStep.pktCount
        skipBytes := s.pumpStep.skipBytes
        resyncCount := s.pumpStep.resyncCount
        unroutedCount := s.pumpStep.unroutedCount
        reg := s.pumpStep.reg
        out := s.pumpStep.out } := by
  rcases State.pumpStep_cases s with ⟨-, -, h⟩ | ⟨-, -, h⟩ | ⟨-, h⟩ | ⟨-, -, h⟩
  · rw [h, State.processPacket_frame]
  · rw [h]; rfl
  · rw [h]; rfl
  · rw [h]

/-- A pump step does not read or write the queues of words or the S engine's buffers (R82). -/
theorem State.pumpStep_overlay (s : State) (cmd rsp : Lanes) (sb pb : List Byte) :
    (s.overlay cmd rsp sb pb).pumpStep = s.pumpStep.overlay cmd rsp sb pb := by
  unfold State.pumpStep
  cases hs : s.sync with
  | inSync =>
    by_cases hh : s.carry.head? = some syncByte
    · simpa [State.overlay, hs, hh] using
        State.processPacket_overlay { s with carry := s.carry.drop pktLen } cmd rsp sb pb (s.carry.take pktLen)
    · simp [State.overlay, hs, hh, State.skipByte]
  | scan =>
    by_cases hh : s.carry.head? = some syncByte
    · cases hm : s.params.resyncMode with
      | single => simp [State.overlay, hs, hh, hm]
      | stride =>
        by_cases h188 : s.carry[pktLen]? = some syncByte
        · simp [State.overlay, hs, hh, hm, h188]
        · simp [State.overlay, hs, hh, hm, h188, State.skipByte]
    · simp [State.overlay, hs, hh, State.skipByte]

/-- The measure of R411: a pump step that is enabled brings it down. -/
def pumpMeasure (s : State) : Nat :=
  2 * s.carry.length + match s.sync with
    | .inSync => 0
    | .scan => 1

theorem State.pumpStep_measure {s : State} (h : s.quiescent = false) : pumpMeasure s.pumpStep < pumpMeasure s := by
  have hq : ¬ s.quiescent = true := by simp [h]
  rw [State.quiescent, quiet_iff] at hq
  rcases State.pumpStep_cases s with ⟨hs, hh, he⟩ | ⟨hs, -, he⟩ | ⟨hs, he⟩ | ⟨hs, hh, he⟩
  · have hl : 188 ≤ s.carry.length := by
      simp [hs] at hq; omega
    rw [he, State.processPacket_carry]
    have hf := State.processPacket_frame s (s.carry.take 188)
    have hsy : (s.processPacket (s.carry.take 188)).sync = s.sync := by rw [hf]
    simp [pumpMeasure, hs, hsy]
    omega
  · have hl : 188 ≤ s.carry.length := by
      simp [hs] at hq; omega
    rw [he]
    simp [pumpMeasure, hs, State.skipByte]
    omega
  · have hl : s.carry.length ≠ 0 := by
      intro h0; exact hq (.inr (.inl ⟨hs, h0⟩))
    rw [he]
    simp [pumpMeasure, hs, State.skipByte]
    omega
  · rw [he]
    simp [pumpMeasure, hs]

end Sys2Proof.Machine
end

