-- ==== Sys2Proof/Laws/Exec.lean ====
section
/-! SUPPORT. What a command can do to the state, said once for the commands of each engine: its answer is a next state that
differs from the one before in the named fields alone, by a response of the command's own opcode, and not at all where the
response refuses it (20_memory.md R77, R82; 30_encoding.md R108; 60_exceptions.md R369). -/

namespace Sys2Proof.Machine

/-- The statuses that are no refusal (R366, R367). -/
def Status.accepts (st : Status) : Prop := st = .ok ∨ st = .invalid ∨ st = .none

/-! ### The S engine -/

/-- What a command of the S engine does from the buffers `sb` and `pb`: it writes its response port and the two buffers,
within their bounds, and reads no other field but the parameters. -/
def SectionEffect (i : Instr) (ps : Params) (sb pb : List Byte) : Prop :=
  ∃ (st : Status) (v : BitVec 16) (ds : List Word) (sb' pb' : List Byte),
    (st.accepts ∨ (v = 0 ∧ ds = [] ∧ sb' = sb ∧ pb' = pb)) ∧
    (sb.length ≤ sbCap → sb'.length ≤ sbCap) ∧ (pb.length ≤ pbCap → pb'.length ≤ pbCap) ∧
    ∀ s : State, s.sb = sb → s.pb = pb → s.params = ps →
      exec i s = .next (State.post { s with sb := sb', pb := pb' } .s (responseWord i.opcode st v :: ds))

theorem SectionEffect.keep {i : Instr} {ps : Params} {sb pb : List Byte} (st : Status) (v : BitVec 16) (ds : List Word)
    (ha : st.accepts ∨ (v = 0 ∧ ds = []))
    (he : ∀ s : State, s.sb = sb → s.pb = pb → s.params = ps →
      exec i s = .next (s.post .s (responseWord i.opcode st v :: ds))) : SectionEffect i ps sb pb := by
  refine ⟨st, v, ds, sb, pb, ha.imp_right fun h => ⟨h.1, h.2, rfl, rfl⟩, id, id, fun s h1 h2 h3 => ?_⟩
  rw [he s h1 h2 h3, ← h1, ← h2]

theorem SectionEffect.refuse {i : Instr} {ps : Params} {sb pb : List Byte} (st : Status)
    (he : ∀ s : State, s.sb = sb → s.pb = pb → s.params = ps → exec i s = raise .s i.opcode st s) :
    SectionEffect i ps sb pb :=
  .keep st 0 [] (.inr ⟨rfl, rfl⟩) he

theorem SectionEffect.append {i : Instr} {ps : Params} {sb pb : List Byte} (bs : List Byte) (v : BitVec 16)
    (he : ∀ s : State, s.sb = sb → s.pb = pb → s.params = ps → exec i s = sbAppend i.opcode bs v s) :
    SectionEffect i ps sb pb := by
  by_cases hc : sbCap < sb.length + bs.length
  · exact .refuse .capacity fun s h1 h2 h3 => by rw [he s h1 h2 h3, sbAppend, h1, if_pos hc]
  · refine ⟨.ok, v, [], sb ++ bs, pb, .inl (.inl rfl), fun _ => by simp; omega, id, fun s h1 h2 h3 => ?_⟩
    rw [he s h1 h2 h3, sbAppend, h1, if_neg hc, ← h2]
    rfl

theorem exec_section (i : Instr) (h : i.port = .s) (ps : Params) (sb pb : List Byte) : SectionEffect i ps sb pb := by
  cases i with
  | sbClear => exact ⟨.ok, 0, [], [], pb, .inl (.inl rfl), fun _ => by simp, id, fun s _ h2 _ => by rw [← h2]; rfl⟩
  | sbAppendByte b => exact .append [b] 0 fun s _ _ _ => rfl
  | sbAppendU16 v => exact .append (be16Bytes v) 0 fun s _ _ _ => rfl
  | sbAppendBytes data => exact .append data 0 fun s _ _ _ => rfl
  | sbAppendLang data => exact .append (langNorm ps.langDefault data) 0 fun s _ _ h3 => by rw [← h3]; rfl
  | sbReserve => exact .append [0x00#8] (BitVec.ofNat 16 sb.length) fun s h1 _ _ => by rw [← h1]; rfl
  | sbBackfill pos =>
    by_cases hc : sb.length ≤ pos.toNat
    · exact .refuse .contract fun s h1 _ _ => by rw [exec, execSbBackfill, h1, if_pos hc]; rfl
    · refine ⟨.ok, 0, [], sb.set pos.toNat (BitVec.ofNat 8 (sb.length - pos.toNat - 1)), pb, .inl (.inl rfl),
        fun hl => by simpa using hl, id, fun s h1 h2 _ => ?_⟩
      rw [exec, execSbBackfill, h1, if_neg hc, ← h2]
      rfl
  | sbToBytes =>
    refine .keep .ok (BitVec.ofNat 16 sb.length) (pack sb) (.inl (.inl rfl)) fun s h1 h2 _ => ?_
    rw [exec, execSbToBytes, h1]
    simp [State.respond, State.post, Instr.opcode]
  | pbLoad data =>
    by_cases hc : pbCap < data.length
    · exact .refuse .capacity fun s _ _ _ => by rw [exec, execPbLoad, if_pos hc]; rfl
    · refine ⟨.ok, 0, [], sb, data, .inl (.inl rfl), id, fun _ => by omega, fun s h1 _ _ => ?_⟩
      rw [exec, execPbLoad, if_neg hc, ← h1]
      rfl
  | pbRd8 off =>
    cases hb : byteAt pb off.toNat with
    | none => exact .refuse .contract fun s _ h2 _ => by rw [exec, execPbRd8, h2, hb]; rfl
    | some b => exact .keep .ok (0#8 ++ b) [] (.inl (.inl rfl)) fun s _ h2 _ => by rw [exec, execPbRd8, h2, hb]; rfl
  | pbRd16 off =>
    cases hb : be16At pb off.toNat with
    | none => exact .refuse .contract fun s _ h2 _ => by rw [exec, execPbRd16, h2, hb]; rfl
    | some v => exact .keep .ok v [] (.inl (.inl rfl)) fun s _ h2 _ => by rw [exec, execPbRd16, h2, hb]; rfl
  | pbRd12 off =>
    cases hb : be16At pb off.toNat with
    | none => exact .refuse .contract fun s _ h2 _ => by rw [exec, execPbRd12, h2, hb]; rfl
    | some v => exact .keep .ok (mask12 v) [] (.inl (.inl rfl)) fun s _ h2 _ => by rw [exec, execPbRd12, h2, hb]; rfl
  | pbWalk off len =>
    by_cases hc : pb.length < off.toNat + len.toNat
    · exact .refuse .contract fun s _ h2 _ => by rw [exec, execPbWalk, h2, if_pos hc]; rfl
    · refine .keep (if (walkList (listBytes pb off.toNat len.toNat) 0 off.toNat).1 then .ok else .invalid)
        (BitVec.ofNat 16 (walkList (listBytes pb off.toNat len.toNat) 0 off.toNat).2.length)
        ((walkList (listBytes pb off.toNat len.toNat) 0 off.toNat).2.map Desc.word) (.inl ?_) fun s h1 h2 _ => ?_
      · split
        · exact .inl rfl
        · exact .inr (.inl rfl)
      · rw [exec, execPbWalk, h2, if_neg hc]
        simp [State.respond, State.post, Instr.opcode]
  | addPayload | dispose | resetStream | disposeStream | readGstat | readSstat | setFilter | requestSection
  | removeFilter | clearFilters | setPcrSeen => cases h

/-! ### The C engine -/

/-- What a command of the C engine does to `s`: it writes its response port, the registry, the next epoch and
`st.pcr_seen`, and reads those and `st.disposed` alone. The registry stays in its canonical form, its new entry is
fresh, and nothing is installed and `st.pcr_seen` not cleared. -/
def ControlEffect (i : Instr) (s : State) : Prop :=
  ∃ (st : Status) (v : BitVec 16) (reg : Registry) (ep : Ctr) (pcr : Bool),
    (st.accepts ∨ (v = 0 ∧ reg = s.reg ∧ ep = s.epochNext ∧ pcr = s.pcrSeen)) ∧
    (Registry.Wf s.reg → Registry.Wf reg) ∧
    (∀ x ∈ reg, x ∈ s.reg ∨ x.2.consumer = .raw ∨ x.2.consumer = .sect ∨ ∃ t, x.2.consumer = .stream t Recon.fresh) ∧
    (s.disposed = true → reg = s.reg) ∧ (s.pcrSeen = true → pcr = true) ∧
    ∀ s' : State, s'.reg = s.reg → s'.epochNext = s.epochNext → s'.pcrSeen = s.pcrSeen → s'.disposed = s.disposed →
      exec i s' =
        .next (State.post { s' with reg := reg, epochNext := ep, pcrSeen := pcr } .c [responseWord i.opcode st v])

theorem ControlEffect.refuse {i : Instr} {s : State} (st : Status)
    (he : ∀ s' : State, s'.disposed = s.disposed → exec i s' = raise .c i.opcode st s') : ControlEffect i s := by
  refine ⟨st, 0, s.reg, s.epochNext, s.pcrSeen, .inr ⟨rfl, rfl, rfl, rfl⟩, id, fun x hx => .inl hx, fun _ => rfl, id,
    fun s' h1 h2 h3 h4 => ?_⟩
  rw [he s' h4, ← h1, ← h2, ← h3]
  rfl

theorem consumerOf_fresh {kind stype : BitVec 2} {k : Consumer} (h : consumerOf kind stype = some k) :
    k = .raw ∨ k = .sect ∨ ∃ t, k = .stream t Recon.fresh := by
  unfold consumerOf at h
  split at h <;> cases h
  · exact .inl rfl
  · exact .inr (.inl rfl)
  · exact .inr (.inr ⟨_, rfl⟩)
  · exact .inr (.inr ⟨_, rfl⟩)
  · exact .inr (.inr ⟨_, rfl⟩)

theorem ControlEffect.register {i : Instr} {s : State} (p : Pid) (k : Consumer) (small video : Bool)
    (hk : k = .raw ∨ k = .sect ∨ ∃ t, k = .stream t Recon.fresh) (hd : s.disposed = false)
    (he : ∀ s' : State, s'.disposed = false → exec i s' = .next (s'.register i.opcode p k small video)) :
    ControlEffect i s := by
  refine ⟨.ok, s.epochNext.extractLsb' 0 16,
    Registry.insert p { consumer := k, small := small, vhint := video, epoch := s.epochNext } s.reg, s.epochNext + 1,
    s.pcrSeen, .inl (.inl rfl), fun h => Registry.insert_wf h _ _, fun x hx => ?_, fun h => by simp [hd] at h, id,
    fun s' h1 h2 h3 h4 => ?_⟩
  · rcases Registry.mem_insert hx with hx | hx
    · exact .inr (hx ▸ hk)
    · exact .inl hx
  · rw [he s' (h4.trans hd), ← h1, ← h2, ← h3]
    rfl

theorem exec_control (i : Instr) (h : i.port = .c) (s : State) : ControlEffect i s := by
  cases i with
  | setFilter kind stype small video pid =>
    cases hk : consumerOf kind stype with
    | none => exact .refuse .illegal fun s' _ => by rw [exec, execSetFilter, hk]; rfl
    | some k =>
      cases hd : s.disposed with
      | true => exact .refuse .disposed fun s' h => by simp [exec, execSetFilter, hk, h, hd, Instr.opcode]
      | false =>
        cases hp : pidInRange pid with
        | false => exact .refuse .contract fun s' h => by simp [exec, execSetFilter, hk, h, hd, hp, Instr.opcode]
        | true =>
          exact .register (pidOf pid) k small video (consumerOf_fresh hk) hd
            fun s' h => by simp [exec, execSetFilter, hk, h, hp, Instr.opcode]
  | requestSection pid =>
    cases hd : s.disposed with
    | true => exact .refuse .disposed fun s' h => by simp [exec, execRequestSection, h, hd, Instr.opcode]
    | false =>
      cases hp : pidInRange pid with
      | false => exact .refuse .contract fun s' h => by simp [exec, execRequestSection, h, hd, hp, Instr.opcode]
      | true =>
        exact .register (pidOf pid) .sect false false (.inr (.inl rfl)) hd
          fun s' h => by simp [exec, execRequestSection, h, hp, Instr.opcode]
  | removeFilter pid =>
    cases hd : s.disposed with
    | true => exact .refuse .disposed fun s' h => by simp [exec, execRemoveFilter, h, hd, Instr.opcode]
    | false =>
      cases hp : pidInRange pid with
      | false => exact .refuse .contract fun s' h => by simp [exec, execRemoveFilter, h, hd, hp, Instr.opcode]
      | true =>
        refine ⟨.ok, 0, Registry.erase (pidOf pid) s.reg, s.epochNext, s.pcrSeen, .inl (.inl rfl),
          fun h => Registry.erase_wf h _, fun x hx => .inl (Registry.mem_erase hx), fun h => by simp [hd] at h, id,
          fun s' h1 h2 h3 h4 => ?_⟩
        simp [exec, execRemoveFilter, h4, hd, hp, Instr.opcode, State.uninstall, State.respond, ← h1, ← h2, ← h3]
  | clearFilters =>
    cases hd : s.disposed with
    | true => exact .refuse .disposed fun s' h => by simp [exec, execClearFilters, h, hd, Instr.opcode]
    | false =>
      refine ⟨.ok, 0, [], s.epochNext, s.pcrSeen, .inl (.inl rfl), fun _ => .nil, fun _ hx => absurd hx List.not_mem_nil,
        fun h => by simp [hd] at h, id, fun s' h1 h2 h3 h4 => ?_⟩
      simp [exec, execClearFilters, h4, hd, Instr.opcode, State.respond, ← h2, ← h3]
  | setPcrSeen =>
    cases hd : s.disposed with
    | true => exact .refuse .disposed fun s' h => by simp [exec, execSetPcrSeen, h, hd, Instr.opcode]
    | false =>
      refine ⟨.ok, 0, s.reg, s.epochNext, true, .inl (.inl rfl), id, fun x hx => .inl hx, fun _ => rfl, fun _ => rfl,
        fun s' h1 h2 h3 h4 => ?_⟩
      simp [exec, execSetPcrSeen, h4, hd, Instr.opcode, State.respond, ← h1, ← h2]
  | addPayload | dispose | resetStream | disposeStream | readGstat | readSstat | sbClear | sbAppendByte | sbAppendU16
  | sbAppendBytes | sbAppendLang | sbReserve | sbBackfill | sbToBytes | pbLoad | pbRd8 | pbRd16 | pbRd12 | pbWalk =>
    cases h

/-! ### The D engine -/

/-- What a command of the D engine other than ADD_PAYLOAD does to `s`: it writes its response port, the registry, the
carry buffer and `st.disposed`, and reads no field of the S engine. -/
def DataEffect (i : Instr) (s : State) : Prop :=
  ∃ (st : Status) (v : BitVec 16) (ds : List Word) (reg : Registry) (carry : List Byte) (dsp : Bool),
    (st.accepts ∨ (v = 0 ∧ ds = [] ∧ reg = s.reg ∧ carry = s.carry ∧ dsp = s.disposed)) ∧
    (Registry.Wf s.reg → Registry.Wf reg) ∧
    (∀ x ∈ reg, x ∈ s.reg ∨ ∃ y ∈ s.reg, ∃ t r, y.2.consumer = .stream t r ∧
      (x.2.consumer = .stream t r.resetState ∨ x.2.consumer = .stream t r.disposeState)) ∧
    ((reg = [] ∧ carry = [] ∧ dsp = true) ∨
      (carry = s.carry ∧ dsp = s.disposed ∧ (s.disposed = true → reg = s.reg))) ∧
    ∀ (cmd rsp : Lanes) (sb pb : List Byte),
      exec i (s.overlay cmd rsp sb pb) =
        .next (State.post (State.overlay { s with reg := reg, carry := carry, disposed := dsp } cmd rsp sb pb) .d
          (responseWord i.opcode st v :: ds))

theorem DataEffect.keep {i : Instr} {s : State} (st : Status) (v : BitVec 16) (ds : List Word)
    (ha : st.accepts ∨ (v = 0 ∧ ds = []))
    (he : ∀ (cmd rsp : Lanes) (sb pb : List Byte), exec i (s.overlay cmd rsp sb pb) =
      .next (State.post (s.overlay cmd rsp sb pb) .d (responseWord i.opcode st v :: ds))) : DataEffect i s :=
  ⟨st, v, ds, s.reg, s.carry, s.disposed, ha.imp_right fun h => ⟨h.1, h.2, rfl, rfl, rfl⟩, id, fun _ hx => .inl hx,
    .inr ⟨rfl, rfl, fun _ => rfl⟩, he⟩

theorem DataEffect.refuse {i : Instr} {s : State} (st : Status)
    (he : ∀ (cmd rsp : Lanes) (sb pb : List Byte), exec i (s.overlay cmd rsp sb pb) =
      raise .d i.opcode st (s.overlay cmd rsp sb pb)) : DataEffect i s :=
  .keep st 0 [] (.inr ⟨rfl, rfl⟩) he

theorem State.streamAt_some {s : State} {p : Pid} {e : Entry} {t : StreamType} {r : Recon}
    (h : s.streamAt p = some (e, t, r)) : Registry.lookup p s.reg = some e ∧ e.consumer = .stream t r := by
  unfold State.streamAt at h
  split at h
  · split at h
    · cases h
      exact ⟨by assumption, by assumption⟩
    · cases h
    · cases h
  · cases h

theorem State.streamAt_of {s : State} {p : Pid} {e : Entry} {t : StreamType} {r : Recon}
    (h1 : Registry.lookup p s.reg = some e) (h2 : e.consumer = .stream t r) : s.streamAt p = some (e, t, r) := by
  simp [State.streamAt, h1, h2]

@[simp] theorem State.streamAt_overlay (s : State) (cmd rsp : Lanes) (sb pb : List Byte) (p : Pid) :
    (s.overlay cmd rsp sb pb).streamAt p = s.streamAt p := rfl

@[simp] theorem State.disposed_overlay (s : State) (cmd rsp : Lanes) (sb pb : List Byte) :
    (s.overlay cmd rsp sb pb).disposed = s.disposed := rfl

@[simp] theorem globalReg_overlay (s : State) (cmd rsp : Lanes) (sb pb : List Byte) (sel : BitVec 8) :
    globalReg (s.overlay cmd rsp sb pb) sel = globalReg s sel := rfl

theorem DataEffect.writeBack {i : Instr} {s : State} {p : Pid} {e : Entry} {t : StreamType} {r r' : Recon}
    (hr : r' = r.resetState ∨ r' = r.disposeState) (hd : s.disposed = false) (hs : s.streamAt p = some (e, t, r))
    (he : ∀ (cmd rsp : Lanes) (sb pb : List Byte), exec i (s.overlay cmd rsp sb pb) =
      .next (State.respond ((s.overlay cmd rsp sb pb).setRecon p e t r') .d i.opcode .ok 0)) : DataEffect i s := by
  obtain ⟨hl, hc⟩ := State.streamAt_some hs
  refine ⟨.ok, 0, [], Registry.insert p { e with consumer := .stream t r' } s.reg, s.carry, s.disposed, .inl (.inl rfl),
    fun h => Registry.insert_wf h _ _, fun x hx => ?_, .inr ⟨rfl, rfl, fun h => by simp [hd] at h⟩,
    fun cmd rsp sb pb => by rw [he]; rfl⟩
  rcases Registry.mem_insert hx with hx | hx
  · refine .inr ⟨_, Registry.mem_of_lookup hl, t, r, hc, ?_⟩
    rcases hr with rfl | rfl
    · exact .inl (by rw [hx])
    · exact .inr (by rw [hx])
  · exact .inl hx

theorem exec_data (i : Instr) (h : i.port = .d) (hn : ∀ data, i ≠ .addPayload data) (s : State) : DataEffect i s := by
  cases i with
  | addPayload data => exact absurd rfl (hn data)
  | dispose =>
    exact ⟨.ok, 0, [], [], [], true, .inl (.inl rfl), fun _ => .nil, fun _ hx => absurd hx List.not_mem_nil, .inl ⟨rfl, rfl, rfl⟩,
      fun _ _ _ _ => rfl⟩
  | resetStream pid =>
    cases hd : s.disposed with
    | true => exact .refuse .disposed fun _ _ _ _ => by simp [exec, execResetStream, hd, Instr.opcode]
    | false =>
      cases hp : pidInRange pid with
      | false => exact .refuse .contract fun _ _ _ _ => by simp [exec, execResetStream, hd, hp, Instr.opcode]
      | true =>
        cases hs : s.streamAt (pidOf pid) with
        | none => exact .refuse .notStream fun _ _ _ _ => by simp [exec, execResetStream, hd, hp, hs, Instr.opcode]
        | some x =>
          obtain ⟨e, t, r⟩ := x
          exact .writeBack (.inl rfl) hd hs fun _ _ _ _ => by simp [exec, execResetStream, hd, hp, hs, Instr.opcode]
  | disposeStream pid =>
    cases hd : s.disposed with
    | true => exact .refuse .disposed fun _ _ _ _ => by simp [exec, execDisposeStream, hd, Instr.opcode]
    | false =>
      cases hp : pidInRange pid with
      | false => exact .refuse .contract fun _ _ _ _ => by simp [exec, execDisposeStream, hd, hp, Instr.opcode]
      | true =>
        cases hs : s.streamAt (pidOf pid) with
        | none => exact .refuse .notStream fun _ _ _ _ => by simp [exec, execDisposeStream, hd, hp, hs, Instr.opcode]
        | some x =>
          obtain ⟨e, t, r⟩ := x
          exact .writeBack (.inr rfl) hd hs fun _ _ _ _ => by simp [exec, execDisposeStream, hd, hp, hs, Instr.opcode]
  | readGstat sel =>
    cases hg : globalReg s sel with
    | none => exact .refuse .illegal fun _ _ _ _ => by simp [exec, execReadGstat, hg, Instr.opcode]
    | some v =>
      refine .keep .ok 0 (wordsOf64 v) (.inl (.inl rfl)) fun _ _ _ _ => ?_
      simp [exec, execReadGstat, hg, Instr.opcode, State.respond, State.post]
  | readSstat sel pid =>
    by_cases hx : 0x07 < sel.toNat
    · exact .refuse .illegal fun _ _ _ _ => by simp [exec, execReadSstat, hx, Instr.opcode]
    · cases hd : s.disposed with
      | true => exact .refuse .disposed fun _ _ _ _ => by simp [exec, execReadSstat, hx, hd, Instr.opcode]
      | false =>
        cases hp : pidInRange pid with
        | false => exact .refuse .contract fun _ _ _ _ => by simp [exec, execReadSstat, hx, hd, hp, Instr.opcode]
        | true =>
          cases hs : s.streamAt (pidOf pid) with
          | none => exact .refuse .notStream fun _ _ _ _ => by simp [exec, execReadSstat, hx, hd, hp, hs, Instr.opcode]
          | some x =>
            obtain ⟨e, t, r⟩ := x
            cases hv : streamReg e t r sel with
            | reserved => exact .refuse .illegal fun _ _ _ _ => by simp [exec, execReadSstat, hx, hd, hp, hs, hv, Instr.opcode]
            | absent =>
              refine .keep .none 0 (wordsOf64 0) (.inl (.inr (.inr rfl))) fun _ _ _ _ => ?_
              simp [exec, execReadSstat, hx, hd, hp, hs, hv, Instr.opcode, State.respond, State.post]
            | value v =>
              refine .keep .ok 0 (wordsOf64 v) (.inl (.inl rfl)) fun _ _ _ _ => ?_
              simp [exec, execReadSstat, hx, hd, hp, hs, hv, Instr.opcode, State.respond, State.post]
  | setFilter | requestSection | removeFilter | clearFilters | setPcrSeen | sbClear | sbAppendByte | sbAppendU16
  | sbAppendBytes | sbAppendLang | sbReserve | sbBackfill | sbToBytes | pbLoad | pbRd8 | pbRd16 | pbRd12 | pbWalk =>
    cases h

end Sys2Proof.Machine
end

