-- ==== Sys2Proof/Laws/PerInstr.lean ====
section
/-! SUPPORT. Statements about every command as syntax, one lemma a constructor. -/

namespace Sys2Proof.Laws

namespace CommandLength

/-- A command takes one word, and `ceil(n/4)` data words for its `n` bytes (R104). -/
def Statement (i : Instr) : Prop := (encode i).length = 1 + dataWords i.data.length

theorem addPayload (data : List Byte) : Statement (.addPayload data) := by
  simp [Statement, encode, wordsFN, Instr.data, pack_length]; omega

theorem dispose : Statement .dispose := by
  simp [Statement, encode, Instr.data, dataWords]

theorem resetStream (pid : BitVec 16) : Statement (.resetStream pid) := by
  simp [Statement, encode, Instr.data, dataWords]

theorem disposeStream (pid : BitVec 16) : Statement (.disposeStream pid) := by
  simp [Statement, encode, Instr.data, dataWords]

theorem readGstat (sel : BitVec 8) : Statement (.readGstat sel) := by
  simp [Statement, encode, Instr.data, dataWords]

theorem readSstat (sel : BitVec 8) (pid : BitVec 16) : Statement (.readSstat sel pid) := by
  simp [Statement, encode, Instr.data, dataWords]

theorem setFilter (kind : BitVec 2) (stype : BitVec 2) (small : Bool) (video : Bool) (pid : BitVec 16) : Statement (.setFilter kind stype small video pid) := by
  simp [Statement, encode, Instr.data, dataWords]

theorem requestSection (pid : BitVec 16) : Statement (.requestSection pid) := by
  simp [Statement, encode, Instr.data, dataWords]

theorem removeFilter (pid : BitVec 16) : Statement (.removeFilter pid) := by
  simp [Statement, encode, Instr.data, dataWords]

theorem clearFilters : Statement .clearFilters := by
  simp [Statement, encode, Instr.data, dataWords]

theorem setPcrSeen : Statement .setPcrSeen := by
  simp [Statement, encode, Instr.data, dataWords]

theorem sbClear : Statement .sbClear := by
  simp [Statement, encode, Instr.data, dataWords]

theorem sbAppendByte (b : Byte) : Statement (.sbAppendByte b) := by
  simp [Statement, encode, Instr.data, dataWords]

theorem sbAppendU16 (v : BitVec 16) : Statement (.sbAppendU16 v) := by
  simp [Statement, encode, Instr.data, dataWords]

theorem sbAppendBytes (data : List Byte) : Statement (.sbAppendBytes data) := by
  simp [Statement, encode, wordsFN, Instr.data, pack_length]; omega

theorem sbAppendLang (data : List Byte) : Statement (.sbAppendLang data) := by
  simp [Statement, encode, wordsFN, Instr.data, pack_length]; omega

theorem sbReserve : Statement .sbReserve := by
  simp [Statement, encode, Instr.data, dataWords]

theorem sbBackfill (pos : BitVec 16) : Statement (.sbBackfill pos) := by
  simp [Statement, encode, Instr.data, dataWords]

theorem sbToBytes : Statement .sbToBytes := by
  simp [Statement, encode, Instr.data, dataWords]

theorem pbLoad (data : List Byte) : Statement (.pbLoad data) := by
  simp [Statement, encode, wordsFN, Instr.data, pack_length]; omega

theorem pbRd8 (off : BitVec 12) : Statement (.pbRd8 off) := by
  simp [Statement, encode, Instr.data, dataWords]

theorem pbRd16 (off : BitVec 12) : Statement (.pbRd16 off) := by
  simp [Statement, encode, Instr.data, dataWords]

theorem pbRd12 (off : BitVec 12) : Statement (.pbRd12 off) := by
  simp [Statement, encode, Instr.data, dataWords]

theorem pbWalk (off : BitVec 12) (len : BitVec 12) : Statement (.pbWalk off len) := by
  simp [Statement, encode, Instr.data, dataWords]

end CommandLength

namespace HeadOpcode

/-- The command word of a command holds its opcode in bits [31:24] (R100, R105, R106, R107). -/
def Statement (i : Instr) : Prop := ∃ w ws, encode i = w :: ws ∧ opField w = i.opcode

theorem addPayload (data : List Byte) : Statement (.addPayload data) := ⟨_, _, rfl, opField_wordLow16 _ _⟩

theorem dispose : Statement .dispose := ⟨_, _, rfl, opField_wordF0 _⟩

theorem resetStream (pid : BitVec 16) : Statement (.resetStream pid) := ⟨_, _, rfl, opField_wordLow16 _ _⟩

theorem disposeStream (pid : BitVec 16) : Statement (.disposeStream pid) := ⟨_, _, rfl, opField_wordLow16 _ _⟩

theorem readGstat (sel : BitVec 8) : Statement (.readGstat sel) := ⟨_, _, rfl, opField_wordLow8 _ _⟩

theorem readSstat (sel : BitVec 8) (pid : BitVec 16) : Statement (.readSstat sel pid) := by
  refine ⟨_, _, rfl, ?_⟩
  show (0x06#8 ++ sel ++ pid : BitVec (8 + 8 + 16)).extractLsb' 24 8 = 0x06#8
  rw [extract_append_hi _ _ (by decide), extract_append_hi _ _ (by decide)]
  exact BitVec.extractLsb'_eq_self

theorem setFilter (kind : BitVec 2) (stype : BitVec 2) (small : Bool) (video : Bool) (pid : BitVec 16) : Statement (.setFilter kind stype small video pid) := by
  refine ⟨_, _, rfl, ?_⟩
  show (0x10#8 ++ kind ++ stype ++ BitVec.ofBool small ++ BitVec.ofBool video ++ 0#2 ++ pid :
    BitVec (8 + 2 + 2 + 1 + 1 + 2 + 16)).extractLsb' 24 8 = 0x10#8
  rw [extract_append_hi _ _ (by decide), extract_append_hi _ _ (by decide), extract_append_hi _ _ (by decide),
    extract_append_hi _ _ (by decide), extract_append_hi _ _ (by decide), extract_append_hi _ _ (by decide)]
  exact BitVec.extractLsb'_eq_self

theorem requestSection (pid : BitVec 16) : Statement (.requestSection pid) := ⟨_, _, rfl, opField_wordLow16 _ _⟩

theorem removeFilter (pid : BitVec 16) : Statement (.removeFilter pid) := ⟨_, _, rfl, opField_wordLow16 _ _⟩

theorem clearFilters : Statement .clearFilters := ⟨_, _, rfl, opField_wordF0 _⟩

theorem setPcrSeen : Statement .setPcrSeen := ⟨_, _, rfl, opField_wordF0 _⟩

theorem sbClear : Statement .sbClear := ⟨_, _, rfl, opField_wordF0 _⟩

theorem sbAppendByte (b : Byte) : Statement (.sbAppendByte b) := ⟨_, _, rfl, opField_wordLow8 _ _⟩

theorem sbAppendU16 (v : BitVec 16) : Statement (.sbAppendU16 v) := ⟨_, _, rfl, opField_wordLow16 _ _⟩

theorem sbAppendBytes (data : List Byte) : Statement (.sbAppendBytes data) := ⟨_, _, rfl, opField_wordLow16 _ _⟩

theorem sbAppendLang (data : List Byte) : Statement (.sbAppendLang data) := ⟨_, _, rfl, opField_wordLow16 _ _⟩

theorem sbReserve : Statement .sbReserve := ⟨_, _, rfl, opField_wordF0 _⟩

theorem sbBackfill (pos : BitVec 16) : Statement (.sbBackfill pos) := ⟨_, _, rfl, opField_wordLow16 _ _⟩

theorem sbToBytes : Statement .sbToBytes := ⟨_, _, rfl, opField_wordF0 _⟩

theorem pbLoad (data : List Byte) : Statement (.pbLoad data) := ⟨_, _, rfl, opField_wordLow16 _ _⟩

theorem pbRd8 (off : BitVec 12) : Statement (.pbRd8 off) := ⟨_, _, rfl, opField_wordLow12 _ _⟩

theorem pbRd16 (off : BitVec 12) : Statement (.pbRd16 off) := ⟨_, _, rfl, opField_wordLow12 _ _⟩

theorem pbRd12 (off : BitVec 12) : Statement (.pbRd12 off) := ⟨_, _, rfl, opField_wordLow12 _ _⟩

theorem pbWalk (off : BitVec 12) (len : BitVec 12) : Statement (.pbWalk off len) := by
  refine ⟨_, _, rfl, ?_⟩
  show (0x34#8 ++ off ++ len : BitVec (8 + 12 + 12)).extractLsb' 24 8 = 0x34#8
  rw [extract_append_hi _ _ (by decide), extract_append_hi _ _ (by decide)]
  exact BitVec.extractLsb'_eq_self

end HeadOpcode

end Sys2Proof.Laws
end

