-- ==== Sys2Proof/Laws/Step.lean ====
section
/-! SUPPORT. What one step of the machine can do, and runs of several steps. -/

namespace Sys2Proof.Machine

/-- Every command answers a next state. -/
theorem exec_answers (i : Instr) (s : State) : ∃ t, exec i s = .next t := by
  cases hp : i.port with
  | s =>
    obtain ⟨_, _, _, _, _, -, -, -, h⟩ := exec_section i hp s.params s.sb s.pb
    exact ⟨_, h s rfl rfl rfl⟩
  | c =>
    obtain ⟨_, _, _, _, _, -, -, -, -, -, h⟩ := exec_control i hp s
    exact ⟨_, h s rfl rfl rfl rfl⟩
  | d =>
    by_cases hn : ∀ data, i ≠ .addPayload data
    · obtain ⟨_, _, _, _, _, _, -, -, -, -, h⟩ := exec_data i hp hn s
      exact ⟨_, h s.cmd s.rsp s.sb s.pb⟩
    · push Not at hn
      obtain ⟨data, rfl⟩ := hn
      simp only [exec, execAddPayload, raise]
      split <;> exact ⟨_, rfl⟩

/-- One step of a run. -/
theorem core_run_succ (M : Host.Core) (n : Nat) {s t : M.State} (h : M.step s = .next t) : M.run (n + 1) s = M.run n t := by
  simp [Host.Core.run, h]

/-- A run of one step and then `n`, where the first step answers `t`. -/
theorem run_succ {s t : State} (n : Nat) (h : step s = .next t) :
    Host.Core.run Sys2Proof.core (n + 1) s = Host.Core.run Sys2Proof.core n t :=
  core_run_succ Sys2Proof.core n h

/-- What the step of an engine on a state whose turn is taken off the schedule does. -/
theorem engineMove_cases (s : State) (p : Port) :
    (p = .d ∧ s.pumping = true ∧ s.engineMove p = .goto s.pumpTurn) ∨
    (¬ (p = .d ∧ s.pumping = true) ∧
      (s.engineMove p = .goto s ∨
        (∃ op rest, s.engineMove p = .goto ((s.setCmd p rest).respond p op .illegal 0)) ∨
        ∃ i rest, decode p (s.cmd.get p) = .command i rest ∧ s.engineMove p = .run i (s.setCmd p rest))) := by
  by_cases h : p = .d ∧ s.pumping = true
  · exact .inl ⟨h.1, h.2, by rw [State.engineMove, if_pos h]⟩
  · refine .inr ⟨h, ?_⟩
    rw [State.engineMove, if_neg h, State.fetch]
    split
    · exact .inl rfl
    · exact .inl rfl
    · exact .inr (.inl ⟨_, _, rfl⟩)
    · exact .inr (.inr ⟨_, _, by assumption, rfl⟩)

/-- Who takes a step: the host, by the schedule; an engine, on a state that differs in the schedule and the count of free
choices alone; or nobody. -/
theorem nextMove_cases (s : State) :
    (∃ a rest, s.schedule = .host a :: rest ∧ s.nextMove = .goto (State.hostMove { s with schedule := rest } a)) ∨
    (∃ p rest k, s.nextMove = State.engineMove { s with schedule := rest, picks := k } p) ∨
    s.nextMove = .goto s := by
  unfold State.nextMove
  split
  · exact .inl ⟨_, _, by assumption, rfl⟩
  · exact .inr (.inl ⟨_, _, s.picks, rfl⟩)
  · rename_i hs
    split
    · exact .inr (.inr rfl)
    · refine .inr (.inl ⟨‹Port›, [], s.picks, ?_⟩)
      rw [← hs]
    · refine .inr (.inl ⟨Config.freeTurn s.picks, [], s.picks + 1, ?_⟩)
      rw [← hs]

end Sys2Proof.Machine
end

