-- ==== Sys2Proof/Machine/Assembler.lean ====
section
/-! DEFINITION. The assembler syntax the spec writes programs in (30_encoding.md R114, R115): one command a line,
`MNEMONIC field=value, field=value`, with an optional port prefix and an optional comment. No step of the machine uses it. A
line is read as the port its words are pushed to and the commands it stands for. -/

namespace Sys2Proof

/-! ### Text -/

/-- A blank of a line. -/
def isBlank (c : Char) : Bool := c = ' ' || c = '\t' || c = '\r'

/-- A line without the blanks at its ends. -/
def trimBlanks (cs : List Char) : List Char := ((cs.dropWhile isBlank).reverse.dropWhile isBlank).reverse

/-- The parts of a text between the separators `sep` that stand outside brackets; `acc` is the part read so far, reversed,
and `depth` the number of brackets open. -/
def splitOutside (sep : Char) : List Char → Nat → List Char → List (List Char)
  | [], _, acc => [acc.reverse]
  | c :: cs, depth, acc =>
    if c = sep ∧ depth = 0 then acc.reverse :: splitOutside sep cs 0 []
    else if c = '[' then splitOutside sep cs (depth + 1) (c :: acc)
    else if c = ']' then splitOutside sep cs (depth - 1) (c :: acc)
    else splitOutside sep cs depth (c :: acc)

/-- The value of a digit in base 16. -/
def digitOf (c : Char) : Option Nat :=
  if '0' ≤ c ∧ c ≤ '9' then some (c.toNat - '0'.toNat)
  else if 'a' ≤ c ∧ c ≤ 'f' then some (c.toNat - 'a'.toNat + 10)
  else if 'A' ≤ c ∧ c ≤ 'F' then some (c.toNat - 'A'.toNat + 10)
  else none

/-- Digits of a base, most significant first, after the value `acc`. -/
def digitsOf (base : Nat) : List Char → Nat → Option Nat
  | [], acc => some acc
  | c :: cs, acc =>
    match digitOf c with
    | none => none
    | some d => if d < base then digitsOf base cs (acc * base + d) else none

/-- A number in C syntax, hexadecimal after `0x` and decimal otherwise (R114). -/
def numberOf : List Char → Option Nat
  | [] => none
  | '0' :: x :: d :: cs =>
    if x = 'x' ∨ x = 'X' then digitsOf 16 (d :: cs) 0 else digitsOf 10 ('0' :: x :: d :: cs) 0
  | cs => digitsOf 10 cs 0

/-! ### Fields -/

/-- The fields of a line: names and values. -/
abbrev Fields := List (List Char × List Char)

/-- One `name=value`. -/
def fieldOf (cs : List Char) : Option (List Char × List Char) :=
  match cs.dropWhile (· ≠ '=') with
  | [] => none
  | _ :: value => some (trimBlanks (cs.takeWhile (· ≠ '=')), trimBlanks value)

/-- The fields of the text after a mnemonic: none for an empty text, else one between every two commas. -/
def fieldsOf (cs : List Char) : Option Fields :=
  if cs.all isBlank then some [] else (splitOutside ',' cs 0 []).mapM fieldOf

/-- Every field of a line is one of its format's, and stands once. -/
def onlyFields (names : List String) (fs : Fields) : Bool :=
  fs.all (fun f => (names.map String.toList).contains f.1) && decide (fs.map Prod.fst).Nodup

/-- The value of a field under a name, with the symbols it may be written by; an omitted field is 0 (R114). -/
def fieldValue (name : String) (symbols : List (String × Nat)) (fs : Fields) : Option Nat :=
  match fs.find? (fun f => f.1 = name.toList) with
  | none => some 0
  | some f =>
    match symbols.find? (fun x => x.1.toList = f.2) with
    | some x => some x.2
    | none => numberOf f.2

/-- A number field of `w` bits; `none` where the value does not fit. -/
def bitsField (w : Nat) (name : String) (symbols : List (String × Nat)) (fs : Fields) : Option (BitVec w) :=
  match fieldValue name symbols fs with
  | none => none
  | some v => if v < 2 ^ w then some (BitVec.ofNat w v) else none

/-- A byte of a byte list. -/
def listedByte (cs : List Char) : Option Byte :=
  match numberOf (trimBlanks cs) with
  | none => none
  | some v => if v < 256 then some (BitVec.ofNat 8 v) else none

/-- The bytes of `[b0, b1, ...]`. -/
def byteList : List Char → Option (List Byte)
  | '[' :: cs =>
    match cs.reverse with
    | ']' :: inner =>
      if inner.all isBlank then some [] else (splitOutside ',' inner.reverse 0 []).mapM listedByte
    | _ => none
  | _ => none

/-- The bytes of an FN command: its `data` list, whose length an `n` field, where there is one, repeats (R114). -/
def dataField (fs : Fields) : Option (List Byte) := do
  let data ← match fs.find? (fun f => f.1 = "data".toList) with
    | none => some []
    | some f => byteList f.2
  let n ← if fs.any (fun f => f.1 = "n".toList) then fieldValue "n" [] fs else some data.length
  if n = data.length ∧ n ≤ maxChunk then some data else none

/-! ### Commands -/

/-- The symbols of `kind` (R103, R114). -/
def kindSymbols : List (String × Nat) := [("RAW", 0), ("SECTION", 1), ("STREAM", 2)]

/-- The symbols of `stype` (R103, R114). -/
def stypeSymbols : List (String × Nat) := [("AUDIO", 0), ("SUBTITLE", 1), ("VIDEO", 2)]

/-- A command of no operand. -/
def asmF0 (i : Instr) (fs : Fields) : Option Instr := if fs = [] then some i else none

/-- A command of one number field. -/
def asmOne {w : Nat} (make : BitVec w → Instr) (name : String) (fs : Fields) : Option Instr :=
  if onlyFields [name] fs then (bitsField w name [] fs).map make else none

/-- A command of format FN. -/
def asmFN (make : List Byte → Instr) (fs : Fields) : Option Instr :=
  if onlyFields ["data", "n"] fs then (dataField fs).map make else none

/-- A command of format FPS. -/
def asmFPS (fs : Fields) : Option Instr :=
  if onlyFields ["sel", "pid"] fs then do
    let sel ← bitsField 8 "sel" [] fs
    let pid ← bitsField 16 "pid" [] fs
    return .readSstat sel pid
  else none

/-- A command of format FF. -/
def asmFF (fs : Fields) : Option Instr :=
  if onlyFields ["kind", "stype", "small", "video", "pid"] fs then do
    let kind ← bitsField 2 "kind" kindSymbols fs
    let stype ← bitsField 2 "stype" stypeSymbols fs
    let small ← bitsField 1 "small" [] fs
    let video ← bitsField 1 "video" [] fs
    let pid ← bitsField 16 "pid" [] fs
    return .setFilter kind stype (decide (small = 1)) (decide (video = 1)) pid
  else none

/-- A command of format FW. -/
def asmFW (fs : Fields) : Option Instr :=
  if onlyFields ["off", "len"] fs then do
    let off ← bitsField 12 "off" [] fs
    let len ← bitsField 12 "len" [] fs
    return .pbWalk off len
  else none

/-- SET_STREAM (R115). -/
def asmSetStream (fs : Fields) : Option Pseudo :=
  if onlyFields ["pid", "stype"] fs then do
    let stype ← bitsField 2 "stype" stypeSymbols fs
    let pid ← bitsField 16 "pid" [] fs
    return .setStream pid stype
  else none

/-- The commands of R105, R106 and R107, by their mnemonics. -/
def asmCommands : List (String × (Fields → Option Instr)) :=
  [("ADD_PAYLOAD", asmFN .addPayload), ("DISPOSE", asmF0 .dispose), ("RESET_STREAM", asmOne .resetStream "pid"),
   ("DISPOSE_STREAM", asmOne .disposeStream "pid"), ("READ_GSTAT", asmOne .readGstat "sel"), ("READ_SSTAT", asmFPS),
   ("SET_FILTER", asmFF), ("REQUEST_SECTION", asmOne .requestSection "pid"),
   ("REMOVE_FILTER", asmOne .removeFilter "pid"), ("CLEAR_FILTERS", asmF0 .clearFilters),
   ("SET_PCR_SEEN", asmF0 .setPcrSeen)] ++
  [("SB_CLEAR", asmF0 .sbClear), ("SB_APPEND_BYTE", asmOne .sbAppendByte "b"),
   ("SB_APPEND_U16", asmOne .sbAppendU16 "v"), ("SB_APPEND_BYTES", asmFN .sbAppendBytes),
   ("SB_APPEND_LANG", asmFN .sbAppendLang), ("SB_RESERVE", asmF0 .sbReserve), ("SB_BACKFILL", asmOne .sbBackfill "pos"),
   ("SB_TO_BYTES", asmF0 .sbToBytes), ("PB_LOAD", asmFN .pbLoad), ("PB_RD8", asmOne .pbRd8 "off"),
   ("PB_RD16", asmOne .pbRd16 "off"), ("PB_RD12", asmOne .pbRd12 "off"), ("PB_WALK", asmFW)]

/-- The pseudo-commands of one line with named fields (R115). -/
def asmPseudos : List (String × (Fields → Option Pseudo)) :=
  [("SET_RAW", fun fs => if onlyFields ["pid"] fs then (bitsField 16 "pid" [] fs).map .setRaw else none),
   ("SET_SECTION", fun fs => if onlyFields ["pid"] fs then (bitsField 16 "pid" [] fs).map .setSection else none),
   ("SET_STREAM", asmSetStream),
   ("RESET_ALL_FILTERS", fun fs => if fs = [] then some .resetAllFilters else none),
   ("SB_BEGIN_LEN", fun fs => if fs = [] then some .sbBeginLen else none),
   ("SB_END_LEN", fun fs => if onlyFields ["pos"] fs then (bitsField 16 "pos" [] fs).map .sbEndLen else none)]

/-- The commands of a line without prefix and comment: a mnemonic and its fields. PUSH_BYTE takes its byte unnamed (R115).
SB_APPEND_NESTED is no line of its own: its body is (`Pseudo.appendNested`). -/
def asmCommand (cs : List Char) : Option (List Instr) :=
  let mnemonic := cs.takeWhile fun c => !isBlank c
  let rest := cs.dropWhile fun c => !isBlank c
  if mnemonic = "PUSH_BYTE".toList then (listedByte rest).map fun b => (Pseudo.pushByte b).expand
  else
    match fieldsOf rest with
    | none => none
    | some fs =>
      match asmCommands.find? fun x => x.1.toList = mnemonic with
      | some x => (x.2 fs).map fun i => [i]
      | none =>
        match asmPseudos.find? fun x => x.1.toList = mnemonic with
        | some x => (x.2 fs).map Pseudo.expand
        | none => none

/-- The port prefix of a line, and the line without it (R114). -/
def asmPrefix : List Char → Option Port × List Char
  | 'D' :: ':' :: cs => (some .d, cs)
  | 'C' :: ':' :: cs => (some .c, cs)
  | 'S' :: ':' :: cs => (some .s, cs)
  | cs => (none, cs)

/-- A line of assembler text: the port its words are pushed to, which is that of its prefix where it has one and of its
command otherwise, and its commands; no command for a line that is blank or all comment; `none` where it is no line of the
syntax (R114, R115). -/
def assembleLine (line : String) : Option (Option Port × List Instr) :=
  let (port, body) := asmPrefix (trimBlanks (line.toList.takeWhile (· ≠ ';')))
  let body := trimBlanks body
  if body = [] then some (port, [])
  else (asmCommand body).map fun is => (port <|> is.head?.map Instr.port, is)

/-- The words that a line puts on its port (R101, R104, R114). -/
def assembleWords (line : String) : Option (Option Port × List Word) :=
  (assembleLine line).map fun x => (x.1, x.2.flatMap encode)

end Sys2Proof
end

