-- ==== Sys2Proof/Tests/Slice0.lean ====
section
/-! SUPPORT. The model's own tests. Expected results are those of 95_test_vectors.md (a vector is named in the comment of the
test) or worked out by hand from the rules named. After the tests stands, for every statement with hypotheses, a witness:
concrete data that meets them, clause by clause, at the ends of the ranges. -/

namespace Sys2Proof.Tests

open Sys2Proof Sys2Proof.Machine Sys2Proof.Stated

/-! ### Well-formedness: each check refuses an ill-formed command -/

theorem test_unfit_addPayload : (Instr.addPayload (List.replicate 65536 0)).wf = false := by
  rw [Instr.wf, Instr.fits, Instr.data, List.length_replicate]; rfl

theorem test_unfit_sbAppendBytes : (Instr.sbAppendBytes (List.replicate 65536 0)).wf = false := by
  rw [Instr.wf, Instr.fits, Instr.data, List.length_replicate]; rfl

theorem test_unfit_sbAppendLang : (Instr.sbAppendLang (List.replicate 65536 0)).wf = false := by
  rw [Instr.wf, Instr.fits, Instr.data, List.length_replicate]; rfl

theorem test_unfit_pbLoad : (Instr.pbLoad (List.replicate 65536 0)).wf = false := by
  rw [Instr.wf, Instr.fits, Instr.data, List.length_replicate]; rfl

theorem test_fit_addPayload : (Instr.addPayload (List.replicate 65535 0)).wf = true := by
  rw [Instr.wf, Instr.fits, Instr.data, List.length_replicate]; rfl

/-- R111 (c), (d): a reserved kind, a reserved stream type, a stream type on a RAW filter, reserved selectors. -/
theorem test_illegal_codes :
    (Instr.setFilter 3 0 false false 0x100).wf = false ∧ (Instr.setFilter 2 3 false false 0x100).wf = false ∧
    (Instr.setFilter 0 1 false false 0x100).wf = false ∧ (Instr.readGstat 0x07).wf = false ∧
    (Instr.readSstat 0x08 0x100).wf = false ∧ (Instr.setFilter 2 2 true true 0x2000).wf = true ∧
    (Instr.readGstat 0x06).wf = true ∧ (Instr.readSstat 0x07 0x100).wf = true := by decide

/-! ### Decoding: words written out from the formats of R101 -/

/-- CMD_D (R105): FN, F0, FP, FP, FS, FPS. -/
theorem test_decode_data :
    decode .d [0x01000005#32, 0x47410010#32, 0xAB000000#32, 0x02000000#32] =
      .command (.addPayload [0x47, 0x41, 0x00, 0x10, 0xAB]) [0x02000000#32] ∧
    decode .d [0x02000000#32] = .command .dispose [] ∧
    decode .d [0x03000100#32] = .command (.resetStream 0x0100) [] ∧
    decode .d [0x04000100#32] = .command (.disposeStream 0x0100) [] ∧
    decode .d [0x05000004#32] = .command (.readGstat 0x04) [] ∧
    decode .d [0x06050100#32] = .command (.readSstat 0x05 0x0100) [] := by decide

/-- CMD_C (R106): FF with every code and flag set somewhere (V20, V22, V29), FP, F0. -/
theorem test_decode_control :
    decode .c [0x10800100#32] = .command (.setFilter 2 0 false false 0x0100) [] ∧
    decode .c [0x10AC0100#32] = .command (.setFilter 2 2 true true 0x0100) [] ∧
    decode .c [0x10901FFF#32] = .command (.setFilter 2 1 false false 0x1FFF) [] ∧
    decode .c [0x10480200#32] = .command (.setFilter 1 0 true false 0x0200) [] ∧
    decode .c [0x10040200#32] = .command (.setFilter 0 0 false true 0x0200) [] ∧
    decode .c [0x11000011#32] = .command (.requestSection 0x0011) [] ∧
    decode .c [0x12000155#32] = .command (.removeFilter 0x0155) [] ∧
    decode .c [0x13000000#32] = .command .clearFilters [] ∧
    decode .c [0x14000000#32] = .command .setPcrSeen [] := by decide

/-- CMD_S (R107), the section buffer: F0, FB, FH, FN, FQ (P4, V61). -/
theorem test_decode_section :
    decode .s [0x20000000#32] = .command .sbClear [] ∧
    decode .s [0x2100004A#32] = .command (.sbAppendByte 0x4A) [] ∧
    decode .s [0x22001234#32] = .command (.sbAppendU16 0x1234) [] ∧
    decode .s [0x23000003#32, 0xAABBCC00#32] = .command (.sbAppendBytes [0xAA, 0xBB, 0xCC]) [] ∧
    decode .s [0x24000007#32, 0x64657574#32, 0x73636800#32] =
      .command (.sbAppendLang [0x64, 0x65, 0x75, 0x74, 0x73, 0x63, 0x68]) [] ∧
    decode .s [0x25000000#32] = .command .sbReserve [] ∧
    decode .s [0x26000001#32] = .command (.sbBackfill 0x0001) [] ∧
    decode .s [0x27000000#32] = .command .sbToBytes [] := by decide

/-- CMD_S (R107), the parse buffer: FN, FO, FW (V70 to V74, P6). -/
theorem test_decode_parse :
    decode .s [0x30000007#32, 0xF0055803#32, 0xAABBCC00#32] =
      .command (.pbLoad [0xF0, 0x05, 0x58, 0x03, 0xAA, 0xBB, 0xCC]) [] ∧
    decode .s [0x31000FFF#32] = .command (.pbRd8 0xFFF) [] ∧
    decode .s [0x32000006#32] = .command (.pbRd16 0x006) [] ∧
    decode .s [0x33000007#32] = .command (.pbRd12 0x007) [] ∧
    decode .s [0x34009005#32] = .command (.pbWalk 0x009 0x005) [] := by decide

/-- R111 (a), (b): V2, V15, V67, V68, V76, and a reserved bit of an FN word whose data words are consumed. -/
theorem test_decode_illegal :
    decode .d [0x01010000#32] = .illegal .reservedField 0x01 [] ∧
    decode .d [0x05000100#32] = .illegal .reservedField 0x05 [] ∧
    decode .s [0x20000001#32] = .illegal .reservedField 0x20 [] ∧
    decode .s [0x31001000#32] = .illegal .reservedField 0x31 [] ∧
    decode .c [0x10020100#32] = .illegal .reservedField 0x10 [] ∧
    decode .s [0x10800100#32] = .illegal .otherPort 0x10 [] ∧
    decode .s [0x01000005#32, 0x11223344#32, 0x55000000#32, 0x20000000#32] =
      .illegal .otherPort 0x01 [0x20000000#32] ∧
    decode .s [0x30010004#32, 0xAABBCCDD#32, 0x20000000#32] = .illegal .reservedField 0x30 [0x20000000#32] ∧
    decode .s [0xFF000000#32] = .illegal .unknownOpcode 0xFF [] := by decide

/-- R104, R401: an FN command with a data word missing waits. -/
theorem test_decode_waits : decode .d [0x01000005#32, 0x47410010#32] = .wait ∧ decode .d [] = .empty := by decide

/-- R115: the pseudo-commands. -/
theorem test_pseudo :
    (Pseudo.setStream 0x0100 0).expand.map encode = [[0x10800100#32]] ∧
    (Pseudo.setSection 0x0011).expand.map encode = [[0x10400011#32]] ∧
    (Pseudo.pushByte 0x47).expand.map encode = [[0x01000001#32, 0x47000000#32]] ∧
    (Pseudo.appendNested 2 [.sbAppendByte 0x61]).expand.map encode =
      [[0x25000000#32], [0x21000061#32], [0x26000002#32]] := by decide

/-! ### States of the vectors -/

/-- The parameters of 95_test_vectors.md; `L0 L1 L2` is any code, here 0x4C 0x4D 0x4E. -/
def vectorParams : Params :=
  { resyncMode := .stride, videoBytes := defaultVideoBytes, langDefault := ⟨0x4C, 0x4D, 0x4E⟩, capSlack := none }

/-- The start state of the vectors. -/
def start : State := { State.reset with params := vectorParams }

/-- An entry of epoch 0. -/
def entry (k : Consumer) : Entry := { consumer := k, small := false, vhint := false, epoch := 0 }

/-- A reconstructor that has accumulated `buf` and last saw `cc`. -/
def collected (buf : List Byte) (cc : Cc) : Recon :=
  { Recon.fresh with buf := buf, lastCc := some cc, collecting := true }

/-- The state with one entry. -/
def withEntry (p : Pid) (k : Consumer) : State := { start with reg := [(p, entry k)] }

/-- A field of the state a command or a step answers. -/
def after {α : Type} (f : State → α) : Answer State → Option α
  | .next t => some (f t)
  | .fault _ => none
  | .refused _ => none

/-- A packet: header bytes, then the same byte up to 188. -/
def packet (head : List Byte) (b : Byte) : List Byte := head ++ List.replicate (188 - head.length) b

/-! ### CMD_D -/

/-- V4, first chunk: 100 bytes are held in step, and STATUS reads 0x6402. -/
theorem test_addPayload_partial :
    after (fun t => (t.rsp.d, t.pumping, statusReg t)) (exec (.addPayload (List.replicate 100 0x47)) start) =
      some ([0x01000000#32], false, 0x6402#64) := by decide +kernel

/-- V3: a whole packet is not at rest, and no response is out yet. -/
theorem test_addPayload_packet :
    after (fun t => (t.rsp.d, t.pumping, t.pktCount))
      (exec (.addPayload (packet [0x47, 0x02, 0x00, 0x10] 0x00)) start) = some ([], true, 0) := by decide +kernel

/-- V14, V17: DISPOSE drops the registry, clears the carry buffer, and STATUS reads 0x3. -/
theorem test_dispose :
    after (fun t => (t.rsp.d, t.reg, t.carry, statusReg t))
      (exec .dispose { withEntry 0x100 (.stream .audio (collected [0, 0, 1, 0xC0] 0)) with carry := [0x47] }) =
      some ([0x02000000#32], [], [], 3#64) := by decide

/-- V14: after it an ADD_PAYLOAD is refused. -/
theorem test_addPayload_disposed :
    after (fun t => (t.rsp.d, t.carry)) (exec (.addPayload [0x47]) { start with disposed := true }) =
      some ([0x01030000#32], []) := by decide

/-- V48: RESET_STREAM forgets the unit and the counter and keeps the statistics. -/
theorem test_resetStream :
    after (fun t => (t.rsp.d, (t.streamAt 0x100).map fun x => x.2.2))
      (exec (.resetStream 0x0100)
        (withEntry 0x100 (.stream .audio { collected [1, 2] 3 with units := 7, loss := 2 }))) =
      some ([0x03000000#32], some { Recon.fresh with units := 7, loss := 2 }) := by decide

/-- V50: no STREAM entry, no entry, an out-of-range PID. -/
theorem test_resetStream_refused :
    after (fun t => t.rsp.d) (exec (.resetStream 0x0200) (withEntry 0x200 .raw)) = some [0x03040000#32] ∧
    after (fun t => t.rsp.d) (exec (.resetStream 0x0155) (withEntry 0x200 .raw)) = some [0x03040000#32] ∧
    after (fun t => t.rsp.d) (exec (.resetStream 0x2000) (withEntry 0x200 .raw)) = some [0x03010000#32] := by decide

/-- V49: STATE then reads bit 8 set, bits [1:0] = 2 and bits [7:4] = 0. -/
theorem test_disposeStream :
    after (fun t => (t.rsp.d, (t.streamAt 0x100).map fun x => stateReg x.1 x.2.1 x.2.2))
      (exec (.disposeStream 0x0100) (withEntry 0x100 (.stream .audio (collected [0, 0, 1, 0xC0] 0)))) =
      some ([0x04000000#32], some 0x102#64) := by decide

/-- V14, V15: STATUS while disposed; a reserved selector. -/
theorem test_readGstat :
    after (fun t => t.rsp.d) (exec (.readGstat 0x04) { start with disposed := true }) =
      some [0x05000000#32, 0x00000000#32, 0x00000003#32] ∧
    after (fun t => t.rsp.d) (exec (.readGstat 0x07) start) = some [0x05020000#32] := by decide

/-- The high word goes first (R109). -/
theorem test_readGstat_words :
    after (fun t => t.rsp.d) (exec (.readGstat 0x01) { start with skipBytes := 0x0000000123456789#64 }) =
      some [0x05000000#32, 0x00000001#32, 0x23456789#32] := by decide

/-- V29, V51: STATE of a fresh VIDEO entry with both hints; MIN_UNIT before an emission; a reserved selector. -/
theorem test_readSstat :
    after (fun t => t.rsp.d) (exec (.readSstat 0x05 0x0100)
      { start with reg := [(0x100, { consumer := .stream .video Recon.fresh, small := true, vhint := true, epoch := 0 })] }) =
      some [0x06000000#32, 0x00000000#32, 0x00001C00#32] ∧
    after (fun t => t.rsp.d) (exec (.readSstat 0x02 0x0100) (withEntry 0x100 (.stream .audio Recon.fresh))) =
      some [0x06060000#32, 0#32, 0#32] ∧
    after (fun t => t.rsp.d) (exec (.readSstat 0x08 0x0100) (withEntry 0x100 (.stream .audio Recon.fresh))) =
      some [0x06020000#32] := by decide

/-- P1: STATE 0x000000B8_00000023 of a reconstructor that holds 184 bytes and last saw 2. -/
theorem test_readSstat_state :
    after (fun t => t.rsp.d) (exec (.readSstat 0x05 0x0100)
      (withEntry 0x100 (.stream .audio (collected (List.replicate 184 0xCC) 2)))) =
      some [0x06000000#32, 0x000000B8#32, 0x00000023#32] := by decide +kernel

/-! ### CMD_C -/

/-- V20, V21: the first entry has epoch 0; one that replaces it has the next. -/
theorem test_setFilter :
    after (fun t => (t.rsp.c, t.epochNext, t.reg))
      (exec (.setFilter 2 0 false false 0x0100) start) =
      some ([0x10000000#32], 1, [(0x100, entry (.stream .audio Recon.fresh))]) ∧
    after (fun t => (t.rsp.c, t.reg))
      (exec (.setFilter 0 0 false false 0x0100)
        { withEntry 0x100 (.stream .audio Recon.fresh) with epochNext := 1 }) =
      some ([0x10000001#32], [(0x100, { entry .raw with epoch := 1 })]) := by decide

/-- V22, V23, V27: reserved codes, an out-of-range PID, and which status comes first. -/
theorem test_setFilter_refused :
    after (fun t => (t.rsp.c, t.epochNext)) (exec (.setFilter 3 0 false false 0x0100) start) =
      some ([0x10020000#32], 0) ∧
    after (fun t => t.rsp.c) (exec (.setFilter 0 1 false false 0x0100) start) = some [0x10020000#32] ∧
    after (fun t => t.rsp.c) (exec (.setFilter 2 3 false false 0x0100) start) = some [0x10020000#32] ∧
    after (fun t => (t.rsp.c, t.reg, t.epochNext)) (exec (.setFilter 2 0 false false 0x2000) start) =
      some ([0x10010000#32], [], 0) ∧
    after (fun t => t.rsp.c) (exec (.setFilter 3 0 false false 0x0100) { start with disposed := true }) =
      some [0x10020000#32] ∧
    after (fun t => t.rsp.c) (exec (.setFilter 2 0 false false 0x2000) { start with disposed := true }) =
      some [0x10030000#32] := by decide

/-- V26. -/
theorem test_requestSection :
    after (fun t => (t.rsp.c, t.reg)) (exec (.requestSection 0x0011) start) =
      some ([0x11000000#32], [(0x11, entry .sect)]) := by decide

/-- V24, V30: removing a PID without an entry is accepted; an out-of-range PID is not. -/
theorem test_removeFilter :
    after (fun t => (t.rsp.c, t.reg)) (exec (.removeFilter 0x0155) start) = some ([0x12000000#32], []) ∧
    after (fun t => (t.rsp.c, t.reg)) (exec (.removeFilter 0x0100) (withEntry 0x100 .raw)) =
      some ([0x12000000#32], []) ∧
    after (fun t => t.rsp.c) (exec (.removeFilter 0x2000) start) = some [0x12010000#32] := by decide

/-- V25: FILTER_COUNT goes to 0 and EPOCH_NEXT stays. -/
theorem test_clearFilters :
    after (fun t => (t.rsp.c, filterCount t, t.epochNext))
      (exec .clearFilters { start with reg := [(0x200, entry .raw), (0x300, entry .raw)], epochNext := 2 }) =
      some ([0x13000000#32], 0, 2) := by decide

/-- V27, V28: STATUS then reads 0x6; refused after DISPOSE. -/
theorem test_setPcrSeen :
    after (fun t => (t.rsp.c, statusReg t)) (exec .setPcrSeen start) = some ([0x14000000#32], 6#64) ∧
    after (fun t => t.rsp.c) (exec .setPcrSeen { start with disposed := true }) = some [0x14030000#32] := by decide

/-! ### CMD_S, the section buffer -/

/-- P4, step by step. -/
theorem test_section_append :
    after (fun t => (t.rsp.s, t.sb)) (exec .sbClear { start with sb := [1, 2] }) = some ([0x20000000#32], []) ∧
    after (fun t => (t.rsp.s, t.sb)) (exec (.sbAppendByte 0x4A) start) = some ([0x21000000#32], [0x4A]) ∧
    after (fun t => (t.rsp.s, t.sb)) (exec .sbReserve { start with sb := [0x4A] }) =
      some ([0x25000001#32], [0x4A, 0x00]) ∧
    after (fun t => (t.rsp.s, t.sb)) (exec (.sbAppendU16 0x1234) { start with sb := [0x4A, 0x00] }) =
      some ([0x22000000#32], [0x4A, 0x00, 0x12, 0x34]) ∧
    after (fun t => (t.rsp.s, t.sb)) (exec (.sbAppendBytes [0x61, 0x62]) { start with sb := [0x48] }) =
      some ([0x23000000#32], [0x48, 0x61, 0x62]) := by decide

/-- V61: "deutsch" is cut, "e" is padded, the empty code is the default. -/
theorem test_sbAppendLang :
    after (fun t => t.sb) (exec (.sbAppendLang [0x64, 0x65, 0x75, 0x74, 0x73, 0x63, 0x68]) start) =
      some [0x64, 0x65, 0x75] ∧
    after (fun t => t.sb) (exec (.sbAppendLang [0x65]) start) = some [0x65, 0x20, 0x20] ∧
    after (fun t => t.sb) (exec (.sbAppendLang [0x64, 0x65]) start) = some [0x64, 0x65, 0x20] ∧
    after (fun t => t.sb) (exec (.sbAppendLang []) start) = some [0x4C, 0x4D, 0x4E] := by decide

/-- P4, V62, V63: the count of bytes after the slot; a slot beyond the buffer; the last byte. -/
theorem test_sbBackfill :
    after (fun t => (t.rsp.s, t.sb))
      (exec (.sbBackfill 1) { start with sb := [0x4A, 0x00, 0x12, 0x34, 0x64, 0x65, 0x20] }) =
      some ([0x26000000#32], [0x4A, 0x05, 0x12, 0x34, 0x64, 0x65, 0x20]) ∧
    after (fun t => (t.rsp.s, t.sb)) (exec (.sbBackfill 2) { start with sb := [0x4A, 0x00] }) =
      some ([0x26010000#32], [0x4A, 0x00]) ∧
    after (fun t => (t.rsp.s, t.sb)) (exec (.sbBackfill 1) { start with sb := [0x4A, 0x07] }) =
      some ([0x26000000#32], [0x4A, 0x00]) := by decide

/-- V64: a count of 300 is cut to 0x2C. -/
theorem test_sbBackfill_wraps :
    after (fun t => (t.rsp.s, t.sb.head?)) (exec (.sbBackfill 0) { start with sb := List.replicate 301 0 }) =
      some ([0x26000000#32], some 0x2C) := by decide +kernel

/-- P4, V66. -/
theorem test_sbToBytes :
    after (fun t => t.rsp.s) (exec .sbToBytes { start with sb := [0x4A, 0x05, 0x12, 0x34, 0x64, 0x65, 0x20] }) =
      some [0x27000007#32, 0x4A051234#32, 0x64652000#32] ∧
    after (fun t => t.rsp.s) (exec .sbToBytes start) = some [0x27000000#32] := by decide

/-- V65: at a full buffer each append is refused whole. -/
theorem test_section_capacity (sb : List Byte) (h : sb.length = 65535) :
    exec (.sbAppendByte 0) { start with sb := sb } = .next (State.post { start with sb := sb } .s [0x21070000#32]) := by
  rw [exec, execSbAppendByte, sbAppend, if_pos (by simp [h, sbCap])]
  rfl

/-! ### CMD_S, the parse buffer -/

/-- The buffer of V70 to V76. -/
def parsed : State := { start with pb := [0xF0, 0x05, 0x58, 0x03, 0xAA, 0xBB, 0xCC] }

/-- V70, V71. -/
theorem test_pbRd :
    after (fun t => t.rsp.s) (exec (.pbRd8 2) parsed) = some [0x31000058#32] ∧
    after (fun t => t.rsp.s) (exec (.pbRd16 0) parsed) = some [0x3200F005#32] ∧
    after (fun t => t.rsp.s) (exec (.pbRd12 0) parsed) = some [0x33000005#32] ∧
    after (fun t => t.rsp.s) (exec (.pbRd8 6) parsed) = some [0x310000CC#32] ∧
    after (fun t => t.rsp.s) (exec (.pbRd8 7) parsed) = some [0x31010000#32] ∧
    after (fun t => t.rsp.s) (exec (.pbRd16 6) parsed) = some [0x32010000#32] ∧
    after (fun t => t.rsp.s) (exec (.pbRd12 6) parsed) = some [0x33010000#32] := by decide

/-- R330, P6. -/
theorem test_pbLoad :
    after (fun t => (t.rsp.s, t.pb)) (exec (.pbLoad [0x5A, 0x01]) parsed) = some ([0x30000000#32], [0x5A, 0x01]) := by
  decide

/-- V75: 4097 bytes are refused and the buffer stays. -/
theorem test_pbLoad_capacity :
    after (fun t => (t.rsp.s, t.pb.length)) (exec (.pbLoad (List.replicate 4097 0)) parsed) =
      some ([0x30070000#32], 7) := by
  rw [exec, execPbLoad, if_pos (by rw [List.length_replicate]; decide)]
  decide

/-- V72, V73, V74. -/
theorem test_pbWalk :
    after (fun t => t.rsp.s) (exec (.pbWalk 0 0) parsed) = some [0x34000000#32] ∧
    after (fun t => t.rsp.s) (exec (.pbWalk 2 5) parsed) = some [0x34000001#32, 0x58030004#32] ∧
    after (fun t => t.rsp.s) (exec (.pbWalk 2 4) parsed) = some [0x34050000#32] ∧
    after (fun t => t.rsp.s) (exec (.pbWalk 2 6) parsed) = some [0x34010000#32] := by decide

/-- V78, V79, P6: a descriptor and a remainder of one byte; a byte outside the list; an offset of 11. -/
theorem test_pbWalk_lists :
    after (fun t => t.rsp.s) (exec (.pbWalk 0 3) { start with pb := [0x58, 0x00, 0x77] }) =
      some [0x34050001#32, 0x58000002#32] ∧
    after (fun t => t.rsp.s) (exec (.pbWalk 0 3) { start with pb := [0x5A, 0x01, 0xFF, 0x00] }) =
      some [0x34000001#32, 0x5A010002#32] ∧
    after (fun t => t.rsp.s) (exec (.pbWalk 9 5) { start with
      pb := [0xA0, 0xA1, 0xA2, 0xA3, 0xA4, 0xA5, 0xA6, 0xF0, 0x05, 0x58, 0x03, 0x61, 0x62, 0x63] }) =
      some [0x34000001#32, 0x5803000B#32] := by decide

/-! ### The pump -/

/-- A state that runs an ADD_PAYLOAD and holds `carry`. -/
def pumpingOn (s : State) (carry : List Byte) : State :=
  { s with carry := carry, pumping := true, schedule := [.engine .d] }

/-- P3, V4: a packet on a RAW filter is forwarded as it stands, and the response follows in the same step. -/
theorem test_pump_raw :
    after (fun t => (t.out, t.pktCount, t.carry, t.rsp.d))
      (step (pumpingOn (withEntry 0x200 .raw) (packet [0x47, 0x02, 0x00, 0x10] 0x55))) =
      some ([.raw 0x200 0 (List.replicate 184 0x55) false 0 false], 1, [], [0x01000000#32]) := by decide +kernel

/-- V11: a packet without payload is forwarded with noinc = 1; V13: TEI has no effect. -/
theorem test_pump_noinc :
    after (fun t => t.out) (step (pumpingOn (withEntry 0x300 .raw) (packet [0x47, 0x03, 0x00, 0x27, 0x00] 0xFF))) =
      some [.raw 0x300 0 [] false 7 true] ∧
    after (fun t => t.out) (step (pumpingOn (withEntry 0x300 .raw) (packet [0x47, 0x83, 0x00, 0x10] 0x00))) =
      some [.raw 0x300 0 (List.replicate 184 0x00) false 0 false] := by decide +kernel

/-- V12: a packet on the null PID is never delivered; V26: a SECT event. -/
theorem test_pump_null :
    after (fun t => (t.out, t.unroutedCount))
      (step (pumpingOn (withEntry 0x1FFF .raw) (packet [0x47, 0x1F, 0xFF, 0x10] 0x00))) = some ([], 1) ∧
    after (fun t => (t.out, t.unroutedCount))
      (step (pumpingOn (withEntry 0x011 .sect) (packet [0x47, 0x40, 0x11, 0x10] 0x42))) =
      some ([.sect 0x011 0 (List.replicate 184 0x42) true 0 false], 0) := by decide +kernel

/-- V9: after the junk byte, 188 bytes are held in SCAN and the response goes out; STATUS reads 0xBC00. With
RESYNC_MODE = SINGLE the pump has a step left. -/
theorem test_pump_resync :
    after (fun t => (t.skipBytes, t.resyncCount, statusReg t, t.rsp.d, t.pumping))
      (step (pumpingOn start (0x00#8 :: packet [0x47, 0x02, 0x00, 0x10] 0x55))) =
      some (1, 1, 0xBC00#64, [0x01000000#32], false) ∧
    after (fun t => (t.skipBytes, t.rsp.d, t.pumping))
      (step (pumpingOn { start with params := { vectorParams with resyncMode := .single } }
        (0x00#8 :: packet [0x47, 0x02, 0x00, 0x10] 0x55))) = some (1, [], true) := by decide +kernel

/-- P1: the PUSI packet C ends the unit; the emitted unit is what had been accumulated. -/
theorem test_pump_unit :
    after (fun t => (t.out, (t.streamAt 0x100).map fun x => (x.2.2.units, x.2.2.bytes, x.2.2.minUnit)))
      (step (pumpingOn (withEntry 0x100 (.stream .audio (collected [0x00, 0x00, 0x01, 0xC0, 0xAA] 1)))
        (packet [0x47, 0x41, 0x00, 0x12, 0x00, 0x00, 0x01, 0xC0] 0xCC))) =
      some ([.unit 0x100 0 [0x00, 0x00, 0x01, 0xC0, 0xAA]], some (1, 5, some 5)) := by decide +kernel

/-! ### The reconstructor -/

/-- V41, V42: 15 to 0 is no gap, 0 to 3 is one; a repeated counter is ignored whole. -/
theorem test_deliver_continuity :
    ((collected [1] 15).deliver vectorParams .audio false [2] false 0 false) = (collected [1, 2] 0, none) ∧
    ((collected [1] 0).deliver vectorParams .audio false [2] false 3 false) =
      ({ collected [1, 2] 3 with loss := 1 }, none) ∧
    ((collected [1] 1).deliver vectorParams .audio false [2] true 1 false) = (collected [1] 1, none) := by decide

/-- V43, V44, V46: a packet while Idle sets the counter; a unit of another type is discarded; the start code may span
packets. -/
theorem test_deliver_units :
    (Recon.fresh.deliver vectorParams .audio false [2] false 5 false) =
      ({ Recon.fresh with lastCc := some 5 }, none) ∧
    ((collected [0, 0, 1, 0xE0] 0).deliver vectorParams .audio false [9] true 1 false) = (collected [9] 1, none) ∧
    ((collected [0, 0] 0).deliver vectorParams .audio false [1, 0xC0, 0xDD] false 1 false) =
      (collected [0, 0, 1, 0xC0, 0xDD] 1, none) := by decide

/-- V45: before the PCR report a subtitle unit is dropped without a trace; after it, it is emitted. -/
theorem test_deliver_subtitle :
    ((collected [0, 0, 1, 0xBD] 0).deliver vectorParams .subtitle false [9] true 1 false) = (collected [9] 1, none) ∧
    ((collected [0, 0, 1, 0xBD] 0).deliver vectorParams .subtitle true [9] true 1 false).2 =
      some [0, 0, 1, 0xBD] := by decide

/-- V52: an append beyond UNIT_CAP = 200 drops the unit and counts it. -/
theorem test_deliver_overflow :
    ((collected (List.replicate 184 0) 0).deliver { vectorParams with capSlack := some 16 } .audio false
      (List.replicate 17 0) false 1 false) =
      ({ Recon.fresh with lastCc := some 1, overflow := 1 }, none) ∧
    ((collected (List.replicate 184 0) 0).deliver { vectorParams with capSlack := some 16 } .audio false
      (List.replicate 16 0) false 1 false).1.buf.length = 200 := by decide +kernel

/-- V53: VIDEO under the default predicate. -/
theorem test_video_predicate :
    validStart vectorParams .video [0, 0, 1, 0xE0] = true ∧ validStart vectorParams .video [0, 0, 1, 0xEF] = true ∧
    validStart vectorParams .video [0, 0, 1, 0xC0] = false ∧ validStart vectorParams .audio [0, 0, 1, 0xDF] = true ∧
    validStart vectorParams .audio [0, 0, 1, 0xE0] = false ∧ validStart vectorParams .audio [0, 0, 1] = false := by
  decide

/-! ### Steps -/

/-- V67: a word with a reserved bit is consumed and answered ILLEGAL; V68: so is a foreign FN command with its data. -/
theorem test_step_illegal :
    after (fun t => (t.cmd.s, t.rsp.s))
      (step { start with cmd := { d := [], c := [], s := [0x21000100#32, 0x20000000#32] } }) =
      some ([0x20000000#32], [0x21020000#32]) ∧
    after (fun t => (t.cmd.s, t.rsp.s))
      (step { start with cmd := { d := [], c := [], s := [0x01000005#32, 0x11223344#32, 0x55000000#32] } }) =
      some ([], [0x01020000#32]) := by decide

/-- The host pushes a word and pops a response (R7). -/
theorem test_step_host :
    after (fun t => t.cmd.c) (step { start with schedule := [.host (.push .c 0x14000000#32)] }) =
      some [0x14000000#32] ∧
    after (fun t => t.rsp.c) (step { start with
      rsp := { d := [], c := [0x14000000#32, 0x13000000#32], s := [] }, schedule := [.host (.popResponse .c)] }) =
      some [0x13000000#32] := by decide

/-- A word that stands for a row of the opcode table runs as the first command after reset. -/
theorem test_withFetchWord :
    after (fun t => (t.rsp.c, t.epochNext)) (step (State.reset.withFetchWord 32 0x10800100)) =
      some ([0x10000000#32], 1) := by decide

/-! ### Assembler text (R114, R115), on lines of 95_test_vectors.md -/

theorem test_assemble :
    assembleWords "C: SET_FILTER pid=0x0100, kind=STREAM, stype=VIDEO, small=1, video=1" = some (some .c, [0x10AC0100#32]) ∧
    assembleWords "D: READ_SSTAT sel=5, pid=0x0100   ; STATE" = some (some .d, [0x06050100#32]) ∧
    assembleWords "S: PB_WALK off=2, len=5" = some (some .s, [0x34002005#32]) ∧
    assembleWords "S: PB_LOAD data=[0x58, 0x00, 119]" = some (some .s, [0x30000003#32, 0x58007700#32]) ∧
    assembleWords "D: ADD_PAYLOAD n=0" = some (some .d, [0x01000000#32]) ∧
    assembleWords "PUSH_BYTE 0x47" = some (some .d, [0x01000001#32, 0x47000000#32]) ∧
    assembleWords "C: REMOVE_FILTER pid=0x10000" = none ∧ assembleWords "S: SB_CLEAR b=1" = none := by decide +kernel

/-! ## Witnesses: data that meets the hypotheses of each statement -/

/-! ### Reset, invariant, steps -/

theorem witness_ResetInputTakesAnyStateToReset :
    ∃ (s : State) (rest : List Turn), s.schedule = .host .reset :: rest :=
  ⟨{ start with schedule := [.host .reset] }, [], rfl⟩

/-- A state with an entry, bytes held and an ADD_PAYLOAD in execution meets the invariant. -/
theorem witness_inv :
    State.Inv { withEntry 0x100 (.stream .audio (collected [0, 0, 1, 0xC0] 0)) with carry := [0x00], sync := .scan, pumping := true } where
  regWf := by simp [withEntry]
  reconSound := by
    intro x hx
    simp only [withEntry, List.mem_singleton] at hx
    subst hx
    show Recon.Sound _ _
    refine ⟨by decide, by decide, ?_, by simp [collected, Recon.fresh]⟩
    simp [withEntry, start, vectorParams, Params.holds, Params.unitCap]
  sbBound := by simp [withEntry, start, State.reset]
  pbBound := by simp [withEntry, start, State.reset]
  pumpingBusy := by decide
  disposedEmpty := by simp [withEntry, start, State.reset]

theorem witness_StepKeepsInvariant : ∃ s t : State, s.Inv ∧ step s = .next t := ⟨_, _, witness_inv, rfl⟩

/-- A scheduled engine, an engine that alone has a step, and an illegal word. -/
theorem witness_StepRunsWhatTheDecoderReads :
    (∃ (s : State) (p : Port) (turns : List Turn) (i : Instr) (rest : List Word),
      s.schedule = .engine p :: turns ∧ (p = .d → s.pumping = false) ∧ decode p (s.cmd.get p) = .command i rest) ∧
    (∃ (s : State) (p : Port) (i : Instr) (rest : List Word),
      s.schedule = [] ∧ s.ready = [p] ∧ (p = .d → s.pumping = false) ∧ decode p (s.cmd.get p) = .command i rest) ∧
    (∃ (s : State) (p : Port) (turns : List Turn) (why : Rejection) (op : BitVec 8) (rest : List Word),
      s.schedule = .engine p :: turns ∧ (p = .d → s.pumping = false) ∧
        decode p (s.cmd.get p) = .illegal why op rest) :=
  ⟨⟨{ start with cmd := { d := [0x02000000#32], c := [], s := [] }, schedule := [.engine .d] }, .d, [], .dispose, [],
      rfl, by decide, by decide⟩,
    ⟨{ start with cmd := { d := [], c := [], s := [0x20000000#32] } }, .s, .sbClear, [], rfl, by decide, by decide,
      by decide⟩,
    ⟨{ start with cmd := { d := [], c := [0xFF000000#32], s := [] }, schedule := [.engine .c] }, .c, [],
      .unknownOpcode, 0xFF, [], rfl, by decide, by decide⟩⟩

/-- One byte to discard, and the pump is at rest; two, and it is not. -/
theorem witness_EngineStepOfAnAddPayloadIsOnePumpStep :
    (∃ (s : State) (turns : List Turn) (t : State),
      s.schedule = .engine .d :: turns ∧ s.pumping = true ∧ ¬ Quiet s.params.resyncMode s.sync s.carry ∧
        t = State.pumpStep { s with schedule := turns } ∧ Quiet t.params.resyncMode t.sync t.carry) ∧
    (∃ (s : State) (turns : List Turn) (t : State),
      s.schedule = .engine .d :: turns ∧ s.pumping = true ∧ ¬ Quiet s.params.resyncMode s.sync s.carry ∧
        t = State.pumpStep { s with schedule := turns } ∧ ¬ Quiet t.params.resyncMode t.sync t.carry) :=
  ⟨⟨pumpingOn { start with sync := .scan } [0x00], [], _, rfl, rfl, by simp [Quiet, pumpingOn], rfl,
      .inr (.inl ⟨rfl, rfl⟩)⟩,
    ⟨pumpingOn { start with sync := .scan } [0x00, 0x00], [], _, rfl, rfl, by simp [Quiet, pumpingOn], rfl,
      by simp [Quiet, State.pumpStep, State.skipByte, pumpingOn, syncByte]⟩⟩

theorem witness_DisposedAndPcrSeenStaySetUntilReset :
    ∃ s t : State, step s = .next t ∧ (∀ rest, s.schedule ≠ .host .reset :: rest) ∧ s.disposed = true ∧
      s.pcrSeen = true :=
  ⟨{ start with disposed := true, pcrSeen := true, schedule := [.host .popEvent] }, _, rfl, by simp, rfl, rfl⟩

theorem witness_EngineStepAppendsAtMostOneEvent :
    ∃ s t : State, step s = .next t ∧ ∀ a rest, s.schedule ≠ .host a :: rest :=
  ⟨pumpingOn (withEntry 0x200 .raw) [0x47], _, rfl, by simp [pumpingOn]⟩

/-- A step that emits a SUBTITLE unit, and one that emits an AUDIO unit. -/
theorem witness_UnitEventsBeginWithTheirStartCode :
    (∃ (s t : State) (evs : List Event) (b : List Byte),
      step s = .next t ∧ t.out = s.out ++ evs ∧ Event.unit 0x100 0 b ∈ evs) ∧
    (∃ (s t : State) (evs : List Event) (b : List Byte), s.pcrSeen = true ∧
      step s = .next t ∧ t.out = s.out ++ evs ∧ Event.unit 0x120 0 b ∈ evs) :=
  ⟨⟨pumpingOn (withEntry 0x100 (.stream .audio (collected [0, 0, 1, 0xC0] 1))) (packet [0x47, 0x41, 0x00, 0x12] 0xCC),
      _, [.unit 0x100 0 [0, 0, 1, 0xC0]], [0, 0, 1, 0xC0], rfl, by decide +kernel, by simp⟩,
    ⟨pumpingOn { withEntry 0x120 (.stream .subtitle (collected [0, 0, 1, 0xBD] 1)) with pcrSeen := true }
        (packet [0x47, 0x41, 0x20, 0x12] 0xCC),
      _, [.unit 0x120 0 [0, 0, 1, 0xBD]], [0, 0, 1, 0xBD], rfl, rfl, by decide +kernel, by simp⟩⟩

/-! ### All commands -/

theorem witness_EveryCommandAnswersOnItsOwnPort :
    ∃ (i : Instr) (s t : State), exec i s = .next t ∧ ∀ data, i ≠ .addPayload data :=
  ⟨.sbClear, start, _, rfl, by simp⟩

theorem witness_RefusalsArePrecise :
    ∃ (i : Instr) (s t : State) (op : BitVec 8) (st : Status) (v : BitVec 16) (ds : List Word),
      exec i s = .next t ∧ t.rsp.get i.port = s.rsp.get i.port ++ responseWord op st v :: ds ∧ refusal st = true :=
  ⟨.sbBackfill 0, start, _, 0x26, .contract, 0, [], rfl, rfl, rfl⟩

theorem witness_ResponseWordLayout :
    (Status.capacity, 0x07) ∈ [(Status.ok, 0x00), (.contract, 0x01), (.illegal, 0x02), (.disposed, 0x03),
      (.notStream, 0x04), (.invalid, 0x05), (.none, 0x06), (.capacity, 0x07)] := by decide

theorem witness_DisposedRefusesDataAndControlCommands :
    (∃ (i : Instr) (s : State), s.disposed = true ∧ i.port ≠ .s ∧ i ≠ .dispose ∧ (∀ sel, i ≠ .readGstat sel) ∧
      i.legal = true) ∧
    (∃ (i : Instr) (s t : State), i.port = .s ∧ exec i s = .next t) :=
  ⟨⟨.readSstat 0x07 0x100, { start with disposed := true }, rfl, by decide, by decide, by simp, by decide⟩,
    ⟨.sbClear, start, _, rfl, rfl⟩⟩

theorem witness_ReadCommandsChangeOnlyTheirResponsePort :
    ReadsOnly (.readGstat 0xFF) ∧ ReadsOnly (.readSstat 0 0xFFFF) ∧ ReadsOnly .sbToBytes ∧ ReadsOnly (.pbRd8 0) ∧
      ReadsOnly (.pbRd16 0xFFF) ∧ ReadsOnly (.pbRd12 0xFFF) ∧ ReadsOnly (.pbWalk 0xFFF 0xFFF) := by
  simp [ReadsOnly]

theorem witness_OnlyThePumpEmitsEvents : ∃ (i : Instr) (s t : State), exec i s = .next t := ⟨.sbClear, start, _, rfl⟩

theorem witness_SectionEngineCommutesWithTheOthers :
    (∃ i j : Instr, i.port = .s ∧ j.port ≠ .s) ∧ ∃ i : Instr, i.port = .s :=
  ⟨⟨.sbClear, .dispose, rfl, by decide⟩, .sbClear, rfl⟩

/-! ### Encoding -/

/-- A word of any opcode, and for each byte count the data words that follow it. -/
theorem witness_OneWord_and_Counted (op : BitVec 8) (n : BitVec 16) :
    ∃ (w : Word) (ds : List Word), w.extractLsb' 24 8 = op ∧ w.extractLsb' 0 16 = n ∧
      ds.length = ((w.extractLsb' 0 16).toNat + 3) / 4 :=
  ⟨wordLow16 op n, List.replicate ((n.toNat + 3) / 4) 0, opField_wordLow16 op n, lowHalf_wordLow16 op n, by
    rw [show (wordLow16 op n).extractLsb' 0 16 = n from lowHalf_wordLow16 op n, List.length_replicate]⟩

theorem witness_ForeignOpcodesAreIllegalAndKeepFraming :
    ((0xFF000000#32).extractLsb' 24 8).toNat ∉ [0x01, 0x02, 0x03, 0x04, 0x05, 0x06, 0x10, 0x11, 0x12, 0x13, 0x14, 0x20,
      0x21, 0x22, 0x23, 0x24, 0x25, 0x26, 0x27, 0x30, 0x31, 0x32, 0x33, 0x34] ∧
    (∃ (p : Port) (w : Word) (i : Instr) (ds : List Word), i.port ≠ p ∧ w.extractLsb' 24 8 = i.opcode ∧
      ds.length = (if i.opcode.toNat ∈ [0x01, 0x23, 0x24, 0x30] then ((w.extractLsb' 0 16).toNat + 3) / 4 else 0)) ∧
    (∃ (p : Port) (w : Word) (i : Instr) (ds : List Word), i.port ≠ p ∧ w.extractLsb' 24 8 = i.opcode ∧
      ds.length = (if i.opcode.toNat ∈ [0x01, 0x23, 0x24, 0x30] then ((w.extractLsb' 0 16).toNat + 3) / 4 else 0) ∧
      ds ≠ []) :=
  ⟨by decide, ⟨.s, 0x10800100#32, .setFilter 2 0 false false 0x100, [], by decide, by decide, by decide⟩,
    ⟨.s, 0x01000005#32, .addPayload [], [0, 0], by decide, by decide, by decide, by decide⟩⟩

/-- The largest byte count of the encoding. -/
theorem witness_DecodeOfEncodeGivesTheCommand : (Instr.pbLoad (List.replicate 65535 0)).fits = true := by
  rw [Instr.fits, Instr.data, List.length_replicate]; rfl

theorem witness_DecodedWordsAreTheCommandsOwn :
    decode .s [0x23000005#32, 0xAABBCCDD#32, 0xEE123456#32, 0x20000000#32] =
      .command (.sbAppendBytes [0xAA, 0xBB, 0xCC, 0xDD, 0xEE]) [0x20000000#32] := by decide

theorem witness_PackedBytesUnpack :
    (pack [1, 2, 3, 4, 5])[0 / 4]? = some 0x01020304#32 ∧ (pack [1, 2, 3, 4, 5])[7 / 4]? = some 0x05000000#32 ∧
    [0x01020304#32, 0x05FFFFFF#32].length = (5 + 3) / 4 ∧
    [0x01020304#32, 0x05FFFFFF#32][4 / 4]? = some 0x05FFFFFF#32 := by decide

/-! ### The pump -/

/-- One witness a clause; 188 bytes is the least carry of the first two, 189 that of the fifth. -/
theorem witness_PumpStepIsAsTheRuleSays :
    (∃ s : State, s.carry = 0x47 :: List.replicate 187 0 ∧ s.sync = .inSync ∧ 188 ≤ s.carry.length) ∧
    (∃ s : State, s.carry = 0x00 :: List.replicate 187 0 ∧ s.sync = .inSync ∧ 188 ≤ s.carry.length) ∧
    (∃ s : State, s.carry = 0x00 :: [] ∧ s.sync = .scan) ∧
    (∃ s : State, s.carry = 0x47 :: [] ∧ s.sync = .scan ∧ s.params.resyncMode = .single) ∧
    (∃ s : State, s.carry = 0x47 :: (List.replicate 187 0 ++ [0x47]) ∧ s.sync = .scan ∧
      s.params.resyncMode = .stride ∧ s.carry[188]? = some 0x47#8) ∧
    (∃ s : State, s.carry = 0x47 :: (List.replicate 187 0 ++ [0x46]) ∧ s.sync = .scan ∧
      s.params.resyncMode = .stride ∧ s.carry[188]? = some 0x46#8) :=
  ⟨⟨{ start with carry := 0x47 :: List.replicate 187 0 }, rfl, rfl, by simp [-List.reduceReplicate]⟩,
    ⟨{ start with carry := 0x00 :: List.replicate 187 0 }, rfl, rfl, by simp [-List.reduceReplicate]⟩,
    ⟨{ start with carry := [0x00], sync := .scan }, rfl, rfl⟩,
    ⟨{ start with carry := [0x47], sync := .scan, params := { vectorParams with resyncMode := .single } }, rfl, rfl, rfl⟩,
    ⟨{ start with carry := 0x47 :: (List.replicate 187 0 ++ [0x47]), sync := .scan }, rfl, rfl, rfl, by decide +kernel⟩,
    ⟨{ start with carry := 0x47 :: (List.replicate 187 0 ++ [0x46]), sync := .scan }, rfl, rfl, rfl, by decide +kernel⟩⟩

/-- One witness a clause; 183 is the greatest adaptation field length, 184 the first that is malformed. -/
theorem witness_PacketIsDecodedAndRouted :
    (List.replicate 183 (0 : Byte)).length = 183 ∧ (0x10#8).toNat / 16 % 4 = 1 ∧
    ((0x3F#8).toNat / 16 % 4 = 3 ∧ (183#8).toNat ≤ 183) ∧ ((0x30#8).toNat / 16 % 4 = 3 ∧ 183 < (184#8).toNat) ∧
    (0xE0#8).toNat / 16 % 4 = 2 ∧ (0xC0#8).toNat / 16 % 4 = 0 := by
  refine ⟨List.length_replicate, ?_⟩
  decide

theorem witness_UnusedHeaderBitsMakeNoDifference :
    (0xE2#8) &&& 0x5F#8 = 0x42#8 &&& 0x5F#8 ∧ (0xD0#8) &&& 0x3F#8 = 0x10#8 &&& 0x3F#8 := by decide

/-- The null PID, a PID without an entry, and one entry of each kind on the greatest PID that is routed. -/
theorem witness_RoutingIsAsTheRuleSays :
    Registry.lookup 0x1FFE start.reg = none ∧
    (∀ k, (0x1FFE#13) ≠ 0x1FFF#13 ∧ Registry.lookup 0x1FFE (withEntry 0x1FFE k).reg = some (entry k)) ∧
    (entry .raw).consumer = .raw ∧ (entry .sect).consumer = .sect ∧
    (entry (.stream .audio Recon.fresh)).consumer = .stream .audio Recon.fresh :=
  ⟨rfl, fun _ => ⟨by decide, rfl⟩, rfl, rfl, rfl⟩

theorem witness_PumpIsQuiescentWithinItsBound : 2 * { start with carry := [0x47] }.carry.length + 1 ≤ 3 := by decide

theorem witness_AddPayloadRunsToItsResponse :
    ∃ (s : State) (data : List Byte), data.length ≤ 65535 ∧ s.schedule = [] ∧ s.pumping = false ∧ s.disposed = false ∧
      s.cmd.d = encode (.addPayload data) ∧ s.cmd.c = [] ∧ s.cmd.s = [] :=
  ⟨{ start with cmd := { d := encode (.addPayload (List.replicate 65535 0)), c := [], s := [] } },
    List.replicate 65535 0, by rw [List.length_replicate], rfl, rfl, rfl, rfl, rfl, rfl⟩

theorem witness_ResynchronisationLosesOnlyTheJunk :
    ∃ (s : State) (junk : List Byte) (pkts : List (List Byte)) (rest : List Byte),
      s.params.resyncMode = .stride ∧ s.sync = .inSync ∧ junk ≠ [] ∧ 0x47#8 ∉ junk ∧ 2 ≤ pkts.length ∧
      (∀ pkt ∈ pkts, pkt.length = 188 ∧ pkt[0]? = some 0x47#8) ∧ s.carry = junk ++ pkts.flatten ++ rest :=
  ⟨{ start with carry := [0x00] ++ [packet [0x47, 0x02, 0x00, 0x10] 0x55, packet [0x47, 0x02, 0x00, 0x11] 0x56].flatten
      ++ [] }, [0x00], [packet [0x47, 0x02, 0x00, 0x10] 0x55, packet [0x47, 0x02, 0x00, 0x11] 0x56], [],
    rfl, rfl, by decide, by decide, by decide, by
      intro pkt h
      simp only [List.mem_cons, List.not_mem_nil, or_false] at h
      rcases h with rfl | rfl <;> exact ⟨by simp [-List.reduceReplicate, packet], rfl⟩, rfl⟩

/-! ### The reconstructor -/

/-- One witness a clause; the counter wraps from 15 to 0. -/
theorem witness_DeliveryChecksContinuity :
    (Recon.fresh.disposeState.disposed = true) ∧
    (Recon.fresh.disposed = false ∧ Recon.fresh.lastCc = none) ∧
    ((collected [] 15).disposed = false ∧ (collected [] 15).lastCc = some 15 ∧
      (0#4).toNat = ((15#4).toNat + 1) % 16) ∧
    ((collected [] 15).lastCc = some 15 ∧ (1#4) ≠ 15#4 ∧ (1#4).toNat ≠ ((15#4).toNat + 1) % 16) := by decide

/-- A collecting reconstructor of 184 bytes: 16 more fit UNIT_CAP = 200, 17 do not. -/
theorem witness_ProcessedPacketBuildsTheUnit :
    Recon.fresh.collecting = false ∧ (collected (List.replicate 184 0) 0).collecting = true ∧
    Params.unitCap { vectorParams with capSlack := some 16 } = some 200 ∧
    (collected (List.replicate 184 0) 0).buf.length + 16 ≤ 200 ∧
    200 < (collected (List.replicate 184 0) 0).buf.length + 17 := by
  simp [-List.reduceReplicate, Recon.fresh, collected, Params.unitCap]

theorem witness_UnitBoundaryEmitsValidUnits :
    ValidUnit vectorParams .audio [0, 0, 1, 0xC0] ∧ ValidUnit vectorParams .audio [0, 0, 1, 0xDF] ∧
    ValidUnit vectorParams .subtitle [0, 0, 1, 0xBD] ∧ ValidUnit vectorParams .video [0, 0, 1, 0xEF] ∧
    ¬ ValidUnit vectorParams .audio [0, 0, 1, 0xE0] := by
  simp only [← validStart_iff]
  decide

theorem witness_ContinuityExampleOfTheSource :
    vectorParams.unitCap = none ∧ 0xC0 ≤ (0xDF#8).toNat ∧ (0xDF#8).toNat ≤ 0xDF ∧ 0xC0 ≤ (0xC0#8).toNat := by decide

/-! ### CMD_D -/

/-- 187 bytes in step are at rest and 188 are not. -/
theorem witness_AddPayloadAppendsItsChunk :
    { start with disposed := true }.disposed = true ∧ start.disposed = false ∧
    Quiet start.params.resyncMode start.sync (start.carry ++ List.replicate 187 0x47) ∧
    ¬ Quiet start.params.resyncMode start.sync (start.carry ++ List.replicate 188 0x47) := by
  simp [-List.reduceReplicate, Quiet, start, State.reset]

theorem witness_ReadGstatAnswersTheGlobalRegister :
    ({ start with carry := List.replicate 188 0 }.carry.length ≤ 188 ∧ Registry.Wf (withEntry 0x100 .raw).reg) ∧
    0x06 < (0x07#8).toNat := by
  simp [-List.reduceReplicate, withEntry]

/-- The greatest PID in range, the least out of range, an entry of each kind and none. -/
theorem witness_stream_command_clauses :
    start.disposed = false ∧ 0x1FFF < (0x2000#16).toNat ∧ (0x1FFF#16).toNat ≤ 0x1FFF ∧
    NotStream start (pidNamed 0x1FFF) ∧ NotStream (withEntry 0x1FFF .raw) (pidNamed 0x1FFF) ∧
    StreamEntry (withEntry 0x1FFF (.stream .audio Recon.fresh)) (pidNamed 0x1FFF)
      (entry (.stream .audio Recon.fresh)) .audio Recon.fresh := by
  refine ⟨rfl, by decide, by decide, ?_, ?_, rfl, rfl⟩
  · intro e h
    cases h
  · intro e h
    cases h
    exact .inl rfl

theorem witness_ResetStreamReturnsToIdle :
    ∃ (s : State) (e : Entry) (t : StreamType) (r : Recon), s.disposed = false ∧ (0x1FFF#16).toNat ≤ 0x1FFF ∧
      StreamEntry s (pidNamed 0x1FFF) e t r :=
  ⟨_, _, _, _, rfl, by decide, witness_stream_command_clauses.2.2.2.2.2⟩

theorem witness_DisposeStreamStopsTheReconstructor :
    ∃ (s : State) (e : Entry) (t : StreamType) (r : Recon), s.disposed = false ∧ (0x1FFF#16).toNat ≤ 0x1FFF ∧
      StreamEntry s (pidNamed 0x1FFF) e t r :=
  ⟨_, _, _, _, rfl, by decide, witness_stream_command_clauses.2.2.2.2.2⟩

/-- The first reserved selector, the last that is not, and statistics without and with a value. -/
theorem witness_ReadSstatAnswersTheStreamRegister :
    0x07 < (0x08#8).toNat ∧ (0x07#8).toNat ≤ 0x07 ∧ Recon.fresh.minUnit = none ∧ Recon.fresh.maxUnit = none ∧
    (Recon.fresh.countUnit (2 ^ 64 - 1)).minUnit = some (2 ^ 64 - 1) ∧
    (Recon.fresh.countUnit (2 ^ 64 - 1)).maxUnit = some (2 ^ 64 - 1) ∧ 2 ^ 64 - 1 < 2 ^ 64 ∧
    Recon.fresh.buf.length < 2 ^ 32 ∧
    StreamEntry (withEntry 0x1FFF (.stream .audio Recon.fresh)) (pidNamed 0x1FFF)
      (entry (.stream .audio Recon.fresh)) .audio Recon.fresh :=
  ⟨by decide, by decide, rfl, rfl, rfl, rfl, by decide, by decide, rfl, rfl⟩

/-! ### CMD_C -/

/-- Each pair of legal codes, and the ways a pair is illegal. -/
theorem witness_SetFilterInstallsItsEntry :
    Names 0 0 .raw ∧ Names 1 0 .sect ∧ Names 2 0 (.stream .audio newRecon) ∧ Names 2 1 (.stream .subtitle newRecon) ∧
    Names 2 2 (.stream .video newRecon) ∧ ((1#2) ≠ 2#2 ∧ (1#2) ≠ 0#2) ∧ start.disposed = false ∧
    { start with disposed := true }.disposed = true ∧ 0x1FFF < (0x2000#16).toNat ∧ (0x1FFF#16).toNat ≤ 0x1FFF := by
  simp [Names, start, State.reset]

theorem witness_RequestSectionInstallsASectionEntry :
    { start with disposed := true }.disposed = true ∧ start.disposed = false ∧ 0x1FFF < (0x2000#16).toNat ∧
    (0x1FFF#16).toNat ≤ 0x1FFF := by decide

/-- A PID with an entry and one without, in the canonical form. -/
theorem witness_RemoveFilterUninstallsItsEntry :
    { start with disposed := true }.disposed = true ∧ start.disposed = false ∧ 0x1FFF < (0x2000#16).toNat ∧
    (0x1FFF#16).toNat ≤ 0x1FFF ∧ Registry.Wf (withEntry 0x1FFF .raw).reg ∧
    Registry.lookup (pidNamed 0x155) (withEntry 0x1FFF .raw).reg = none := by
  refine ⟨rfl, rfl, by decide, by decide, by simp [withEntry], by decide⟩

theorem witness_ClearFiltersEmptiesTheRegistry :
    { start with disposed := true }.disposed = true ∧ start.disposed = false := by decide

theorem witness_SetPcrSeenSetsTheBit :
    { start with disposed := true }.disposed = true ∧ start.disposed = false := by decide

/-! ### CMD_S -/

/-- The last length at which an append of `n` bytes fits, and the first at which it does not. -/
theorem witness_append_lengths (n : Nat) (h : n ≤ 65535) :
    ∃ s t : State, s.sb.length + n ≤ 65535 ∧ 65535 < t.sb.length + (n + 1) :=
  ⟨{ start with sb := List.replicate (65535 - n) 0 }, { start with sb := List.replicate (65535 - n) 0 }, by
    simp only [List.length_replicate]; omega, by simp only [List.length_replicate]; omega⟩

theorem witness_SbAppendByteAppendsIt : ∃ s t : State, s.sb.length + 1 ≤ 65535 ∧ 65535 < t.sb.length + 1 := by
  obtain ⟨s, -, h, -⟩ := witness_append_lengths 1 (by decide)
  obtain ⟨-, t, -, h'⟩ := witness_append_lengths 0 (by decide)
  exact ⟨s, t, h, h'⟩

theorem witness_SbAppendU16IsBigEndian : ∃ s t : State, s.sb.length + 2 ≤ 65535 ∧ 65535 < t.sb.length + 2 := by
  obtain ⟨s, -, h, -⟩ := witness_append_lengths 2 (by decide)
  obtain ⟨-, t, -, h'⟩ := witness_append_lengths 1 (by decide)
  exact ⟨s, t, h, h'⟩

theorem witness_SbAppendBytesAppendsTheRun :
    ∃ (s t : State) (data : List Byte), s.sb.length + data.length ≤ 65535 ∧ 65535 < t.sb.length + data.length := by
  obtain ⟨s, -, h, -⟩ := witness_append_lengths 5 (by decide)
  obtain ⟨-, t, -, h'⟩ := witness_append_lengths 4 (by decide)
  exact ⟨s, t, [0, 0, 0, 0, 0], h, h'⟩

/-- Codes of 0, 1, 2, 3 and 4 bytes; a buffer with room for three and one without. -/
theorem witness_SbAppendLangAppendsThreeBytes :
    (∃ s t : State, s.sb.length + 3 ≤ 65535 ∧ 65535 < t.sb.length + 3) ∧
    ∀ data ∈ [[], [0x64#8], [0x64#8, 0x65#8], [0x64#8, 0x65#8, 0x75#8], [0x64#8, 0x65#8, 0x75#8, 0x74#8]],
      ∃ code : List Byte,
        (data = [] ∧ code = [start.params.langDefault.b0, start.params.langDefault.b1, start.params.langDefault.b2] ∨
          0 < data.length ∧ data.length < 3 ∧ code = data ++ List.replicate (3 - data.length) 0x20#8 ∨
          3 ≤ data.length ∧ code = data.take 3) := by
  constructor
  · obtain ⟨s, -, h, -⟩ := witness_append_lengths 3 (by decide)
    obtain ⟨-, t, -, h'⟩ := witness_append_lengths 2 (by decide)
    exact ⟨s, t, h, h'⟩
  · simp

theorem witness_SbReserveAnswersTheSlotsPosition :
    ∃ s t : State, s.sb.length + 1 ≤ 65535 ∧ 65535 < t.sb.length + 1 := witness_SbAppendByteAppendsIt

/-- The last position of a buffer and the one after it. -/
theorem witness_SbBackfillWritesTheCount :
    { start with sb := [1, 2] }.sb.length ≤ (2#16).toNat ∧ (1#16).toNat < { start with sb := [1, 2] }.sb.length := by
  decide

/-- A content of 255 bytes. -/
theorem witness_BackfilledSlotHoldsItsContentsLength :
    ∃ (s t u : State) (content : List Byte), s.sb.length + 1 ≤ 65535 ∧ exec .sbReserve s = .next t ∧
      content.length ≤ 255 ∧ u.sb = t.sb ++ content :=
  ⟨start, _, { start with sb := [0x00] ++ List.replicate 255 7 }, List.replicate 255 7, by decide, rfl,
    by rw [List.length_replicate], rfl⟩

theorem witness_PbLoadReplacesTheBuffer :
    (List.replicate 4096 (0 : Byte)).length ≤ 4096 ∧ 4096 < (List.replicate 4097 (0 : Byte)).length := by
  rw [List.length_replicate, List.length_replicate]
  decide

/-- The last byte of the buffer and the offset after it. -/
theorem witness_PbRd8ReadsAByte : parsed.pb[6]? = some 0xCC ∧ parsed.pb.length < (7#12).toNat + 1 := by decide

/-- The last two bytes, and an offset at which the second byte is missing. -/
theorem witness_PbRd16AndPbRd12ReadBigEndian :
    parsed.pb[5]? = some 0xBB ∧ parsed.pb[5 + 1]? = some 0xCC ∧ parsed.pb.length < (6#12).toNat + 2 := by decide

/-- A list that ends at the last byte loaded, and one that ends after it. -/
theorem witness_PbWalkAnswersTheDescriptors :
    (2#12).toNat + (5#12).toNat ≤ parsed.pb.length ∧ parsed.pb.length < (2#12).toNat + (6#12).toNat := by decide

/-- A byte and a value appended after one byte, one byte appended after them, and the words SB_TO_BYTES answers. -/
theorem witness_SerializedBytesReadBack :
    (∃ (s t m u v : State) (ws : List Word), (1#12).toNat = s.sb.length ∧ m.sb.length ≤ 4096 ∧
      exec .sbToBytes m = .next u ∧
      u.rsp.s = m.rsp.s ++ responseWord 0x27#8 .ok (BitVec.ofNat 16 m.sb.length) :: ws ∧
      exec (.pbLoad (unpack ws m.sb.length)) u = .next v ∧
      exec (.sbAppendByte 0x4A) s = .next t ∧ t.sb.length = s.sb.length + 1 ∧
      m.sb[s.sb.length]? = t.sb[s.sb.length]?) ∧
    (∃ (s t m u v : State) (ws : List Word), (1#12).toNat = s.sb.length ∧ m.sb.length ≤ 4096 ∧
      exec .sbToBytes m = .next u ∧
      u.rsp.s = m.rsp.s ++ responseWord 0x27#8 .ok (BitVec.ofNat 16 m.sb.length) :: ws ∧
      exec (.pbLoad (unpack ws m.sb.length)) u = .next v ∧
      exec (.sbAppendU16 0xF123) s = .next t ∧ t.sb.length = s.sb.length + 2 ∧
      m.sb[s.sb.length]? = t.sb[s.sb.length]? ∧ m.sb[s.sb.length + 1]? = t.sb[s.sb.length + 1]?) :=
  ⟨⟨{ start with sb := [0x07] }, _, { start with sb := [0x07, 0x4A, 0x55] }, _, _, [0x074A5500#32], rfl,
      by decide, rfl, by decide, rfl, rfl, rfl, rfl⟩,
    ⟨{ start with sb := [0x07] }, _, { start with sb := [0x07, 0xF1, 0x23, 0x55] }, _, _, [0x07F12355#32], rfl,
      by decide, rfl, by decide, rfl, rfl, rfl, rfl, rfl⟩⟩

end Sys2Proof.Tests
end

section
/-! PROOFS. The words a command decodes from: its head word is the one its fields make (30_encoding.md R100 to R104,
R111; 00_scope.md R15). -/

namespace Sys2Proof

/-! ### The fields of a command word put together again (R101) -/

/-- A field that a mask covers is zero where the masked word is. -/
theorem extract_eq_zero_of_mask {w m : Word} (s k : Nat) (h : w &&& m = 0) (hm : m.extractLsb' s k = BitVec.allOnes k) :
    w.extractLsb' s k = 0#k := by
  have hf : (w &&& m).extractLsb' s k = 0#k := by rw [h]; exact BitVec.extractLsb'_zero
  rwa [BitVec.extractLsb'_and, hm, BitVec.and_allOnes] at hf

/-- Two neighbouring fields are one field: the library's lemma, with the places named for rewriting. -/
theorem extract_append_extract {n : Nat} (x : BitVec n) (s k l : Nat) :
    x.extractLsb' (s + k) l ++ x.extractLsb' s k = x.extractLsb' s (l + k) :=
  BitVec.extractLsb'_append_extractLsb'_eq_extractLsb' rfl

theorem ofBool_getLsbD_eq_extract {n : Nat} (x : BitVec n) (s : Nat) :
    BitVec.ofBool (x.getLsbD s) = x.extractLsb' s 1 := by
  apply BitVec.eq_of_getLsbD_eq
  intro i hi
  obtain rfl : i = 0 := by omega
  simp

/-- The command word that format `f` makes of an opcode, the byte count of the data words and the other fields
of `w`. -/
def Format.headWord (f : Format) (op : BitVec 8) (n : Nat) (w : Word) : Word :=
  match f with
  | .f0 => wordF0 op
  | .fp | .fh | .fq => wordLow16 op (lowHalf w)
  | .fps => op ++ selHigh w ++ lowHalf w
  | .fs | .fb => wordLow8 op (lowByte w)
  | .ff => op ++ kindField w ++ stypeField w ++ BitVec.ofBool (smallField w) ++ BitVec.ofBool (videoField w) ++ 0#2
      ++ lowHalf w
  | .fn => wordLow16 op (BitVec.ofNat 16 n)
  | .fo => wordLow12 op (low12 w)
  | .fw => op ++ high12 w ++ low12 w

theorem wordF0_opField {w : Word} (h : w &&& 0x00FFFFFF#32 = 0) : wordF0 (opField w) = w := by
  rw [wordF0, ← extract_eq_zero_of_mask 0 24 h (by decide)]
  exact BitVec.extractLsb'_append_extractLsb' (w := 8)

theorem wordLow16_opField {w : Word} (h : w &&& 0x00FF0000#32 = 0) : wordLow16 (opField w) (lowHalf w) = w := by
  rw [wordLow16, ← extract_eq_zero_of_mask 16 8 h (by decide), opField, extract_append_extract w 16 8 8]
  exact BitVec.extractLsb'_append_extractLsb' (w := 16)

theorem wordLow8_opField {w : Word} (h : w &&& 0x00FFFF00#32 = 0) : wordLow8 (opField w) (lowByte w) = w := by
  rw [wordLow8, ← extract_eq_zero_of_mask 8 16 h (by decide), opField, extract_append_extract w 8 16 8]
  exact BitVec.extractLsb'_append_extractLsb' (w := 24)

theorem wordLow12_opField {w : Word} (h : w &&& 0x00FFF000#32 = 0) : wordLow12 (opField w) (low12 w) = w := by
  rw [wordLow12, ← extract_eq_zero_of_mask 12 12 h (by decide), opField, extract_append_extract w 12 12 8]
  exact BitVec.extractLsb'_append_extractLsb' (w := 20)

/-- A command word whose reserved bits are zero is the one its own fields make. -/
theorem Format.headWord_eq_self (f : Format) {w : Word} (h : w &&& f.reserved = 0) :
    f.headWord (opField w) (f.byteCount w) w = w := by
  cases f with
  | f0 => exact wordF0_opField h
  | fp | fh | fq => exact wordLow16_opField h
  | fs | fb => exact wordLow8_opField h
  | fo => exact wordLow12_opField h
  | fn =>
    show wordLow16 (opField w) (BitVec.ofNat 16 (lowHalf w).toNat) = w
    rw [BitVec.ofNat_toNat, BitVec.setWidth_eq]
    exact wordLow16_opField h
  | fps =>
    show opField w ++ selHigh w ++ lowHalf w = w
    rw [opField, selHigh, extract_append_extract w 16 8 8]
    exact BitVec.extractLsb'_append_extractLsb' (w := 16)
  | fw =>
    show opField w ++ high12 w ++ low12 w = w
    rw [opField, high12, extract_append_extract w 12 12 8]
    exact BitVec.extractLsb'_append_extractLsb' (w := 20)
  | ff =>
    show opField w ++ kindField w ++ stypeField w ++ BitVec.ofBool (smallField w) ++ BitVec.ofBool (videoField w)
      ++ 0#2 ++ lowHalf w = w
    rw [← extract_eq_zero_of_mask 16 2 h (by decide), opField, kindField, stypeField, smallField, videoField,
      ofBool_getLsbD_eq_extract, ofBool_getLsbD_eq_extract, extract_append_extract w 22 2 8,
      extract_append_extract w 20 2 (8 + 2), extract_append_extract w 19 1 (8 + 2 + 2),
      extract_append_extract w 18 1 (8 + 2 + 2 + 1), extract_append_extract w 16 2 (8 + 2 + 2 + 1 + 1)]
    exact BitVec.extractLsb'_append_extractLsb' (w := 16)

/-! ### What the decoder reads -/

/-- What a row of the opcode map makes is encoded with the head word of its format, and carries the data bytes for
format FN alone. -/
theorem opRow_encode {op : BitVec 8} {r : OpRow} (h : opRow op = some r) (w : Word) (data : List Byte) :
    (encode (r.make w data)).head? = some (r.format.headWord (r.make w data).opcode data.length w) ∧
      (r.make w data).data = if r.format = .fn then data else [] := by
  unfold opRow at h
  split at h <;> cases h <;> exact ⟨rfl, rfl⟩

theorem Format.byteCount_of_ne_fn {f : Format} (h : f ≠ .fn) (w : Word) : f.byteCount w = 0 := by
  cases f with
  | fn => exact absurd rfl h
  | f0 | fp | fps | fs | ff | fb | fh | fq | fo | fw => rfl

theorem Format.byteCount_le (f : Format) (w : Word) : f.byteCount w ≤ maxChunk := by
  by_cases h : f = .fn
  · subst h
    exact Nat.le_of_lt_succ (lowHalf w).isLt
  · rw [byteCount_of_ne_fn h]
    exact Nat.zero_le _

/-- A row given the `n` bytes its command word announces makes a command that carries them. -/
theorem opRow_data {op : BitVec 8} {r : OpRow} (h : opRow op = some r) {w : Word} {data : List Byte}
    (hn : data.length = r.format.byteCount w) : (r.make w data).data = data := by
  rw [(opRow_encode h w data).2]
  split
  · rfl
  · rename_i hf
    rw [Format.byteCount_of_ne_fn hf] at hn
    exact (List.eq_nil_of_length_eq_zero hn).symm

/-- Settles O20: the fields of the head word put together give the word back, for every row of the opcode map. -/
theorem decodedWordsAreTheCommandsOwn : Obligations.DecodedWordsAreTheCommandsOwn := by
  intro p ws rest i h
  have hport := decode_port h
  obtain ⟨w, ds, r, hws, hr, -, hds, hres, rfl⟩ := decode_command h
  have hlen : (unpack ds (r.format.byteCount w)).length = r.format.byteCount w := unpack_length ds _ hds.ge
  obtain ⟨hhead, -⟩ := opRow_encode hr w (unpack ds (r.format.byteCount w))
  rw [hlen, (opRow_make hr w _).2, r.format.headWord_eq_self hres] at hhead
  rw [Instr.fits, opRow_data hr hlen, hlen]
  exact ⟨hport, decide_eq_true (r.format.byteCount_le w), w, ds, hws, hhead, hds, rfl⟩

end Sys2Proof
end

section
/-! PROOFS. The place of each byte in the data words that carry it (00_scope.md R15). -/

namespace Sys2Proof

/-- Byte `k` that data words carry stands in word `k / 4` (R15). -/
theorem getElem?_flatMap_bytesOf (ws : List Word) (k : Nat) :
    (ws.flatMap bytesOf)[k]? = ws[k / 4]?.map fun w => w.extractLsb' (24 - 8 * (k % 4)) 8 := by
  induction ws generalizing k with
  | nil => rfl
  | cons w ws ih =>
    rw [List.flatMap_cons]
    match k with
    | 0 | 1 | 2 | 3 => rfl
    | k + 4 =>
      rw [List.getElem?_append_right (by simp), bytesOf_length, Nat.add_sub_cancel, ih k,
        Nat.add_div_right k (by decide), Nat.add_mod_right, List.getElem?_cons_succ]

theorem getElem?_append_replicate {α : Type} {s : List α} {m k : Nat} {b pad : α}
    (h : (s ++ List.replicate m pad)[k]? = some b) : b = s[k]?.getD pad := by
  by_cases hk : k < s.length
  · rw [List.getElem?_append_left hk] at h
    rw [h]
    rfl
  · rw [List.getElem?_append_right (by omega)] at h
    rw [List.getElem?_eq_none (by omega)]
    exact List.eq_of_mem_replicate (List.mem_of_getElem? h)

theorem unpack_pack (s : List Byte) : unpack (pack s) s.length = s := by
  rw [unpack, flatMap_bytesOf_pack, List.take_left]

/-- The byte in place `k` of packed words: byte `k`, or the padding. -/
theorem pack_byte {s : List Byte} {k : Nat} {w : Word} (h : (pack s)[k / 4]? = some w) :
    w.extractLsb' (24 - 8 * (k % 4)) 8 = s[k]?.getD 0x00#8 := by
  have hb := getElem?_flatMap_bytesOf (pack s) k
  rw [flatMap_bytesOf_pack, h] at hb
  exact getElem?_append_replicate hb

theorem unpack_byte {ws : List Word} {n k : Nat} {w : Word} (hk : k < n) (h : ws[k / 4]? = some w) :
    (unpack ws n)[k]? = some (w.extractLsb' (24 - 8 * (k % 4)) 8) := by
  rw [unpack, List.getElem?_take_of_lt hk, getElem?_flatMap_bytesOf, h]
  rfl

/-- Settles O21: the bytes of words are located by induction on the words. -/
theorem packedBytesUnpack : Obligations.PackedBytesUnpack :=
  ⟨fun s => ⟨pack_length s, unpack_pack s, fun _ _ h => pack_byte h⟩,
    fun ws n hlen => ⟨unpack_length ws n hlen.ge, fun _ _ hk h => unpack_byte hk h⟩⟩

end Sys2Proof
end

section
/-! PROOFS. Response words: their layout and what a refusing one says of the state (30_encoding.md R108, R110;
60_exceptions.md R369). -/

namespace Sys2Proof.Machine

open Sys2Proof.Stated

theorem responseWord_toNat (op : BitVec 8) (st : Status) (v : BitVec 16) :
    (responseWord op st v).toNat = op.toNat * 2 ^ 24 + st.code.toNat * 2 ^ 16 + v.toNat := by
  show (op ++ st.code ++ v : BitVec (8 + 8 + 16)).toNat = _
  rw [toNat_append_eq, toNat_append_eq]
  omega

/-- Settles O13: the fields of the concatenation as numbers, with the table of R110. -/
theorem responseWordLayout : Obligations.ResponseWordLayout := by
  intro op v st code hmem
  have hcode : ∀ x ∈ [(Status.ok, 0x00), (.contract, 0x01), (.illegal, 0x02), (.disposed, 0x03), (.notStream, 0x04),
      (.invalid, 0x05), (.none, 0x06), (.capacity, 0x07)], x.1.code.toNat = x.2 := by decide
  rw [responseWord_toNat, hcode (st, code) hmem]

theorem Status.code_injective : Function.Injective Status.code :=
  Function.LeftInverse.injective (g := fun c => Status.ofNat c.toNat) fun st => by cases st <;> rfl

/-- The status of a response word can be read back from it. -/
theorem responseWord_status {op op' : BitVec 8} {st st' : Status} {v v' : BitVec 16}
    (h : responseWord op st v = responseWord op' st' v') : st = st' := by
  apply Status.code_injective
  apply BitVec.eq_of_toNat_eq
  have hn := congrArg BitVec.toNat h
  rw [responseWord_toNat, responseWord_toNat] at hn
  omega

theorem refusal_eq_false_of_accepts {st : Status} (h : st.accepts) : refusal st = false := by
  obtain rfl | rfl | rfl := h <;> rfl

/-- What a command leaves on its response port: no word yet, or a response of its own opcode that either accepts, or
refuses with value 0 and is all that changed (R108, R369). -/
def Answered (i : Instr) (s t : State) : Prop :=
  t.rsp = s.rsp ∨
  ∃ st v ds, t.rsp.get i.port = s.rsp.get i.port ++ responseWord i.opcode st v :: ds ∧
    (st.accepts ∨ t = s.post i.port [responseWord i.opcode st 0#16])

/-- A response posted on a state that differs from `s` outside the response queues. -/
theorem Answered.of_post {i : Instr} {s u : State} {st : Status} {v : BitVec 16} {ds : List Word} (hu : u.rsp = s.rsp)
    (h : st.accepts ∨ (v = 0 ∧ ds = [] ∧ u = s)) : Answered i s (u.post i.port (responseWord i.opcode st v :: ds)) := by
  refine .inr ⟨st, v, ds, by simp [hu], h.imp_right ?_⟩
  rintro ⟨rfl, rfl, rfl⟩
  rfl

theorem addPayload_answered (data : List Byte) {s t : State} (h : exec (.addPayload data) s = .next t) :
    Answered (.addPayload data) s t := by
  simp only [exec, execAddPayload] at h
  split at h
  · cases h
    exact .of_post rfl (.inr ⟨rfl, rfl, rfl⟩)
  · cases h
    unfold State.settle
    split
    · exact .of_post (u := { s.feed data with pumping := false }) rfl (.inl (.inl rfl))
    · exact .inl rfl

theorem exec_answered {i : Instr} {s t : State} (h : exec i s = .next t) : Answered i s t := by
  cases hp : i.port with
  | s =>
    obtain ⟨st, v, ds, sb, pb, ha, -, -, he⟩ := exec_section i hp s.params s.sb s.pb
    cases h.symm.trans (he s rfl rfl rfl)
    rw [← hp]
    exact .of_post rfl (ha.imp_right fun ⟨hv, hds, hsb, hpb⟩ => ⟨hv, hds, by rw [hsb, hpb]⟩)
  | c =>
    obtain ⟨st, v, reg, ep, pcr, ha, -, -, -, -, he⟩ := exec_control i hp s
    cases h.symm.trans (he s rfl rfl rfl rfl)
    rw [← hp]
    exact .of_post rfl (ha.imp_right fun ⟨hv, hreg, hep, hpcr⟩ => ⟨hv, rfl, by rw [hreg, hep, hpcr]⟩)
  | d =>
    by_cases hn : ∀ data, i ≠ .addPayload data
    · obtain ⟨st, v, ds, reg, carry, dsp, ha, -, -, -, he⟩ := exec_data i hp hn s
      cases h.symm.trans (he s.cmd s.rsp s.sb s.pb)
      rw [← hp]
      exact .of_post rfl (ha.imp_right fun ⟨hv, hds, hreg, hcarry, hdsp⟩ =>
        ⟨hv, hds, by rw [hreg, hcarry, hdsp]; rfl⟩)
    · push Not at hn
      obtain ⟨data, rfl⟩ := hn
      exact addPayload_answered data h

/-- Settles O12: a refusing word is the command's own response, which changed nothing else. -/
theorem refusalsArePrecise : Obligations.RefusalsArePrecise := by
  intro i s t op st v ds hexec hrsp hst
  obtain hsame | ⟨st', v', ds', hrsp', hans⟩ := exec_answered hexec
  · rw [hsame] at hrsp
    exact absurd (List.self_eq_append_right.mp hrsp) (List.cons_ne_nil _ _)
  · obtain ⟨hword, -⟩ := List.cons.inj (List.append_cancel_left (hrsp.symm.trans hrsp'))
    obtain rfl := responseWord_status hword
    refine hans.resolve_left fun hacc => ?_
    rw [refusal_eq_false_of_accepts hacc] at hst
    exact absurd hst (by decide)

end Sys2Proof.Machine
end

section
/-! PROOFS. What a step does where it is an engine's turn (20_memory.md R77 to R81; 30_encoding.md R111). -/

namespace Sys2Proof.Machine

theorem step_of_run {s t : State} {i : Instr} (h : s.nextMove = .run i t) : step s = exec i t := by
  rw [step, h]

theorem step_of_goto {s t : State} (h : s.nextMove = .goto t) : step s = .next t := by
  rw [step, h]

theorem nextMove_scheduled {s : State} {p : Port} {turns : List Turn} (h : s.schedule = .engine p :: turns) :
    s.nextMove = State.engineMove { s with schedule := turns } p := by
  rw [State.nextMove, h]

theorem nextMove_alone {s : State} {p : Port} (h : s.schedule = []) (hr : s.ready = [p]) :
    s.nextMove = s.engineMove p := by
  rw [State.nextMove, h, hr]

/-- An engine that is not at an ADD_PAYLOAD takes what is at the head of its port (R78, R80). -/
theorem engineMove_eq_fetch {s : State} {p : Port} (h : p = .d → s.pumping = false) : s.engineMove p = s.fetch p :=
  if_neg fun ⟨hp, hb⟩ => by simp [h hp] at hb

theorem engineMove_command {s : State} {p : Port} {i : Instr} {rest : List Word} (hp : p = .d → s.pumping = false)
    (hd : decode p (s.cmd.get p) = .command i rest) : s.engineMove p = .run i (s.setCmd p rest) := by
  rw [engineMove_eq_fetch hp, State.fetch, hd]

theorem engineMove_illegal {s : State} {p : Port} {why : Rejection} {op : BitVec 8} {rest : List Word}
    (hp : p = .d → s.pumping = false) (hd : decode p (s.cmd.get p) = .illegal why op rest) :
    s.engineMove p = .goto ((s.setCmd p rest).respond p op .illegal 0) := by
  rw [engineMove_eq_fetch hp, State.fetch, hd]

/-- Settles O5: `nextMove` names the engine, and the decoder's answer decides its move. -/
theorem stepRunsWhatTheDecoderReads : Obligations.StepRunsWhatTheDecoderReads := by
  refine ⟨?scheduled, ?alone, ?illegal⟩
  case scheduled =>
    intro s p turns i rest hs hp hd
    exact step_of_run ((nextMove_scheduled hs).trans (engineMove_command (s := { s with schedule := turns }) hp hd))
  case alone =>
    intro s p i rest hs hr hp hd
    exact step_of_run ((nextMove_alone hs hr).trans (engineMove_command hp hd))
  case illegal =>
    intro s p turns why op rest hs hp hd
    exact step_of_goto ((nextMove_scheduled hs).trans (engineMove_illegal (s := { s with schedule := turns }) hp hd))

end Sys2Proof.Machine
end

section
/-! PROOFS. What one step can do, said once for every statement about single steps (20_memory.md R77 to R81). -/

namespace Sys2Proof.Machine

/-- What a step can do that is no act of the host, on a state whose turn is taken off the schedule: nothing, a pump step
of the ADD_PAYLOAD in execution, the refusal of an illegal word, or a command, a command of the D engine only where no
ADD_PAYLOAD is in execution (R78, R81, R111). -/
inductive EngineAct (u : State) : State → Prop
  | idle : EngineAct u u
  | pump (hbusy : u.pumping = true) : EngineAct u u.pumpTurn
  | refuse (p : Port) (op : BitVec 8) (rest : List Word) : EngineAct u ((u.setCmd p rest).respond p op .illegal 0)
  | run {i : Instr} {rest : List Word} {t : State} (hfree : i.port = .d → u.pumping = false)
      (hexec : exec i (u.setCmd i.port rest) = .next t) : EngineAct u t

theorem step_eq_goto {s t u : State} (hstep : step s = .next t) (hmove : s.nextMove = .goto u) : t = u := by
  cases (step_of_goto hmove).symm.trans hstep
  rfl

theorem engineAct_of_engineMove {s t u : State} {p : Port} (hstep : step s = .next t)
    (hmove : s.nextMove = u.engineMove p) : EngineAct u t := by
  obtain ⟨-, hbusy, h⟩ | ⟨hfree, h | ⟨op, rest, h⟩ | ⟨i, rest, hdecode, h⟩⟩ := engineMove_cases u p
  · rw [step_eq_goto hstep (hmove.trans h)]
    exact .pump hbusy
  · rw [step_eq_goto hstep (hmove.trans h)]
    exact .idle
  · rw [step_eq_goto hstep (hmove.trans h)]
    exact .refuse p op rest
  · obtain rfl := decode_port hdecode
    exact .run (fun hp => Bool.eq_false_of_not_eq_true fun hb => hfree ⟨hp, hb⟩)
      ((step_of_run (hmove.trans h)).symm.trans hstep)

/-- A step is an act of the host, by the schedule, or an engine's, on a state that differs in the schedule and the count of
free choices alone. -/
theorem step_cases {s t : State} (hstep : step s = .next t) :
    (∃ a rest, s.schedule = .host a :: rest ∧ t = State.hostMove { s with schedule := rest } a) ∨
    ∃ rest k, EngineAct { s with schedule := rest, picks := k } t := by
  obtain ⟨a, rest, hs, hmove⟩ | ⟨p, rest, k, hmove⟩ | hmove := nextMove_cases s
  · exact .inl ⟨a, rest, hs, step_eq_goto hstep hmove⟩
  · exact .inr ⟨rest, k, engineAct_of_engineMove hstep hmove⟩
  · rw [step_eq_goto hstep hmove]
    exact .inr ⟨s.schedule, s.picks, .idle⟩

end Sys2Proof.Machine
end

section
/-! PROOFS. Every step keeps the invariant: the registry and its reconstructors through the pump, the buffers through the
commands, and `pumping` through the end of every step of an ADD_PAYLOAD (10_state.md R38 to R45; 20_memory.md R78). -/

namespace Sys2Proof.Machine

/-! ### The registry -/

/-- The invariant's part on the registry: its canonical form, and sound reconstructors (R38, R42, R43). -/
def Registry.Sound (ps : Params) (r : Registry) : Prop := Registry.Wf r ∧ ∀ x ∈ r, Entry.Sound ps x.2

theorem Registry.sound_nil (ps : Params) : Registry.Sound ps [] := ⟨.nil, fun _ hx => absurd hx List.not_mem_nil⟩

theorem Registry.Sound.insert {ps : Params} {r : Registry} (h : Registry.Sound ps r) (p : Pid) {e : Entry}
    (he : Entry.Sound ps e) : Registry.Sound ps (Registry.insert p e r) := by
  refine ⟨Registry.insert_wf h.1 p e, fun x hx => ?_⟩
  obtain rfl | hx := Registry.mem_insert hx
  · exact he
  · exact h.2 x hx

theorem Entry.sound_stream {ps : Params} {e : Entry} {t : StreamType} {r : Recon} (h : e.consumer = .stream t r) :
    Entry.Sound ps e ↔ Recon.Sound ps r := by
  rw [Entry.Sound, h]

theorem Entry.sound_of_no_recon {ps : Params} {e : Entry} (h : e.consumer = .raw ∨ e.consumer = .sect) :
    Entry.Sound ps e := by
  obtain h | h := h <;> rw [Entry.Sound, h] <;> trivial

/-! ### The pump -/

@[simp] theorem State.delivered_reg (s : State) (pid : Pid) (e : Entry) (t : StreamType) (d : Recon × Option (List Byte)) :
    (s.delivered pid e t d).reg = Registry.insert pid { e with consumer := .stream t d.1 } s.reg := by
  obtain ⟨-, h⟩ | ⟨b, -, h⟩ := State.delivered_cases s pid e t d <;> rw [h] <;> rfl

theorem State.route_regSound {s : State} (h : Registry.Sound s.params s.reg) (pid : Pid) {payload : List Byte}
    (pusi : Bool) (cc : Cc) (noinc : Bool) (hp : payload.length ≤ 184) :
    Registry.Sound s.params (s.route pid payload pusi cc noinc).reg := by
  obtain hr | ⟨e, -, hr⟩ | ⟨e, -, hr⟩ | ⟨e, t, r, hl, hc, hr⟩ := State.route_cases s pid payload pusi cc noinc
  · rwa [hr]
  · rwa [hr]
  · rwa [hr]
  · have hrec : Recon.Sound s.params r := (Entry.sound_stream hc).mp (h.2 _ (Registry.mem_of_lookup hl))
    rw [hr, State.delivered_reg]
    exact h.insert pid ((Entry.sound_stream rfl).mpr (Recon.deliver_sound t s.pcrSeen pusi cc noinc hrec hp))

theorem State.pumpStep_regSound {s : State} (h : Registry.Sound s.params s.reg) :
    Registry.Sound s.params s.pumpStep.reg := by
  obtain ⟨-, -, hs⟩ | ⟨-, -, hs⟩ | ⟨-, hs⟩ | ⟨-, -, hs⟩ := State.pumpStep_cases s
  · rw [hs]
    exact State.route_regSound
      (s := { s with carry := s.carry.drop 188, pktCount := s.pktCount + 1 }) h _ _ _ _
      (extractPayload_length _ (List.length_take_le 188 s.carry))
  · rwa [hs]
  · rwa [hs]
  · rwa [hs]

/-- A pump that holds no bytes is quiescent (R152). -/
theorem quiet_nil (m : ResyncMode) (sync : Sync) : quiet m sync [] = true := by cases sync <;> rfl

/-- The end of a step of an ADD_PAYLOAD writes the response port and `pumping` alone. -/
theorem State.settle_frame (s : State) : s.settle = { s with rsp := s.settle.rsp, pumping := !s.quiescent } := by
  unfold State.settle
  split
  · rename_i h; rw [h]; rfl
  · rename_i h; rw [Bool.eq_false_of_not_eq_true h]; rfl

/-! ### The parts of the state that the invariant does not speak of -/

theorem State.Inv.regSound {s : State} (h : s.Inv) : Registry.Sound s.params s.reg := ⟨h.regWf, h.reconSound⟩

/-- The invariant is kept where the queues, the counters, `st.pcr_seen`, the next epoch and the turns alone change. -/
theorem State.Inv.frame {s t : State} (h : s.Inv)
    (ht : t = { s with
      cmd := t.cmd, rsp := t.rsp, out := t.out, pktCount := t.pktCount, skipBytes := t.skipBytes
      resyncCount := t.resyncCount, unroutedCount := t.unroutedCount, pcrSeen := t.pcrSeen, epochNext := t.epochNext
      schedule := t.schedule, picks := t.picks }) : t.Inv := by
  rw [ht]
  exact ⟨h.regWf, h.reconSound, h.sbBound, h.pbBound, h.pumpingBusy, h.disposedEmpty⟩

/-- The end of a step of an ADD_PAYLOAD brings `pumping` back in line with the pump (R78, R151). -/
theorem State.settle_inv {s : State} (hreg : Registry.Sound s.params s.reg) (hsb : s.sb.length ≤ 65535)
    (hpb : s.pb.length ≤ 4096) (hd : s.disposed = false) : s.settle.Inv := by
  rw [State.settle_frame]
  exact ⟨hreg.1, hreg.2, hsb, hpb, rfl, fun h => absurd (hd.symm.trans h) Bool.false_ne_true⟩

/-- A disposed block has nothing to pump. -/
theorem State.Inv.not_disposed_of_pumping {s : State} (h : s.Inv) (hbusy : s.pumping = true) : s.disposed = false := by
  refine Bool.eq_false_of_not_eq_true fun hd => ?_
  have hq : s.quiescent = true := by rw [State.quiescent, (h.disposedEmpty hd).2, quiet_nil]
  have hp := h.pumpingBusy
  rw [hbusy, hq] at hp
  exact absurd hp (by decide)

theorem State.Inv.pumpTurn {s : State} (h : s.Inv) (hbusy : s.pumping = true) : s.pumpTurn.Inv := by
  have hq : ¬ s.quiescent = true := by
    have hp := h.pumpingBusy
    rw [hbusy] at hp
    simpa using hp.symm
  have hf := s.pumpStep_frame
  have hparams : s.pumpStep.params = s.params := by rw [hf]
  rw [State.pumpTurn, if_neg hq]
  apply State.settle_inv
  · rw [hparams]
    exact State.pumpStep_regSound h.regSound
  · rw [hf]
    exact h.sbBound
  · rw [hf]
    exact h.pbBound
  · rw [hf]
    exact h.not_disposed_of_pumping hbusy

/-! ### The commands -/

theorem exec_section_inv {i : Instr} {s t : State} (hp : i.port = .s) (h : s.Inv) (he : exec i s = .next t) : t.Inv := by
  obtain ⟨st, v, ds, sb, pb, -, hsb, hpb, hx⟩ := exec_section i hp s.params s.sb s.pb
  cases he.symm.trans (hx s rfl rfl rfl)
  exact ⟨h.regWf, h.reconSound, hsb h.sbBound, hpb h.pbBound, h.pumpingBusy, h.disposedEmpty⟩

theorem exec_control_inv {i : Instr} {s t : State} (hp : i.port = .c) (h : s.Inv) (he : exec i s = .next t) : t.Inv := by
  obtain ⟨st, v, reg, ep, pcr, -, hwf, hmem, hd, -, hx⟩ := exec_control i hp s
  cases he.symm.trans (hx s rfl rfl rfl rfl)
  have hsound : ∀ x ∈ reg, Entry.Sound s.params x.2 := by
    intro x hmx
    obtain hx | hx | hx | ⟨t, hx⟩ := hmem x hmx
    · exact h.reconSound x hx
    · exact Entry.sound_of_no_recon (.inl hx)
    · exact Entry.sound_of_no_recon (.inr hx)
    · exact (Entry.sound_stream hx).mpr (Recon.fresh_sound s.params)
  exact ⟨hwf h.regWf, hsound, h.sbBound, h.pbBound, h.pumpingBusy,
    fun hds => ⟨(hd hds).trans (h.disposedEmpty hds).1, (h.disposedEmpty hds).2⟩⟩

theorem exec_data_inv {i : Instr} {s t : State} (hp : i.port = .d) (hn : ∀ data, i ≠ .addPayload data) (h : s.Inv)
    (hfree : s.pumping = false) (he : exec i s = .next t) : t.Inv := by
  obtain ⟨st, v, ds, reg, carry, dsp, -, hwf, hmem, hd, hx⟩ := exec_data i hp hn s
  cases he.symm.trans (hx s.cmd s.rsp s.sb s.pb)
  have hsound : ∀ x ∈ reg, Entry.Sound s.params x.2 := by
    intro x hmx
    obtain hx | ⟨y, hy, ty, r, hc, hx⟩ := hmem x hmx
    · exact h.reconSound x hx
    · have hr : Recon.Sound s.params r := (Entry.sound_stream hc).mp (h.reconSound y hy)
      obtain hx | hx := hx
      · exact (Entry.sound_stream hx).mpr (Recon.resetState_sound hr)
      · exact (Entry.sound_stream hx).mpr (Recon.disposeState_sound hr)
  obtain ⟨hreg, hcarry, -⟩ | ⟨hcarry, hdsp, hkeep⟩ := hd
  · refine ⟨hwf h.regWf, hsound, h.sbBound, h.pbBound, ?_, fun _ => ⟨hreg, hcarry⟩⟩
    show s.pumping = !quiet s.params.resyncMode s.sync carry
    rw [hfree, hcarry, quiet_nil]
    rfl
  · subst hcarry hdsp
    exact ⟨hwf h.regWf, hsound, h.sbBound, h.pbBound, h.pumpingBusy,
      fun hds => ⟨(hkeep hds).trans (h.disposedEmpty hds).1, (h.disposedEmpty hds).2⟩⟩

theorem exec_addPayload_inv {data : List Byte} {s t : State} (h : s.Inv) (he : exec (.addPayload data) s = .next t) :
    t.Inv := by
  simp only [exec, execAddPayload] at he
  split at he
  · cases he
    exact h.frame rfl
  · rename_i hd
    cases he
    exact State.settle_inv h.regSound h.sbBound h.pbBound (Bool.eq_false_of_not_eq_true hd)

/-- A command keeps the invariant, a command of the D engine where no ADD_PAYLOAD is in execution. -/
theorem exec_inv {i : Instr} {s t : State} (h : s.Inv) (hfree : i.port = .d → s.pumping = false)
    (he : exec i s = .next t) : t.Inv := by
  cases hp : i.port with
  | s => exact exec_section_inv hp h he
  | c => exact exec_control_inv hp h he
  | d =>
    by_cases hn : ∀ data, i ≠ .addPayload data
    · exact exec_data_inv hp hn h (hfree hp) he
    · push Not at hn
      obtain ⟨data, rfl⟩ := hn
      exact exec_addPayload_inv h he

/-! ### Steps -/

/-- The reset values meet the invariant for every value of the parameters. -/
theorem reset_inv (ps : Params) (turns : List Turn) (k : Nat) :
    State.Inv { State.reset with params := ps, schedule := turns, picks := k } :=
  ⟨.nil, (Registry.sound_nil ps).2, Nat.zero_le _, Nat.zero_le _, rfl, fun _ => ⟨rfl, rfl⟩⟩

theorem State.Inv.hostMove {s : State} (h : s.Inv) (a : HostAct) : (s.hostMove a).Inv := by
  cases a with
  | push p w => exact h.frame rfl
  | popResponse p => exact h.frame rfl
  | popEvent => exact h.frame rfl
  | reset => exact reset_inv s.params s.schedule s.picks

theorem State.Inv.engineAct {u t : State} (h : u.Inv) (ha : EngineAct u t) : t.Inv := by
  cases ha with
  | idle => exact h
  | pump hbusy => exact h.pumpTurn hbusy
  | refuse p op rest => exact h.frame rfl
  | run hfree hexec => exact exec_inv (s := u.setCmd _ _) (h.frame rfl) hfree hexec

/-- Settles O4: the host's acts and each engine's keep the invariant. -/
theorem stepKeepsInvariant : Obligations.StepKeepsInvariant := by
  intro s t h hstep
  obtain ⟨a, rest, -, rfl⟩ | ⟨rest, k, ha⟩ := step_cases hstep
  · exact State.Inv.hostMove (s := { s with schedule := rest }) (h.frame rfl) a
  · exact State.Inv.engineAct (h.frame rfl) ha

/-- Settles O3: the reset values of the machine's own parameters. -/
theorem resetMeetsInvariant : Obligations.ResetMeetsInvariant := reset_inv Config.params [] 0

/-- Settles O1: the fields of the reset state as it is written. -/
theorem resetPutsEveryElementAtItsValue : Obligations.ResetPutsEveryElementAtItsValue :=
  ⟨rfl, rfl, rfl, rfl, rfl, rfl, rfl, rfl, rfl, rfl, rfl, rfl, rfl, rfl, rfl, fun _ => rfl, rfl, rfl, rfl, rfl⟩

/-- Settles O2: the reset input is the host's act, which replaces the state. -/
theorem resetInputTakesAnyStateToReset : Obligations.ResetInputTakesAnyStateToReset := by
  intro s rest hs
  apply step_of_goto
  rw [State.nextMove, hs]
  rfl

end Sys2Proof.Machine
end

section
/-! PROOFS. What every step keeps: the bits that only the reset input clears (10_state.md R35, R37), the events that stand
in OUT (R54), and the response ports that are not the command's own (R32, R108). -/

namespace Sys2Proof.Machine

/-! ### Bits that stay set -/

/-- `st.disposed` and `st.pcr_seen` are set in `t` where they are set in `s` (R35, R37). -/
def BitsStay (s t : State) : Prop :=
  (s.disposed = true → t.disposed = true) ∧ (s.pcrSeen = true → t.pcrSeen = true)

theorem BitsStay.of_eq {s t : State} (hd : t.disposed = s.disposed) (hp : t.pcrSeen = s.pcrSeen) : BitsStay s t :=
  ⟨hd.trans, hp.trans⟩

theorem exec_bits_and_out {i : Instr} {s t : State} (he : exec i s = .next t) : BitsStay s t ∧ t.out = s.out := by
  cases hp : i.port with
  | s =>
    obtain ⟨st, v, ds, sb, pb, -, -, -, hx⟩ := exec_section i hp s.params s.sb s.pb
    cases he.symm.trans (hx s rfl rfl rfl)
    exact ⟨.of_eq rfl rfl, rfl⟩
  | c =>
    obtain ⟨st, v, reg, ep, pcr, -, -, -, -, hpcr, hx⟩ := exec_control i hp s
    cases he.symm.trans (hx s rfl rfl rfl rfl)
    exact ⟨⟨id, hpcr⟩, rfl⟩
  | d =>
    by_cases hn : ∀ data, i ≠ .addPayload data
    · obtain ⟨st, v, ds, reg, carry, dsp, -, -, -, hd, hx⟩ := exec_data i hp hn s
      cases he.symm.trans (hx s.cmd s.rsp s.sb s.pb)
      obtain ⟨-, -, hdsp⟩ | ⟨-, hdsp, -⟩ := hd
      · exact ⟨⟨fun _ => hdsp, id⟩, rfl⟩
      · exact ⟨.of_eq hdsp rfl, rfl⟩
    · push Not at hn
      obtain ⟨data, rfl⟩ := hn
      simp only [exec, execAddPayload] at he
      split at he
      · cases he
        exact ⟨.of_eq rfl rfl, rfl⟩
      · cases he
        rw [State.settle_frame]
        exact ⟨.of_eq rfl rfl, rfl⟩

/-- A later step of an ADD_PAYLOAD leaves the control bits alone. -/
theorem State.pumpTurn_bits (s : State) : s.pumpTurn.disposed = s.disposed ∧ s.pumpTurn.pcrSeen = s.pcrSeen := by
  unfold State.pumpTurn
  rw [State.settle_frame]
  split
  · exact ⟨rfl, rfl⟩
  · rw [State.pumpStep_frame]
    exact ⟨rfl, rfl⟩

theorem EngineAct.bitsStay {u t : State} (ha : EngineAct u t) : BitsStay u t := by
  cases ha with
  | idle => exact .of_eq rfl rfl
  | pump _ => exact .of_eq u.pumpTurn_bits.1 u.pumpTurn_bits.2
  | refuse p op rest => exact .of_eq rfl rfl
  | run _ hexec => exact (exec_bits_and_out hexec).1

theorem State.hostMove_bitsStay (s : State) {a : HostAct} (h : a ≠ .reset) : BitsStay s (s.hostMove a) := by
  cases a with
  | reset => exact absurd rfl h
  | push p w => exact .of_eq rfl rfl
  | popResponse p => exact .of_eq rfl rfl
  | popEvent => exact .of_eq rfl rfl

/-- Settles O8: of all acts only the host's reset clears a bit. -/
theorem disposedAndPcrSeenStaySetUntilReset : Obligations.DisposedAndPcrSeenStaySetUntilReset := by
  intro s t hstep hreset
  obtain ⟨a, rest, hs, rfl⟩ | ⟨rest, k, ha⟩ := step_cases hstep
  · exact State.hostMove_bitsStay { s with schedule := rest } fun h => hreset rest (h ▸ hs)
  · exact ha.bitsStay

/-! ### Events -/

/-- `new` is `old` with at most one event appended at its end (R54). -/
def AppendsAtMostOne (old new : List Event) : Prop := ∃ evs, new = old ++ evs ∧ evs.length ≤ 1

theorem AppendsAtMostOne.same {old new : List Event} (h : new = old) : AppendsAtMostOne old new :=
  ⟨[], by rw [h, List.append_nil], Nat.zero_le _⟩

theorem AppendsAtMostOne.one {old new : List Event} {e : Event} (h : new = old ++ [e]) : AppendsAtMostOne old new :=
  ⟨[e], h, Nat.le_refl _⟩

theorem State.route_out (s : State) (pid : Pid) (payload : List Byte) (pusi : Bool) (cc : Cc) (noinc : Bool) :
    AppendsAtMostOne s.out (s.route pid payload pusi cc noinc).out := by
  obtain h | ⟨e, -, h⟩ | ⟨e, -, h⟩ | ⟨e, t, r, -, -, h⟩ := State.route_cases s pid payload pusi cc noinc
  · exact .same (by rw [h])
  · exact .one (by rw [h, State.emit_out])
  · exact .one (by rw [h, State.emit_out])
  · rw [h]
    obtain ⟨-, h⟩ | ⟨b, -, h⟩ := State.delivered_cases s pid e t (r.deliver s.params t s.pcrSeen payload pusi cc noinc)
    · exact .same (by rw [h, State.setRecon_out])
    · exact .one (by rw [h, State.emit_out, State.setRecon_out])

theorem State.pumpStep_out (s : State) : AppendsAtMostOne s.out s.pumpStep.out := by
  obtain ⟨-, -, h⟩ | ⟨-, -, h⟩ | ⟨-, h⟩ | ⟨-, -, h⟩ := State.pumpStep_cases s <;> rw [h]
  · exact State.route_out { s with carry := s.carry.drop 188, pktCount := s.pktCount + 1 } _ _ _ _ _
  · exact .same rfl
  · exact .same rfl
  · exact .same rfl

theorem State.pumpTurn_out (s : State) : AppendsAtMostOne s.out s.pumpTurn.out := by
  unfold State.pumpTurn
  rw [State.settle_frame]
  split
  · exact .same rfl
  · exact s.pumpStep_out

theorem EngineAct.out {u t : State} (ha : EngineAct u t) : AppendsAtMostOne u.out t.out := by
  cases ha with
  | idle => exact .same rfl
  | pump _ => exact u.pumpTurn_out
  | refuse p op rest => exact .same rfl
  | run _ hexec => exact .same (exec_bits_and_out hexec).2

/-- Settles O9: of all engine acts only a pump step routes a packet, and routing emits at most once. -/
theorem engineStepAppendsAtMostOneEvent : Obligations.EngineStepAppendsAtMostOneEvent := by
  intro s t hstep hhost
  obtain ⟨a, rest, hs, -⟩ | ⟨rest, k, ha⟩ := step_cases hstep
  · exact absurd hs (hhost a rest)
  · exact ha.out

/-! ### Responses -/

/-- Settles O11: each engine's commands post one response, on the engine's own port. -/
theorem everyCommandAnswersOnItsOwnPort : Obligations.EveryCommandAnswersOnItsOwnPort := by
  intro i s t he hn
  cases hp : i.port with
  | s =>
    obtain ⟨st, v, ds, sb, pb, -, -, -, hx⟩ := exec_section i hp s.params s.sb s.pb
    cases he.symm.trans (hx s rfl rfl rfl)
    exact ⟨st, v, ds, rfl⟩
  | c =>
    obtain ⟨st, v, reg, ep, pcr, -, -, -, -, -, hx⟩ := exec_control i hp s
    cases he.symm.trans (hx s rfl rfl rfl rfl)
    exact ⟨st, v, [], rfl⟩
  | d =>
    obtain ⟨st, v, ds, reg, carry, dsp, -, -, -, -, hx⟩ := exec_data i hp hn s
    cases he.symm.trans (hx s.cmd s.rsp s.sb s.pb)
    exact ⟨st, v, ds, rfl⟩

end Sys2Proof.Machine
end

section
/-! PROOFS. The status and statistics registers and the two commands that read them (10_state.md R47 to R50;
40_demux.md R175; 42_reconstructor.md R270; 30_encoding.md R104, R109). -/

namespace Sys2Proof.Machine

open Sys2Proof.Stated

/-! ### Words -/

/-- A row of the opcode map whose format has no data words reads its command word alone (R104, R111 (b)). -/
theorem oneWord_of_opRow {op : BitVec 8} {r : OpRow} (h : opRow op = some r) (hf : r.format ≠ .fn) :
    OneWord r.port op r.format.reserved fun w => r.make w [] := by
  rintro w ws rfl
  have hrow : opRow (w.extractLsb' 24 8) = some r := h
  have hcount : r.format.byteCount w = 0 := Format.byteCount_of_ne_fn hf w
  simp [decode, opField, hrow, hcount, dataWords, unpack]

/-- The two data words of a 64-bit value as quotient and remainder (R109). -/
theorem wordsOf64_eq (v : BitVec 64) : wordsOf64 v = words64 v := by
  have hhi : v.extractLsb' 32 32 = BitVec.ofNat 32 (v.toNat / 2 ^ 32) := by
    rw [← BitVec.toNat_inj, toNat_extract, BitVec.toNat_ofNat]
  have hlo : v.extractLsb' 0 32 = BitVec.ofNat 32 (v.toNat % 2 ^ 32) := by
    rw [← BitVec.toNat_inj, toNat_extract, BitVec.toNat_ofNat, Nat.pow_zero, Nat.div_one, Nat.mod_mod]
  rw [wordsOf64, words64, hhi, hlo]

theorem toNat_ofBool_eq_bit (b : Bool) : (BitVec.ofBool b).toNat = bit b := by cases b <;> rfl

theorem bit_le_one (b : Bool) : bit b ≤ 1 := by cases b <;> decide

/-! ### The global registers -/

theorem exec_readGstat_value {s : State} {sel : BitVec 8} {v : BitVec 64} (h : globalReg s sel = some v) :
    exec (.readGstat sel) s = .next (s.post .d (0x05000000#32 :: words64 v)) := by
  rw [exec, execReadGstat, h]
  simp only [State.respond_eq, State.post_post, wordsOf64_eq]
  rfl

theorem globalReg_reserved (s : State) {sel : BitVec 8} (h : 0x06 < sel.toNat) : globalReg s sel = none := by
  unfold globalReg
  split
  case h_8 => rfl
  all_goals omega

/-- STATUS as a number, where its field holds the length of the carry buffer (R48). -/
theorem statusReg_eq {s : State} (h : s.carry.length ≤ 188) : statusReg s = BitVec.ofNat 64
    (bit s.disposed + 2 * bit (decide (s.sync = .inSync)) + 4 * bit s.pcrSeen + 256 * s.carry.length) := by
  apply BitVec.eq_of_toNat_eq
  show (0#48 ++ BitVec.ofNat 8 s.carry.length ++ 0#5 ++ BitVec.ofBool s.pcrSeen
    ++ BitVec.ofBool (decide (s.sync = .inSync)) ++ BitVec.ofBool s.disposed : BitVec (48 + 8 + 5 + 1 + 1 + 1)).toNat = _
  simp only [toNat_append_eq, toNat_ofBool_eq_bit, BitVec.toNat_ofNat]
  have h1 := bit_le_one s.disposed
  have h2 := bit_le_one (decide (s.sync = .inSync))
  have h3 := bit_le_one s.pcrSeen
  omega

theorem Registry.lookup_isSome_iff {r : Registry} (p : Pid) :
    (Registry.lookup p r).isSome = true ↔ p ∈ r.map Prod.fst := by
  induction r with
  | nil => simp
  | cons x r ih =>
    obtain ⟨q, e⟩ := x
    by_cases h : p = q <;> simp [Registry.lookup, h, ih]

/-- In the canonical form the PIDs that have an entry are as many as the entries (R38, R47). -/
theorem Registry.count_lookup {r : Registry} (h : Registry.Wf r) :
    ((List.range 0x2000).filter fun p => (Registry.lookup (BitVec.ofNat 13 p) r).isSome).length = r.length := by
  have hnodup : (r.map fun x => x.1.toNat).Nodup := List.pairwise_map.mpr (h.imp fun hlt => Nat.ne_of_lt hlt)
  have hperm : ((List.range 0x2000).filter fun p => (Registry.lookup (BitVec.ofNat 13 p) r).isSome).Perm
      (r.map fun x => x.1.toNat) := by
    refine (List.perm_ext_iff_of_nodup (List.nodup_range.filter _) hnodup).mpr fun p => ?_
    rw [List.mem_filter, List.mem_range, Registry.lookup_isSome_iff, List.mem_map, List.mem_map]
    constructor
    · rintro ⟨hp, x, hx, hpx⟩
      exact ⟨x, hx, by rw [hpx, BitVec.toNat_ofNat, Nat.mod_eq_of_lt hp]⟩
    · rintro ⟨x, hx, rfl⟩
      exact ⟨x.1.isLt, x, hx, by rw [BitVec.ofNat_toNat, BitVec.setWidth_eq]⟩
  rw [hperm.length_eq, List.length_map]

/-- Settles O38: one register a selector. -/
theorem readGstatAnswersTheGlobalRegister : Obligations.ReadGstatAnswersTheGlobalRegister := by
  refine ⟨oneWord_of_opRow (r := ⟨.d, .fs, fun w _ => .readGstat (lowByte w)⟩) rfl (by decide), fun s =>
    ⟨exec_readGstat_value rfl, exec_readGstat_value rfl, exec_readGstat_value rfl, exec_readGstat_value rfl, ?status,
      ?count, exec_readGstat_value rfl, ?reserved⟩⟩
  case status =>
    intro hlen
    rw [← statusReg_eq hlen]
    exact exec_readGstat_value rfl
  case count =>
    intro hwf
    rw [Registry.count_lookup hwf]
    exact exec_readGstat_value rfl
  case reserved =>
    intro sel hsel
    rw [exec, execReadGstat, globalReg_reserved s hsel]
    rfl

/-! ### The registers of a stream -/

theorem pidOf_eq_pidNamed (pid : BitVec 16) : pidOf pid = pidNamed pid := by
  rw [← BitVec.toNat_inj, pidOf, pidNamed, toNat_extract, BitVec.toNat_ofNat, Nat.pow_zero, Nat.div_one]

theorem State.streamAt_eq_none {s : State} {p : Pid} (h : NotStream s p) : s.streamAt p = none := by
  cases hs : s.streamAt p with
  | none => rfl
  | some x =>
    obtain ⟨e, t, r⟩ := x
    obtain ⟨hl, hc⟩ := State.streamAt_some hs
    obtain h | h := h e hl <;> rw [hc] at h <;> cases h

/-- What READ_SSTAT of a STREAM entry answers, by what its selector reads (R270, R367). -/
theorem exec_readSstat {s : State} {sel : BitVec 8} {pid : BitVec 16} {e : Entry} {t : StreamType} {r : Recon}
    (hsel : sel.toNat ≤ 0x07) (hd : s.disposed = false) (hp : pid.toNat ≤ 0x1FFF)
    (hs : StreamEntry s (pidNamed pid) e t r) :
    (streamReg e t r sel = .absent →
      exec (.readSstat sel pid) s = .next (s.post .d [0x06060000#32, 0#32, 0#32])) ∧
    ∀ v, streamReg e t r sel = .value v →
      exec (.readSstat sel pid) s = .next (s.post .d (0x06000000#32 :: words64 v)) := by
  have hat : s.streamAt (pidOf pid) = some (e, t, r) := pidOf_eq_pidNamed pid ▸ State.streamAt_of hs.1 hs.2
  have hin : pidInRange pid = true := decide_eq_true hp
  constructor
  · intro hv
    simp only [exec, execReadSstat, Nat.not_lt.mpr hsel, hd, hin, hat, hv, State.respond_eq, State.post_post]
    rfl
  · intro v hv
    simp only [exec, execReadSstat, Nat.not_lt.mpr hsel, hd, hin, hat, hv, State.respond_eq, State.post_post,
      wordsOf64_eq]
    rfl

theorem toNat_getD_zero (cc : Option Cc) : (cc.getD 0).toNat = cc.elim 0 BitVec.toNat := by cases cc <;> rfl

/-- STATE as a number, where its field holds the length of the buffer (R50). -/
theorem stateReg_eq (e : Entry) (t : StreamType) {r : Recon} (h : r.buf.length < 2 ^ 32) :
    stateReg e t r = BitVec.ofNat 64
      (bit r.collecting + 2 * bit r.lastCc.isSome + 16 * (r.lastCc.elim 0 BitVec.toNat) + 256 * bit r.disposed +
        512 * t.code.toNat + 2048 * bit e.small + 4096 * bit e.vhint + 2 ^ 32 * r.buf.length) := by
  rw [← toNat_getD_zero, stateReg, bufLenField, if_pos h]
  apply BitVec.eq_of_toNat_eq
  show (BitVec.ofNat 32 r.buf.length ++ 0#19 ++ BitVec.ofBool e.vhint ++ BitVec.ofBool e.small ++ t.code
    ++ BitVec.ofBool r.disposed ++ r.lastCc.getD 0 ++ 0#2 ++ BitVec.ofBool r.lastCc.isSome
    ++ BitVec.ofBool r.collecting : BitVec (32 + 19 + 1 + 1 + 2 + 1 + 4 + 2 + 1 + 1)).toNat = _
  simp only [toNat_append_eq, toNat_ofBool_eq_bit, BitVec.toNat_ofNat]
  have hcode := t.code.isLt
  have hcc := (r.lastCc.getD 0).isLt
  have h1 := bit_le_one r.collecting
  have h2 := bit_le_one r.lastCc.isSome
  have h3 := bit_le_one r.disposed
  have h4 := bit_le_one e.small
  have h5 := bit_le_one e.vhint
  omega

theorem unitLenRead_some {n : Nat} (h : n < 2 ^ 64) : unitLenRead (some n) = .value (BitVec.ofNat 64 n) := by
  rw [unitLenRead, unitLenReg, if_pos h]

/-- Settles O41: the refusals in the order of R368, then one register a selector. -/
theorem readSstatAnswersTheStreamRegister : Obligations.ReadSstatAnswersTheStreamRegister := by
  refine ⟨oneWord_of_opRow (r := ⟨.d, .fps, fun w _ => .readSstat (selHigh w) (lowHalf w)⟩) rfl (by decide),
    fun s sel pid => ⟨?reserved, ?disposed, ?range, ?notStream, ?stream⟩⟩
  case reserved =>
    intro hsel
    rw [exec, execReadSstat, if_pos hsel]
    rfl
  case disposed =>
    intro hsel hd
    rw [exec, execReadSstat, if_neg (Nat.not_lt.mpr hsel), if_pos hd]
    rfl
  case range =>
    intro hsel hd hp
    have hout : pidInRange pid = false := decide_eq_false (Nat.not_le.mpr hp)
    simp only [exec, execReadSstat, Nat.not_lt.mpr hsel, hd, hout]
    rfl
  case notStream =>
    intro hsel hd hp hs
    have hin : pidInRange pid = true := decide_eq_true hp
    simp only [exec, execReadSstat, Nat.not_lt.mpr hsel, hd, hin, pidOf_eq_pidNamed, State.streamAt_eq_none hs]
    rfl
  case stream =>
    intro e t r hd hp hs
    have hread (sel : BitVec 8) (hsel : sel.toNat ≤ 0x07) := exec_readSstat hsel hd hp hs
    refine ⟨(hread 0x00 (by decide)).2 _ rfl, (hread 0x01 (by decide)).2 _ rfl,
      fun hmin => (hread 0x02 (by decide)).1 ?_, fun n hmin hn => (hread 0x02 (by decide)).2 _ ?_,
      fun hmax => (hread 0x03 (by decide)).1 ?_, fun n hmax hn => (hread 0x03 (by decide)).2 _ ?_,
      (hread 0x04 (by decide)).2 _ rfl, fun hlen => (hread 0x05 (by decide)).2 _ ?_,
      (hread 0x06 (by decide)).2 _ rfl, (hread 0x07 (by decide)).2 _ rfl⟩
    · exact congrArg unitLenRead hmin
    · exact (congrArg unitLenRead hmin).trans (unitLenRead_some hn)
    · exact congrArg unitLenRead hmax
    · exact (congrArg unitLenRead hmax).trans (unitLenRead_some hn)
    · cases t <;> exact congrArg StreamRead.value (stateReg_eq e _ hlen)

end Sys2Proof.Machine
end

section
/-! PROOFS. The pump run to quiescence: its fuel past the bound of R411 makes no difference, and neither does the place
where the bytes it holds were cut into chunks (20_memory.md R85; 40_demux.md R150 to R153). -/

namespace Sys2Proof.Machine

open Sys2Proof.Stated

/-! ### Runs of the pump -/

theorem State.pumpRun_of_quiescent {s : State} (h : s.quiescent = true) (n : Nat) : State.pumpRun n s = s := by
  cases n with
  | zero => rfl
  | succ n => rw [State.pumpRun, if_pos h]

theorem State.pumpRun_succ {s : State} (h : s.quiescent = false) (n : Nat) :
    State.pumpRun (n + 1) s = State.pumpRun n s.pumpStep := by
  rw [State.pumpRun, h]
  rfl

@[simp] theorem State.pumpStep_cmd (s : State) : s.pumpStep.cmd = s.cmd := by rw [State.pumpStep_frame]
@[simp] theorem State.pumpStep_rsp (s : State) : s.pumpStep.rsp = s.rsp := by rw [State.pumpStep_frame]
@[simp] theorem State.pumpStep_sb (s : State) : s.pumpStep.sb = s.sb := by rw [State.pumpStep_frame]
@[simp] theorem State.pumpStep_pb (s : State) : s.pumpStep.pb = s.pb := by rw [State.pumpStep_frame]
@[simp] theorem State.pumpStep_params (s : State) : s.pumpStep.params = s.params := by rw [State.pumpStep_frame]
@[simp] theorem State.pumpStep_schedule (s : State) : s.pumpStep.schedule = s.schedule := by rw [State.pumpStep_frame]

theorem pumpMeasure_le (s : State) : pumpMeasure s ≤ 2 * s.carry.length + 1 := by
  unfold pumpMeasure
  split <;> omega

/-- Where the pump is not quiescent, fuel that covers its measure has a step to spend. -/
theorem State.exists_fuel {s : State} {n : Nat} (h : s.quiescent = false) (hn : pumpMeasure s ≤ n) :
    ∃ k, n = k + 1 ∧ pumpMeasure s.pumpStep ≤ k := by
  have hlt := State.pumpStep_measure h
  exact ⟨n - 1, by omega, by omega⟩

/-- Induction along the pump: it ends, because every enabled step brings its measure down (R411). -/
theorem State.pump_induction {P : State → Prop} (quiet : ∀ s, s.quiescent = true → P s)
    (step : ∀ s, s.quiescent = false → P s.pumpStep → P s) (s : State) : P s := by
  induction hm : pumpMeasure s using Nat.strong_induction_on generalizing s with
  | _ m ih =>
    cases hq : s.quiescent with
    | true => exact quiet s hq
    | false => exact step s hq (ih _ (hm ▸ State.pumpStep_measure hq) _ rfl)

/-- Two runs whose fuel covers the measure are the same run. -/
theorem State.pumpRun_eq_of_measure_le {s : State} {n m : Nat} (hn : pumpMeasure s ≤ n) (hm : pumpMeasure s ≤ m) :
    State.pumpRun n s = State.pumpRun m s := by
  induction s using State.pump_induction generalizing n m with
  | quiet s hq => rw [State.pumpRun_of_quiescent hq, State.pumpRun_of_quiescent hq]
  | step s hq ih =>
    obtain ⟨n, rfl, hn'⟩ := State.exists_fuel hq hn
    obtain ⟨m, rfl, hm'⟩ := State.exists_fuel hq hm
    rw [State.pumpRun_succ hq, State.pumpRun_succ hq, ih hn' hm']

theorem drained_of_quiescent {s : State} (h : s.quiescent = true) : drained s = s := State.pumpRun_of_quiescent h _

theorem drained_pumpStep {s : State} (h : s.quiescent = false) : drained s.pumpStep = drained s := by
  obtain ⟨k, hk, hle⟩ := State.exists_fuel h (pumpMeasure_le s)
  rw [drained, drained, hk, State.pumpRun_succ h, State.pumpRun_eq_of_measure_le (pumpMeasure_le s.pumpStep) hle]

/-! ### Bytes that come later -/

/-- `s` holding `data` as well, with its response queues and the D engine's place in its command replaced: nothing
that a pump step reads where it is enabled. -/
def State.grown (s : State) (data : List Byte) (rsp : Lanes) (busy : Bool) : State :=
  { s with carry := s.carry ++ data, rsp := rsp, pumping := busy }

theorem State.route_grown (s : State) (data : List Byte) (rsp : Lanes) (busy : Bool) (pid : Pid) (payload : List Byte)
    (pusi : Bool) (cc : Cc) (noinc : Bool) :
    (s.grown data rsp busy).route pid payload pusi cc noinc =
      (s.route pid payload pusi cc noinc).grown data rsp busy := by
  simp only [State.route, State.grown]
  split
  · rfl
  · split
    · rfl
    · split
      · rfl
      · rfl
      · simp only [State.delivered]
        split <;> rfl

theorem State.processPacket_grown (s : State) (data : List Byte) (rsp : Lanes) (busy : Bool) (pkt : List Byte) :
    (s.grown data rsp busy).processPacket pkt = (s.processPacket pkt).grown data rsp busy :=
  State.route_grown { s with pktCount := s.pktCount + 1 } data rsp busy _ _ _ _ _

/-- What the pump holds where it is not quiescent (R152). -/
theorem State.length_of_not_quiescent {s : State} (h : s.quiescent = false) :
    s.carry ≠ [] ∧ (s.sync = .inSync → 188 ≤ s.carry.length) ∧
      (s.sync = .scan → s.params.resyncMode = .stride → s.carry.head? = some syncByte → 188 < s.carry.length) := by
  have hq : ¬ s.quiescent = true := by simp [h]
  rw [State.quiescent, quiet_iff, ← List.head?_eq_getElem?, not_or, not_or] at hq
  obtain ⟨hsync, hempty, hstride⟩ := hq
  refine ⟨?_, fun hs => ?_, fun hs hm hb => ?_⟩
  · intro hnil
    cases hs : s.sync with
    | inSync => exact hsync ⟨hs, by simp [hnil]⟩
    | scan => exact hempty ⟨hs, by simp [hnil]⟩
  · exact Nat.not_lt.mp fun hlt => hsync ⟨hs, hlt⟩
  · exact Nat.not_le.mp fun hle => hstride ⟨hs, hm, hb, by omega⟩

/-- An enabled pump step does not reach past the bytes that stood there when it became enabled. -/
theorem State.pumpStep_grown {s : State} (h : s.quiescent = false) (data : List Byte) (rsp : Lanes) (busy : Bool) :
    (s.grown data rsp busy).pumpStep = s.pumpStep.grown data rsp busy := by
  obtain ⟨hne, hsync, hstride⟩ := State.length_of_not_quiescent h
  have hhead : (s.carry ++ data).head? = s.carry.head? := List.head?_append_of_ne_nil _ hne
  have htail : (s.carry ++ data).tail = s.carry.tail ++ data := List.tail_append_of_ne_nil hne
  cases hs : s.sync with
  | inSync =>
    have hlen := hsync hs
    by_cases hb : s.carry.head? = some syncByte
    · have htake : (s.carry ++ data).take pktLen = s.carry.take pktLen := List.take_append_of_le_length hlen
      have hdrop : (s.carry ++ data).drop pktLen = s.carry.drop pktLen ++ data := List.drop_append_of_le_length hlen
      simpa [State.pumpStep, State.grown, hs, hhead, hb, htake, hdrop] using
        State.processPacket_grown { s with carry := s.carry.drop pktLen } data rsp busy (s.carry.take pktLen)
    · simp [State.pumpStep, State.grown, hs, hhead, hb, State.skipByte, htail]
  | scan =>
    by_cases hb : s.carry.head? = some syncByte
    · cases hm : s.params.resyncMode with
      | single => simp [State.pumpStep, State.grown, hs, hhead, hb, hm]
      | stride =>
        have hnext : (s.carry ++ data)[pktLen]? = s.carry[pktLen]? := List.getElem?_append_left (hstride hs hm hb)
        by_cases hn : s.carry[pktLen]? = some syncByte
        · simp [State.pumpStep, State.grown, hs, hhead, hb, hm, hnext, hn]
        · simp [State.pumpStep, State.grown, hs, hhead, hb, hm, hnext, hn, State.skipByte, htail]
    · simp [State.pumpStep, State.grown, hs, hhead, hb, State.skipByte, htail]

theorem State.quiescent_grown {s : State} (h : s.quiescent = false) (data : List Byte) (rsp : Lanes) (busy : Bool) :
    (s.grown data rsp busy).quiescent = false := by
  obtain ⟨hne, hsync, hstride⟩ := State.length_of_not_quiescent h
  have hhead : (s.carry ++ data).head? = s.carry.head? := List.head?_append_of_ne_nil _ hne
  refine Bool.eq_false_of_not_eq_true fun hq => ?_
  rw [State.quiescent, quiet_iff, ← List.head?_eq_getElem?] at hq
  simp only [State.grown, hhead, List.length_append] at hq
  obtain ⟨hs, hlen⟩ | ⟨hs, hlen⟩ | ⟨hs, hm, hb, hlen⟩ := hq
  · have hle := hsync hs
    omega
  · exact hne (List.eq_nil_of_length_eq_zero (by omega))
  · have hlt := hstride hs hm hb
    omega

/-- Bytes that come when the pump has become quiescent could have stood there from the start. -/
theorem drained_grown_drained (s : State) (data : List Byte) (rsp : Lanes) (busy : Bool) :
    drained ((drained s).grown data rsp busy) = drained (s.grown data rsp busy) := by
  induction s using State.pump_induction with
  | quiet s hq => rw [drained_of_quiescent hq]
  | step s hq ih =>
    rw [← drained_pumpStep hq, ih, ← State.pumpStep_grown hq, drained_pumpStep (State.quiescent_grown hq data rsp busy)]

/-- The pump runs the same whatever stands in the response queues and in `pumping`. -/
theorem drained_grown_nil (s : State) (rsp : Lanes) (busy : Bool) :
    drained (s.grown [] rsp busy) = (drained s).grown [] rsp busy := by
  induction s using State.pump_induction with
  | quiet s hq =>
    have hq' : (s.grown [] rsp busy).quiescent = true := by
      rw [← hq, State.quiescent, State.quiescent, State.grown, List.append_nil]
    rw [drained_of_quiescent hq, drained_of_quiescent hq']
  | step s hq ih =>
    rw [← drained_pumpStep hq, ← ih, ← State.pumpStep_grown hq, drained_pumpStep (State.quiescent_grown hq [] rsp busy)]

/-- Settles O30: the first chunk's pump steps are the same steps where the second chunk stands behind them. -/
theorem chunkBoundariesMakeNoDifference : Obligations.ChunkBoundariesMakeNoDifference := by
  intro s a b
  have hdrained : drained ((addPayloadRun a s).feed b) =
      (drained (s.feed (a ++ b))).grown [] (addPayloadRun a s).rsp false :=
    calc drained ((drained (s.feed a)).grown b (addPayloadRun a s).rsp false)
      _ = drained ((s.feed a).grown b (addPayloadRun a s).rsp false) := drained_grown_drained _ _ _ _
      _ = drained ((s.feed (a ++ b)).grown [] (addPayloadRun a s).rsp false) := by simp [State.grown, State.feed]
      _ = (drained (s.feed (a ++ b))).grown [] (addPayloadRun a s).rsp false := drained_grown_nil _ _ _
  calc { addPayloadRun b (addPayloadRun a s) with rsp := s.rsp }
    _ = { drained ((addPayloadRun a s).feed b) with rsp := s.rsp, pumping := false } := rfl
    _ = { drained (s.feed (a ++ b)) with rsp := s.rsp, pumping := false } := by
      rw [hdrained, State.grown, List.append_nil]
    _ = { addPayloadRun (a ++ b) s with rsp := s.rsp } := rfl

end Sys2Proof.Machine
end

section
/-! PROOFS. An ADD_PAYLOAD from its words to its response: the decoder reads it, and each step of the D engine is one
pump step until the pump is quiescent (20_memory.md R78; 30_encoding.md R104; 40_demux.md R150, R151). -/

namespace Sys2Proof

/-- An FN command is read back from its own words, with any words behind them (R104). -/
theorem decode_wordsFN {op : BitVec 8} {r : OpRow} (hr : opRow op = some r) (hf : r.format = .fn) {data : List Byte}
    (hlen : data.length ≤ maxChunk) (rest : List Word) :
    decode r.port (wordsFN op data ++ rest) =
      .command (r.make (wordLow16 op (BitVec.ofNat 16 data.length)) data) rest := by
  have hcount : r.format.byteCount (wordLow16 op (BitVec.ofNat 16 data.length)) = data.length := by
    rw [hf, Format.byteCount, lowHalf_wordLow16, BitVec.toNat_ofNat]
    exact Nat.mod_eq_of_lt (Nat.lt_succ_of_le hlen)
  have hres : wordLow16 op (BitVec.ofNat 16 data.length) &&& r.format.reserved = 0 := by
    rw [hf]
    exact wordLow16_reserved op _
  have hds : dataWords data.length = (pack data).length := (pack_length data).symm
  simp [wordsFN, decode, hr, hcount, hres, hds, unpack_pack]

end Sys2Proof

namespace Sys2Proof.Machine

open Sys2Proof.Stated

theorem State.quiescent_iff_quiet (s : State) : s.quiescent = true ↔ Quiet s.params.resyncMode s.sync s.carry :=
  quiet_iff _ _ _

/-! ### The end of a step of an ADD_PAYLOAD -/

theorem State.settle_of_quiescent {s : State} (h : s.quiescent = true) :
    s.settle = State.post { s with pumping := false } .d [0x01000000#32] := by
  rw [State.settle, if_pos h]
  rfl

theorem State.settle_of_not_quiescent {s : State} (h : s.quiescent = false) :
    s.settle = { s with pumping := true } := by
  rw [State.settle, h]
  rfl

@[simp] theorem State.settle_sb (s : State) : s.settle.sb = s.sb := by rw [State.settle_frame]
@[simp] theorem State.settle_pb (s : State) : s.settle.pb = s.pb := by rw [State.settle_frame]
@[simp] theorem State.settle_params (s : State) : s.settle.params = s.params := by rw [State.settle_frame]

theorem State.settle_pumping (s : State) (busy : Bool) : State.settle { s with pumping := busy } = s.settle := rfl

theorem State.pumpTurn_of_not_quiescent {s : State} (h : s.quiescent = false) : s.pumpTurn = s.pumpStep.settle := by
  rw [State.pumpTurn, h]
  rfl

theorem exec_addPayload_disposed {s : State} (h : s.disposed = true) (data : List Byte) :
    exec (.addPayload data) s = .next (s.respond .d 0x01 .disposed 0) := by
  rw [exec, execAddPayload, if_pos h]
  rfl

theorem exec_addPayload_open {s : State} (h : s.disposed = false) (data : List Byte) :
    exec (.addPayload data) s = .next (s.feed data).settle := by
  rw [exec, execAddPayload, h]
  rfl

/-- The D engine goes on with the ADD_PAYLOAD in execution (R78, R80). -/
theorem engineMove_pumping {s : State} (h : s.pumping = true) : s.engineMove .d = .goto s.pumpTurn :=
  if_pos ⟨rfl, h⟩

/-- Settles O6: the D engine's move is a pump turn, which ends as `settle` says. -/
theorem engineStepOfAnAddPayloadIsOnePumpStep : Obligations.EngineStepOfAnAddPayloadIsOnePumpStep := by
  rintro s turns t hs hbusy hquiet rfl
  have hq : State.quiescent { s with schedule := turns } = false :=
    Bool.eq_false_of_not_eq_true ((State.quiescent_iff_quiet _).not.mpr hquiet)
  have hstep : step s = .next (State.pumpStep { s with schedule := turns }).settle := by
    rw [← State.pumpTurn_of_not_quiescent hq]
    exact step_of_goto ((nextMove_scheduled hs).trans (engineMove_pumping hbusy))
  rw [hstep, ← State.quiescent_iff_quiet, Bool.not_eq_true]
  exact ⟨fun h => by rw [State.settle_of_quiescent h], fun h => by rw [State.settle_of_not_quiescent h]⟩

/-! ### The machine with one command at most -/

/-- With nothing scheduled, no words on the ports and no ADD_PAYLOAD in execution the machine is at rest. -/
theorem run_at_rest {s : State} (hs : s.schedule = []) (hc : s.cmd = Lanes.empty) (hp : s.pumping = false) (n : Nat) :
    Host.Core.run Sys2Proof.core n s = .next s := by
  have hready : s.ready = [] := by simp [State.ready, State.canMove, hc, hp, Lanes.empty, Lanes.get, decode]
  have hstep : step s = .next s := step_of_goto (by rw [State.nextMove, hs, hready])
  induction n with
  | zero => rfl
  | succ n ih => rw [run_succ n hstep, ih]

/-- With nothing scheduled and no words on the ports the step of the machine is the D engine's, where an ADD_PAYLOAD is
in execution. -/
theorem step_pumping_alone {s : State} (hs : s.schedule = []) (hc : s.cmd = Lanes.empty) (hp : s.pumping = true) :
    step s = .next s.pumpTurn := by
  have hready : s.ready = [.d] := by simp [State.ready, State.canMove, hc, hp, Lanes.empty, Lanes.get, decode]
  exact step_of_goto ((nextMove_alone hs hready).trans (engineMove_pumping hp))

theorem State.pumpStep_pumping {s : State} (h : s.quiescent = false) (busy : Bool) :
    State.pumpStep { s with pumping := busy } = { s.pumpStep with pumping := busy } := by
  have hrsp := s.pumpStep_rsp
  simpa only [State.grown, List.append_nil, ← hrsp] using State.pumpStep_grown h [] s.rsp busy

/-- From the end of any step of an ADD_PAYLOAD the machine runs the pump to quiescence, posts the response and rests. -/
theorem run_settle {s : State} {n : Nat} (hs : s.schedule = []) (hc : s.cmd = Lanes.empty) (hn : pumpMeasure s ≤ n) :
    Host.Core.run Sys2Proof.core n s.settle =
      .next (State.post { drained s with pumping := false } .d [0x01000000#32]) := by
  induction s using State.pump_induction generalizing n with
  | quiet s hq =>
    rw [State.settle_of_quiescent hq, drained_of_quiescent hq]
    exact run_at_rest (s := State.post { s with pumping := false } .d [0x01000000#32]) hs hc rfl n
  | step s hq ih =>
    obtain ⟨n, rfl, hn'⟩ := State.exists_fuel hq hn
    have hq' : State.quiescent { s with pumping := true } = false := hq
    have hstep : step s.settle = .next s.pumpStep.settle := by
      rw [State.settle_of_not_quiescent hq, step_pumping_alone (s := { s with pumping := true }) hs hc rfl,
        State.pumpTurn_of_not_quiescent hq', State.pumpStep_pumping hq, State.settle_pumping]
    rw [← drained_pumpStep hq]
    exact (run_succ n hstep).trans (ih (s.pumpStep_schedule.trans hs) (s.pumpStep_cmd.trans hc) hn')

/-- Settles O29: the first step appends the bytes, and the rest is the pump's run. -/
theorem addPayloadRunsToItsResponse : Obligations.AddPayloadRunsToItsResponse := by
  intro s data hlen hs hp hd hcd hcc hcs
  have hcmd : s.cmd.set .d [] = Lanes.empty := by
    rw [Lanes.set, hcc, hcs]
    rfl
  have hdecode : decode .d (s.cmd.get .d) = .command (.addPayload data) [] := by
    have h := decode_wordsFN (op := 0x01#8) rfl rfl hlen []
    rw [List.append_nil] at h
    rw [Lanes.get, hcd]
    exact h
  have hready : s.ready = [.d] := by
    have hcempty : decode .c (s.cmd.get .c) = .empty := by rw [Lanes.get, hcc, decode]
    have hsempty : decode .s (s.cmd.get .s) = .empty := by rw [Lanes.get, hcs, decode]
    simp [State.ready, State.canMove, hp, hdecode, hcempty, hsempty]
  have hstep : step s = .next (State.feed { s with cmd := Lanes.empty } data).settle := by
    rw [step_of_run ((nextMove_alone hs hready).trans (engineMove_command (fun _ => hp) hdecode)), State.setCmd, hcmd]
    exact exec_addPayload_open (s := { s with cmd := Lanes.empty }) hd data
  have hbound : pumpMeasure (State.feed { s with cmd := Lanes.empty } data) ≤
      2 * (s.carry.length + data.length) + 1 := by
    rw [← List.length_append]
    exact pumpMeasure_le _
  exact (run_succ _ hstep).trans (run_settle hs rfl hbound)

end Sys2Proof.Machine
end

section
/-! PROOFS. What the engines leave alone: the S engine shares no state with the other two (20_memory.md R82), and a
read-type command writes its response port alone (R75). -/

namespace Sys2Proof.Machine

open Sys2Proof.Stated

/-! ### The S engine and the other two -/

theorem State.post_comm (s : State) {p q : Port} (h : p ≠ q) (ws vs : List Word) :
    (s.post p ws).post q vs = (s.post q vs).post p ws := by
  simp only [State.post, Lanes.get_set_other _ _ _ _ h, Lanes.get_set_other _ _ _ _ h.symm, Lanes.set_comm _ _ _ _ _ h]

/-- What a command of the S engine leaves: its two buffers, and the words on its response port. -/
def State.sectionWrite (s : State) (sb pb : List Byte) (ws : List Word) : State :=
  State.post { s with sb := sb, pb := pb } .s ws

/-- From `s`, `f` answers `u` without reading or writing what the S engine writes, or writing the parameters. -/
structure ApartFromSection (f : State → Answer State) (s u : State) : Prop where
  answer : f s = .next u
  sb_eq : u.sb = s.sb
  pb_eq : u.pb = s.pb
  params_eq : u.params = s.params
  commutes : ∀ sb pb ws, f (s.sectionWrite sb pb ws) = .next (u.sectionWrite sb pb ws)

theorem exec_section_commutes {i : Instr} {f : State → Answer State} {s u : State} (hi : i.port = .s)
    (h : ApartFromSection f s u) :
    ∃ t v, exec i s = .next t ∧ f t = .next v ∧ f s = .next u ∧ exec i u = .next v := by
  obtain ⟨st, v, ds, sb, pb, -, -, -, hexec⟩ := exec_section i hi s.params s.sb s.pb
  exact ⟨_, _, hexec s rfl rfl rfl, h.commutes sb pb _, h.answer, hexec u h.sb_eq h.pb_eq h.params_eq⟩

theorem State.post_sectionWrite (s : State) {p : Port} (hp : p ≠ .s) (vs : List Word) (sb pb : List Byte)
    (ws : List Word) : (s.sectionWrite sb pb ws).post p vs = (s.post p vs).sectionWrite sb pb ws :=
  State.post_comm { s with sb := sb, pb := pb } hp.symm ws vs

theorem State.settle_sectionWrite (s : State) (sb pb : List Byte) (ws : List Word) :
    (s.sectionWrite sb pb ws).settle = s.settle.sectionWrite sb pb ws := by
  cases hq : s.quiescent with
  | true =>
    rw [State.settle_of_quiescent hq, State.settle_of_quiescent (s := s.sectionWrite sb pb ws) hq]
    exact State.post_sectionWrite { s with pumping := false } (p := .d) (by decide) _ sb pb ws
  | false =>
    rw [State.settle_of_not_quiescent hq, State.settle_of_not_quiescent (s := s.sectionWrite sb pb ws) hq]
    rfl

theorem State.pumpStep_sectionWrite (s : State) (sb pb : List Byte) (ws : List Word) :
    (s.sectionWrite sb pb ws).pumpStep = s.pumpStep.sectionWrite sb pb ws := by
  calc (s.sectionWrite sb pb ws).pumpStep
    _ = s.pumpStep.overlay s.cmd (s.rsp.set .s (s.rsp.get .s ++ ws)) sb pb := State.pumpStep_overlay s _ _ sb pb
    _ = s.pumpStep.sectionWrite sb pb ws := by
      rw [← s.pumpStep_rsp, ← s.pumpStep_cmd]
      rfl

theorem State.pumpTurn_sectionWrite (s : State) (sb pb : List Byte) (ws : List Word) :
    (s.sectionWrite sb pb ws).pumpTurn = s.pumpTurn.sectionWrite sb pb ws := by
  have hq : (s.sectionWrite sb pb ws).quiescent = s.quiescent := rfl
  rw [State.pumpTurn, State.pumpTurn, hq, State.pumpStep_sectionWrite]
  split
  · exact State.settle_sectionWrite s sb pb ws
  · exact State.settle_sectionWrite s.pumpStep sb pb ws

theorem pumpTurn_apart (s : State) : ApartFromSection (fun u => .next u.pumpTurn) s s.pumpTurn := by
  have hframe : s.pumpTurn.sb = s.sb ∧ s.pumpTurn.pb = s.pb ∧ s.pumpTurn.params = s.params := by
    rw [State.pumpTurn, State.settle_sb, State.settle_pb, State.settle_params]
    split
    · exact ⟨rfl, rfl, rfl⟩
    · exact ⟨s.pumpStep_sb, s.pumpStep_pb, s.pumpStep_params⟩
  obtain ⟨hsb, hpb, hparams⟩ := hframe
  exact ⟨rfl, hsb, hpb, hparams, fun sb pb ws => congrArg _ (State.pumpTurn_sectionWrite s sb pb ws)⟩

theorem addPayload_apart (data : List Byte) (s : State) : ∃ u, ApartFromSection (exec (.addPayload data)) s u := by
  cases hd : s.disposed with
  | true =>
    refine ⟨_, exec_addPayload_disposed hd data, rfl, rfl, rfl, fun sb pb ws => ?_⟩
    exact (exec_addPayload_disposed (s := s.sectionWrite sb pb ws) hd data).trans
      (congrArg _ (State.post_sectionWrite s (p := .d) (by decide) _ sb pb ws))
  | false =>
    refine ⟨_, exec_addPayload_open hd data, State.settle_sb _, State.settle_pb _, State.settle_params _,
      fun sb pb ws => ?_⟩
    exact (exec_addPayload_open (s := s.sectionWrite sb pb ws) hd data).trans
      (congrArg _ (State.settle_sectionWrite (s.feed data) sb pb ws))

theorem exec_apart {j : Instr} (hj : j.port ≠ .s) (s : State) : ∃ u, ApartFromSection (exec j) s u := by
  cases hp : j.port with
  | s => exact absurd hp hj
  | c =>
    obtain ⟨st, v, reg, ep, pcr, -, -, -, -, -, hexec⟩ := exec_control j hp s
    refine ⟨_, hexec s rfl rfl rfl rfl, rfl, rfl, rfl, fun sb pb ws => ?_⟩
    exact (hexec (s.sectionWrite sb pb ws) rfl rfl rfl rfl).trans (congrArg _ (State.post_sectionWrite
      { s with reg := reg, epochNext := ep, pcrSeen := pcr } (p := .c) (by decide) _ sb pb ws))
  | d =>
    by_cases hn : ∀ data, j ≠ .addPayload data
    · obtain ⟨st, v, ds, reg, carry, dsp, -, -, -, -, hexec⟩ := exec_data j hp hn s
      refine ⟨_, hexec s.cmd s.rsp s.sb s.pb, rfl, rfl, rfl, fun sb pb ws => ?_⟩
      exact (hexec s.cmd (s.rsp.set .s (s.rsp.get .s ++ ws)) sb pb).trans (congrArg _ (State.post_sectionWrite
        { s with reg := reg, carry := carry, disposed := dsp } (p := .d) (by decide) _ sb pb ws))
    · push Not at hn
      obtain ⟨data, rfl⟩ := hn
      exact addPayload_apart data s

/-- Settles O17: each of the other engines' steps is apart from what an S engine command reads and writes. -/
theorem sectionEngineCommutesWithTheOthers : Obligations.SectionEngineCommutesWithTheOthers := by
  refine ⟨fun i j s hi hj => ?_, fun i s hi => ?_⟩
  · obtain ⟨u, hu⟩ := exec_apart hj s
    obtain ⟨t, v, hit, hjt, hju, hiu⟩ := exec_section_commutes hi hu
    exact ⟨t, u, v, hit, hjt, hju, hiu⟩
  · obtain ⟨t, v, hit, ⟨⟩, -, hiu⟩ := exec_section_commutes hi (pumpTurn_apart s)
    exact ⟨t, hit, hiu⟩

/-! ### Read-type commands -/

/-- The answer posts words on port `p` and changes nothing else. -/
def OnlyPosts (p : Port) (s : State) (a : Answer State) : Prop := ∃ ws, a = .next (s.post p ws)

theorem OnlyPosts.raise (p : Port) (op : BitVec 8) (st : Status) (s : State) :
    OnlyPosts p s (raise p op st s) := ⟨_, rfl⟩

theorem OnlyPosts.respond (p : Port) (op : BitVec 8) (st : Status) (v : BitVec 16) (s : State) :
    OnlyPosts p s (.next (s.respond p op st v)) := ⟨_, rfl⟩

/-- A response word and its data words are one post. -/
theorem OnlyPosts.respondData (p : Port) (op : BitVec 8) (st : Status) (v : BitVec 16) (ds : List Word) (s : State) :
    OnlyPosts p s (.next ((s.respond p op st v).post p ds)) :=
  ⟨_, congrArg Host.Outcome.next (State.post_post s p [responseWord op st v] ds)⟩

theorem readGstat_onlyPosts (sel : BitVec 8) (s : State) : OnlyPosts .d s (exec (.readGstat sel) s) := by
  rw [exec, execReadGstat]
  split
  · exact .raise ..
  · exact .respondData ..

theorem readSstat_onlyPosts (sel : BitVec 8) (pid : BitVec 16) (s : State) :
    OnlyPosts .d s (exec (.readSstat sel pid) s) := by
  rw [exec, execReadSstat]
  split
  · exact .raise ..
  · split
    · exact .raise ..
    · split
      · exact .raise ..
      · split
        · exact .raise ..
        · split
          · exact .raise ..
          · exact .respondData ..
          · exact .respondData ..

theorem pbRd8_onlyPosts (off : BitVec 12) (s : State) : OnlyPosts .s s (exec (.pbRd8 off) s) := by
  rw [exec, execPbRd8]
  split
  · exact .raise ..
  · exact .respond ..

theorem pbRd16_onlyPosts (off : BitVec 12) (s : State) : OnlyPosts .s s (exec (.pbRd16 off) s) := by
  rw [exec, execPbRd16]
  split
  · exact .raise ..
  · exact .respond ..

theorem pbRd12_onlyPosts (off : BitVec 12) (s : State) : OnlyPosts .s s (exec (.pbRd12 off) s) := by
  rw [exec, execPbRd12]
  split
  · exact .raise ..
  · exact .respond ..

theorem pbWalk_onlyPosts (off len : BitVec 12) (s : State) : OnlyPosts .s s (exec (.pbWalk off len) s) := by
  rw [exec, execPbWalk]
  split
  · exact .raise ..
  · exact .respondData ..

/-- Settles O15: each of the seven ends in a refusal or in an answer, and either is a post. -/
theorem readCommandsChangeOnlyTheirResponsePort : Obligations.ReadCommandsChangeOnlyTheirResponsePort := by
  rintro i s (⟨sel, rfl⟩ | ⟨sel, pid, rfl⟩ | rfl | ⟨off, rfl⟩ | ⟨off, rfl⟩ | ⟨off, rfl⟩ | ⟨off, len, rfl⟩)
  · exact readGstat_onlyPosts sel s
  · exact readSstat_onlyPosts sel pid s
  · exact OnlyPosts.respondData .s 0x27 .ok (BitVec.ofNat 16 s.sb.length) (pack s.sb) s
  · exact pbRd8_onlyPosts off s
  · exact pbRd16_onlyPosts off s
  · exact pbRd12_onlyPosts off s
  · exact pbWalk_onlyPosts off len s

end Sys2Proof.Machine
end

section
/-! PROOFS. The decoder on the words of its own port's commands and on those of others: every command is read back from
the words the encoder makes of it, and a foreign word keeps the framing (30_encoding.md R100 to R107, R111). -/

namespace Sys2Proof

open Sys2Proof.Stated Sys2Proof.Machine

/-! ### A listed opcode -/

/-- What a port answers to a listed opcode whose data words have all arrived (R104, R111). -/
theorem decode_listed {p : Port} {w : Word} {ds : List Word} {r : OpRow} (hr : opRow (opField w) = some r)
    (hds : ds.length = dataWords (r.format.byteCount w)) (ws : List Word) :
    decode p (w :: (ds ++ ws)) =
      if r.port ≠ p then .illegal .otherPort (opField w) ws
      else if w &&& r.format.reserved ≠ 0 then .illegal .reservedField (opField w) ws
      else .command (r.make w (unpack ds (r.format.byteCount w))) ws := by
  simp [decode, hr, ← hds]

/-- A row of format FN reads its command word and the `ceil(n/4)` data words (R104, R111 (b)). -/
theorem counted_of_opRow {op : BitVec 8} {p : Port} {make : List Byte → Instr}
    (h : opRow op = some ⟨p, .fn, fun _ data => make data⟩) : Counted p op make := by
  rintro w ds ws rfl hds
  rw [decode_listed (r := ⟨p, .fn, fun _ data => make data⟩) h hds, if_neg (not_not_intro rfl), ite_not]
  rfl

/-- A command word with no reserved bit set, of a format without data words, is read as its row's command. -/
theorem decode_word {p : Port} {f : Format} {make : Word → List Byte → Instr} {i : Instr} {w : Word}
    (hr : opRow (opField w) = some ⟨p, f, make⟩) (hf : f ≠ .fn) (hres : w &&& f.reserved = 0) (hi : make w [] = i)
    (rest : List Word) : decode p (w :: rest) = .command i rest := by
  rw [← hi]
  exact (oneWord_of_opRow hr hf w rest rfl).trans (if_pos hres)

/-! ### The command words of the encoder (R101) -/

theorem decode_wordF0 {op : BitVec 8} {p : Port} {i : Instr} (hr : opRow op = some ⟨p, .f0, fun _ _ => i⟩)
    (rest : List Word) : decode p (wordF0 op :: rest) = .command i rest :=
  decode_word ((congrArg opRow (opField_wordF0 op)).trans hr) (by decide) (wordF0_reserved op) rfl rest

theorem decode_wordLow16 {op : BitVec 8} {p : Port} {f : Format} {make : BitVec 16 → Instr}
    (hr : opRow op = some ⟨p, f, fun w _ => make (lowHalf w)⟩) (hf : f ≠ .fn) (hm : f.reserved = 0x00FF0000#32)
    (v : BitVec 16) (rest : List Word) : decode p (wordLow16 op v :: rest) = .command (make v) rest :=
  decode_word ((congrArg opRow (opField_wordLow16 op v)).trans hr) hf (hm ▸ wordLow16_reserved op v)
    (congrArg make (lowHalf_wordLow16 op v)) rest

theorem decode_wordLow8 {op : BitVec 8} {p : Port} {f : Format} {make : BitVec 8 → Instr}
    (hr : opRow op = some ⟨p, f, fun w _ => make (lowByte w)⟩) (hf : f ≠ .fn) (hm : f.reserved = 0x00FFFF00#32)
    (v : BitVec 8) (rest : List Word) : decode p (wordLow8 op v :: rest) = .command (make v) rest :=
  decode_word ((congrArg opRow (opField_wordLow8 op v)).trans hr) hf (hm ▸ wordLow8_reserved op v)
    (congrArg make (lowByte_wordLow8 op v)) rest

theorem decode_wordLow12 {op : BitVec 8} {p : Port} {make : BitVec 12 → Instr}
    (hr : opRow op = some ⟨p, .fo, fun w _ => make (low12 w)⟩) (v : BitVec 12) (rest : List Word) :
    decode p (wordLow12 op v :: rest) = .command (make v) rest :=
  decode_word ((congrArg opRow (opField_wordLow12 op v)).trans hr) (by decide) (wordLow12_reserved op v)
    (congrArg make (low12_wordLow12 op v)) rest

theorem decode_counted {op : BitVec 8} {p : Port} {make : List Byte → Instr} {data : List Byte}
    (hr : opRow op = some ⟨p, .fn, fun _ data => make data⟩) (hlen : data.length ≤ maxChunk) (rest : List Word) :
    decode p (wordsFN op data ++ rest) = .command (make data) rest :=
  decode_wordsFN hr rfl hlen rest

/-- A field that follows `x` and stands before `z` is read back from its place. -/
theorem extract_append_mid {l m n : Nat} (x : BitVec l) (y : BitVec m) (z : BitVec n) :
    (x ++ y ++ z).extractLsb' n m = y := by
  rw [extract_append_hi _ _ le_rfl, Nat.sub_self, BitVec.extractLsb'_append_eq_right]

theorem decode_readSstat (sel : BitVec 8) (pid : BitVec 16) (rest : List Word) :
    decode .d (encode (.readSstat sel pid) ++ rest) = .command (.readSstat sel pid) rest := by
  obtain ⟨w, ws, he, hop⟩ := Laws.HeadOpcode.readSstat sel pid
  cases he
  have hsel : selHigh (0x06#8 ++ sel ++ pid) = sel := extract_append_mid 0x06#8 sel pid
  have hpid : lowHalf (0x06#8 ++ sel ++ pid) = pid := BitVec.extractLsb'_append_eq_right
  exact decode_word (f := .fps) (congrArg opRow hop) (by decide) BitVec.and_zero
    (congrArg₂ Instr.readSstat hsel hpid) rest

theorem decode_pbWalk (off len : BitVec 12) (rest : List Word) :
    decode .s (encode (.pbWalk off len) ++ rest) = .command (.pbWalk off len) rest := by
  obtain ⟨w, ws, he, hop⟩ := Laws.HeadOpcode.pbWalk off len
  cases he
  have hoff : high12 (0x34#8 ++ off ++ len) = off := extract_append_mid 0x34#8 off len
  have hlen : low12 (0x34#8 ++ off ++ len) = len := BitVec.extractLsb'_append_eq_right
  exact decode_word (f := .fw) (congrArg opRow hop) (by decide) BitVec.and_zero
    (congrArg₂ Instr.pbWalk hoff hlen) rest

theorem getLsbD_eq_of_extract {n s : Nat} {x : BitVec n} {b : Bool} (h : x.extractLsb' s 1 = BitVec.ofBool b) :
    x.getLsbD s = b := by
  rw [← ofBool_getLsbD_eq_extract] at h
  simpa using congrArg (·.getLsbD 0) h

/-- The command word of SET_FILTER (R101, format FF). -/
def filterWord (kind stype : BitVec 2) (small video : Bool) (pid : BitVec 16) : Word :=
  0x10#8 ++ kind ++ stype ++ BitVec.ofBool small ++ BitVec.ofBool video ++ 0#2 ++ pid

section
variable (kind stype : BitVec 2) (small video : Bool) (pid : BitVec 16)

theorem filterWord_toNat : (filterWord kind stype small video pid).toNat =
    0x10 * 2 ^ 24 + kind.toNat * 2 ^ 22 + stype.toNat * 2 ^ 20 + (BitVec.ofBool small).toNat * 2 ^ 19 +
      (BitVec.ofBool video).toNat * 2 ^ 18 + pid.toNat := by
  show (0x10#8 ++ kind ++ stype ++ BitVec.ofBool small ++ BitVec.ofBool video ++ 0#2 ++ pid :
    BitVec (8 + 2 + 2 + 1 + 1 + 2 + 16)).toNat = _
  simp only [toNat_append_eq, BitVec.toNat_ofNat]
  omega

theorem kindField_filterWord : kindField (filterWord kind stype small video pid) = kind := by
  simp only [kindField, ← BitVec.toNat_inj, toNat_extract, filterWord_toNat]
  omega

theorem stypeField_filterWord : stypeField (filterWord kind stype small video pid) = stype := by
  simp only [stypeField, ← BitVec.toNat_inj, toNat_extract, filterWord_toNat]
  omega

theorem smallField_filterWord : smallField (filterWord kind stype small video pid) = small := by
  apply getLsbD_eq_of_extract
  simp only [← BitVec.toNat_inj, toNat_extract, filterWord_toNat]
  omega

theorem videoField_filterWord : videoField (filterWord kind stype small video pid) = video := by
  apply getLsbD_eq_of_extract
  simp only [← BitVec.toNat_inj, toNat_extract, filterWord_toNat]
  omega

theorem lowHalf_filterWord : lowHalf (filterWord kind stype small video pid) = pid :=
  BitVec.extractLsb'_append_eq_right

theorem filterWord_reserved : filterWord kind stype small video pid &&& 0x00030000#32 = 0 := by
  show (0x10#8 ++ kind ++ stype ++ BitVec.ofBool small ++ BitVec.ofBool video ++ 0#2 ++ pid :
    BitVec (8 + 2 + 2 + 1 + 1 + 2 + 16)) &&& (0#8 ++ 0#2 ++ 0#2 ++ 0#1 ++ 0#1 ++ 3#2 ++ 0#16) = 0
  simp only [BitVec.and_append, BitVec.and_zero, BitVec.zero_and]
  rfl

theorem opField_filterWord : opField (filterWord kind stype small video pid) = 0x10#8 := by
  obtain ⟨w, ws, he, hop⟩ := Laws.HeadOpcode.setFilter kind stype small video pid
  cases he
  exact hop

theorem decode_filterWord (rest : List Word) :
    decode .c (filterWord kind stype small video pid :: rest) =
      .command (.setFilter kind stype small video pid) rest := by
  refine decode_word (f := .ff) (congrArg opRow (opField_filterWord kind stype small video pid)) (by decide)
    (filterWord_reserved kind stype small video pid) ?_ rest
  simp only [kindField_filterWord, stypeField_filterWord, smallField_filterWord, videoField_filterWord,
    lowHalf_filterWord]

end

/-! ### Decode and encode agree -/

/-- Settles O19: by the shape of each command's words. -/
theorem decodeOfEncodeGivesTheCommand : Obligations.DecodeOfEncodeGivesTheCommand := by
  intro i rest hfits
  have hlen : i.data.length ≤ maxChunk := of_decide_eq_true hfits
  cases i with
  | dispose | clearFilters | setPcrSeen | sbClear | sbReserve | sbToBytes => exact decode_wordF0 rfl rest
  | resetStream v | disposeStream v | requestSection v | removeFilter v | sbAppendU16 v | sbBackfill v =>
    exact decode_wordLow16 rfl (by decide) rfl v rest
  | readGstat v | sbAppendByte v => exact decode_wordLow8 rfl (by decide) rfl v rest
  | pbRd8 v | pbRd16 v | pbRd12 v => exact decode_wordLow12 rfl v rest
  | addPayload data | sbAppendBytes data | sbAppendLang data | pbLoad data => exact decode_counted rfl hlen rest
  | readSstat sel pid => exact decode_readSstat sel pid rest
  | setFilter kind stype small video pid => exact decode_filterWord kind stype small video pid rest
  | pbWalk off len => exact decode_pbWalk off len rest

/-! ### Foreign opcodes (R111 (a)) -/

/-- The opcodes of the three ports (R105, R106, R107). -/
def listedOpcodes : List Nat :=
  [0x01, 0x02, 0x03, 0x04, 0x05, 0x06, 0x10, 0x11, 0x12, 0x13, 0x14, 0x20, 0x21, 0x22, 0x23, 0x24, 0x25, 0x26, 0x27,
    0x30, 0x31, 0x32, 0x33, 0x34]

theorem opcode_listed (i : Instr) : i.opcode.toNat ∈ listedOpcodes := by
  cases i <;> exact of_decide_eq_true rfl

/-- A row of the opcode map makes commands of its opcode, so an unlisted opcode has none. -/
theorem opRow_of_not_listed {op : BitVec 8} (h : op.toNat ∉ listedOpcodes) : opRow op = none := by
  cases hr : opRow op with
  | none => rfl
  | some r =>
    obtain ⟨-, hop⟩ := opRow_make hr 0 []
    exact absurd (hop ▸ opcode_listed (r.make 0 [])) h

/-- The commands of format FN by their opcodes (R105, R107). -/
theorem opRow_format (i : Instr) : ∃ r, opRow i.opcode = some r ∧ r.port = i.port ∧
    (r.format = .fn ↔ i.opcode.toNat ∈ [0x01, 0x23, 0x24, 0x30]) := by
  cases i <;> exact ⟨_, rfl, rfl, of_decide_eq_true rfl⟩

/-- The number of data words behind a command word (R104). -/
theorem Format.dataWords_byteCount (f : Format) (w : Word) :
    dataWords (f.byteCount w) = if f = .fn then ((w.extractLsb' 0 16).toNat + 3) / 4 else 0 := by
  by_cases hf : f = .fn
  · subst hf
    rfl
  · rw [if_neg hf, byteCount_of_ne_fn hf]
    rfl

/-- Settles O18: the opcode map has no row, or has that of another port. -/
theorem foreignOpcodesAreIllegalAndKeepFraming : Obligations.ForeignOpcodesAreIllegalAndKeepFraming := by
  refine ⟨fun p w ws hw => ?_, fun p w i ds ws hp hop hds => ?_⟩
  · have hrow : opRow (opField w) = none := opRow_of_not_listed hw
    rw [decode, hrow]
    rfl
  · obtain ⟨r, hr, hport, hfn⟩ := opRow_format i
    have hcount := (r.format.dataWords_byteCount w).trans (if_congr hfn rfl rfl)
    rw [decode_listed ((congrArg opRow hop).trans hr) (hds.trans hcount.symm), if_pos (hport ▸ hp)]
    rfl

/-- Settles O22: the decoder is run on the five words. -/
theorem wordsOfTheSpecDecode : Obligations.WordsOfTheSpecDecode := by
  unfold Obligations.WordsOfTheSpecDecode
  decide

end Sys2Proof
end

section
/-! PROOFS. The first step of ADD_PAYLOAD, and SB_TO_BYTES (20_memory.md R78; 40_demux.md R150; 60_exceptions.md R364;
43_section_buffer.md R298). -/

namespace Sys2Proof.Machine

open Sys2Proof.Stated

/-- Settles O36: an open block's first step is `settle` on the grown buffer. -/
theorem addPayloadAppendsItsChunk : Obligations.AddPayloadAppendsItsChunk := by
  refine ⟨counted_of_opRow rfl, fun s data => ?_⟩
  have hquiet := State.quiescent_iff_quiet (s.feed data)
  refine ⟨fun hd => exec_addPayload_disposed hd data, fun hd hq => ?_, fun hd hq => ?_⟩
  · rw [exec_addPayload_open hd, State.settle_of_quiescent (hquiet.mpr hq)]
    rfl
  · rw [exec_addPayload_open hd, State.settle_of_not_quiescent (Bool.eq_false_of_not_eq_true (hquiet.not.mpr hq))]
    rfl

/-- Settles O54: the response word and the data words are one post. -/
theorem sbToBytesAnswersTheBuffer : Obligations.SbToBytesAnswersTheBuffer :=
  ⟨oneWord_of_opRow (r := ⟨.s, .f0, fun _ _ => .sbToBytes⟩) rfl (by decide),
    fun s => congrArg Host.Outcome.next (State.post_post s .s [responseWord 0x27#8 .ok _] (pack s.sb))⟩

end Sys2Proof.Machine
end

section
/-! PROOFS. The rules of the pump step, case by case, and the run of the pump over junk and packets (40_demux.md R152,
R153, R161; R411). -/

namespace Sys2Proof.Machine

open Sys2Proof.Stated

/-! ### Where the pump has a step to take (R152) -/

/-- Settles O23: the model's test written as the three cases. -/
theorem quiescenceIsAsTheRuleSays : Obligations.QuiescenceIsAsTheRuleSays := State.quiescent_iff_quiet

theorem State.quiescent_eq_false {s : State} (h : ¬ Quiet s.params.resyncMode s.sync s.carry) : s.quiescent = false :=
  Bool.eq_false_of_not_eq_true (s.quiescent_iff_quiet.not.mpr h)

theorem State.not_quiescent_of_packet {s : State} (hs : s.sync = .inSync) (hlen : 188 ≤ s.carry.length) :
    s.quiescent = false := by
  apply State.quiescent_eq_false
  simp [Quiet, hs, hlen]

theorem State.not_quiescent_of_junk {s : State} {b : Byte} {rest : List Byte} (hs : s.sync = .scan)
    (hc : s.carry = b :: rest) (hb : b ≠ syncByte) : s.quiescent = false := by
  have hb' : b ≠ 0x47#8 := hb
  apply State.quiescent_eq_false
  simp [Quiet, hs, hc, hb']

theorem State.not_quiescent_of_stride {s : State} (hs : s.sync = .scan) (hlen : 188 < s.carry.length) :
    s.quiescent = false := by
  apply State.quiescent_eq_false
  rintro (⟨hin, -⟩ | ⟨-, hempty⟩ | ⟨-, -, -, hshort⟩)
  · exact absurd (hs.symm.trans hin) (by decide)
  · omega
  · omega

/-! ### One pump step (R153) -/

section
variable {s : State} {b : Byte} {rest : List Byte} (hc : s.carry = b :: rest)
include hc

theorem State.head_carry_eq_iff : s.carry.head? = some syncByte ↔ b = syncByte := by
  rw [hc, List.head?_cons, Option.some_inj]

theorem State.skipByte_of_cons : s.skipByte = { s with carry := rest, skipBytes := s.skipBytes + 1 } := by
  rw [State.skipByte, hc, List.tail_cons]

theorem State.pumpStep_takes_packet (hs : s.sync = .inSync) (hb : b = syncByte) :
    s.pumpStep = State.processPacket { s with carry := s.carry.drop 188 } (s.carry.take 188) := by
  rw [State.pumpStep, hs]
  exact if_pos ((State.head_carry_eq_iff hc).mpr hb)

theorem State.pumpStep_loses_sync (hs : s.sync = .inSync) (hb : b ≠ syncByte) :
    s.pumpStep = { s with
      sync := .scan, resyncCount := s.resyncCount + 1, carry := rest, skipBytes := s.skipBytes + 1 } := by
  rw [State.pumpStep, hs]
  exact (if_neg ((State.head_carry_eq_iff hc).not.mpr hb)).trans
    (State.skipByte_of_cons (s := { s with sync := .scan, resyncCount := s.resyncCount + 1 }) hc)

theorem State.pumpStep_skips_junk (hs : s.sync = .scan) (hb : b ≠ syncByte) :
    s.pumpStep = { s with carry := rest, skipBytes := s.skipBytes + 1 } := by
  rw [← State.skipByte_of_cons hc, State.pumpStep, hs]
  exact if_pos ((State.head_carry_eq_iff hc).not.mpr hb)

theorem State.pumpStep_regains_single (hs : s.sync = .scan) (hb : b = syncByte) (hm : s.params.resyncMode = .single) :
    s.pumpStep = { s with sync := .inSync } := by
  rw [State.pumpStep, hs, hm]
  exact if_neg (not_not_intro ((State.head_carry_eq_iff hc).mpr hb))

/-- At a sync byte in STRIDE mode the byte 188 places on decides. -/
theorem State.pumpStep_stride (hs : s.sync = .scan) (hb : b = syncByte) (hm : s.params.resyncMode = .stride) :
    s.pumpStep = if s.carry[188]? = some syncByte then { s with sync := .inSync }
      else { s with carry := rest, skipBytes := s.skipBytes + 1 } := by
  rw [← State.skipByte_of_cons hc, State.pumpStep, hs, hm]
  exact if_neg (not_not_intro ((State.head_carry_eq_iff hc).mpr hb))

end

/-- Settles O24: the rules of the pump step above. -/
theorem pumpStepIsAsTheRuleSays : Obligations.PumpStepIsAsTheRuleSays := by
  intro s b rest hc
  refine ⟨fun hs _ hb => State.pumpStep_takes_packet hc hs hb, fun hs _ hb => State.pumpStep_loses_sync hc hs hb,
    fun hs hb => State.pumpStep_skips_junk hc hs hb, fun hs hb hm => State.pumpStep_regains_single hc hs hb hm,
    fun hs hb hm hnext => ?regains, fun hs hb hm x hnext hx => ?skips⟩
  case regains => exact (State.pumpStep_stride hc hs hb hm).trans (if_pos hnext)
  case skips =>
    refine (State.pumpStep_stride hc hs hb hm).trans (if_neg fun h => hx ?_)
    exact Option.some_inj.mp (hnext.symm.trans h)

/-! ### Runs of the pump (R411) -/

theorem State.pumpRun_quiescent {s : State} {n : Nat} (hn : pumpMeasure s ≤ n) :
    (State.pumpRun n s).quiescent = true := by
  induction s using State.pump_induction generalizing n with
  | quiet s hq => rwa [State.pumpRun_of_quiescent hq]
  | step s hq ih =>
    obtain ⟨n, rfl, hn'⟩ := State.exists_fuel hq hn
    rw [State.pumpRun_succ hq]
    exact ih hn'

/-- Settles O28: the bound of R411 covers the measure, and fuel past the measure makes no difference. -/
theorem pumpIsQuiescentWithinItsBound : Obligations.PumpIsQuiescentWithinItsBound := by
  intro s n hn
  have hle : pumpMeasure s ≤ n := (pumpMeasure_le s).trans hn
  exact ⟨State.pumpRun_quiescent hle, State.pumpRun_eq_of_measure_le hle (pumpMeasure_le s)⟩

/-! ### Resynchronisation (R161) -/

/-- One more than `n` discarded bytes, counted (R36). -/
theorem add_one_add_ofNat (x : Ctr) (n : Nat) : x + 1 + BitVec.ofNat 64 n = x + BitVec.ofNat 64 (n + 1) := by
  rw [BitVec.add_assoc, BitVec.add_comm 1, BitVec.ofNat_add]
  rfl

/-- Out of step the pump discards and counts bytes that are no sync byte, one a step. -/
theorem State.pumpRun_junk {s : State} {junk c : List Byte} (hs : s.sync = .scan) (hj : syncByte ∉ junk)
    (hc : s.carry = junk ++ c) (n : Nat) :
    State.pumpRun (n + junk.length) s =
      State.pumpRun n { s with carry := c, skipBytes := s.skipBytes + BitVec.ofNat 64 junk.length } := by
  induction junk generalizing s with
  | nil =>
    obtain rfl : s.carry = c := hc
    simp
  | cons b junk ih =>
    have hb : b ≠ syncByte := (List.ne_of_not_mem_cons hj).symm
    rw [List.length_cons, ← Nat.add_assoc, State.pumpRun_succ (State.not_quiescent_of_junk hs hc hb),
      State.pumpStep_skips_junk hc hs hb, ← add_one_add_ofNat]
    exact ih (s := { s with carry := junk ++ c, skipBytes := s.skipBytes + 1 }) hs (List.not_mem_of_not_mem_cons hj) rfl

/-- `s` after `k` discarded bytes and one resynchronisation, with the bytes `c` left (R36, R153). -/
def State.resynced (s : State) (k : Nat) (c : List Byte) : State :=
  { s with skipBytes := s.skipBytes + BitVec.ofNat 64 k, resyncCount := s.resyncCount + 1, carry := c }

/-- In step at a byte that is no sync byte the pump loses sync once, and with it the junk. -/
theorem State.pumpRun_loses_sync {s : State} {junk c : List Byte} (hs : s.sync = .inSync) (hne : junk ≠ [])
    (hj : syncByte ∉ junk) (hc : s.carry = junk ++ c) (hlen : 188 ≤ s.carry.length) (n : Nat) :
    State.pumpRun (n + junk.length) s = State.pumpRun n { s.resynced junk.length c with sync := .scan } := by
  obtain ⟨b, junk, rfl⟩ := List.exists_cons_of_ne_nil hne
  rw [List.length_cons, ← Nat.add_assoc, State.pumpRun_succ (State.not_quiescent_of_packet hs hlen),
    State.pumpStep_loses_sync hc hs (List.ne_of_not_mem_cons hj).symm, State.resynced, ← add_one_add_ofNat]
  exact State.pumpRun_junk rfl (List.not_mem_of_not_mem_cons hj) rfl n

theorem State.foldl_processPacket_carry (s : State) (c : List Byte) (pkts : List (List Byte)) :
    pkts.foldl State.processPacket { s with carry := c } = { pkts.foldl State.processPacket s with carry := c } := by
  induction pkts generalizing s with
  | nil => rfl
  | cons pkt pkts ih => rw [List.foldl_cons, List.foldl_cons, State.processPacket_carry, ih]

@[simp] theorem State.processPacket_sync (s : State) (pkt : List Byte) : (s.processPacket pkt).sync = s.sync := by
  rw [State.processPacket_frame]

/-- A packet's bytes as the carry buffer holds them (R119). -/
def IsPacket (pkt : List Byte) : Prop := pkt.length = 188 ∧ pkt[0]? = some syncByte

theorem IsPacket.exists_cons {pkt : List Byte} (h : IsPacket pkt) :
    ∃ body, pkt = syncByte :: body ∧ body.length = 187 := by
  obtain ⟨hlen, hhead⟩ := h
  cases pkt with
  | nil => cases hhead
  | cons b body => exact ⟨body, by rw [Option.some_inj.mp hhead], Nat.succ.inj hlen⟩

/-- In step the pump takes a packet at the head of the carry buffer. -/
theorem State.pumpStep_packet {s : State} {pkt c : List Byte} (hs : s.sync = .inSync) (hp : IsPacket pkt)
    (hc : s.carry = pkt ++ c) : s.pumpStep = { s.processPacket pkt with carry := c } := by
  obtain ⟨body, rfl, -⟩ := hp.exists_cons
  rw [State.pumpStep_takes_packet hc hs rfl, hc, List.drop_left' hp.1, List.take_left' hp.1, State.processPacket_carry]

/-- In step the pump takes the packets it holds, one a step. -/
theorem State.pumpRun_packets {s : State} {pkts : List (List Byte)} {rest : List Byte} (hs : s.sync = .inSync)
    (hp : ∀ pkt ∈ pkts, IsPacket pkt) (hc : s.carry = pkts.flatten ++ rest) :
    State.pumpRun pkts.length s = { pkts.foldl State.processPacket s with carry := rest } := by
  induction pkts generalizing s with
  | nil =>
    obtain rfl : s.carry = rest := hc
    rfl
  | cons pkt pkts ih =>
    obtain ⟨hpkt, hpkts⟩ := List.forall_mem_cons.mp hp
    rw [List.flatten_cons, List.append_assoc] at hc
    have hlen : 188 ≤ s.carry.length := by
      rw [hc, List.length_append, hpkt.1]
      exact Nat.le_add_right _ _
    rw [List.length_cons, State.pumpRun_succ (State.not_quiescent_of_packet hs hlen), State.pumpStep_packet hs hpkt hc]
    exact (ih (s := { s.processPacket pkt with carry := pkts.flatten ++ rest }) ((s.processPacket_sync pkt).trans hs)
      hpkts rfl).trans (congrArg (fun u : State => { u with carry := rest }) (State.foldl_processPacket_carry _ _ pkts))

/-- Where STRIDE mode regains sync: two packets in a row are at the head of the bytes. -/
theorem stride_of_two_packets {pkts : List (List Byte)} (htwo : 2 ≤ pkts.length) (hp : ∀ pkt ∈ pkts, IsPacket pkt)
    (rest : List Byte) : ∃ tail, pkts.flatten ++ rest = syncByte :: tail ∧ tail[187]? = some syncByte := by
  match pkts, htwo with
  | pkt :: next :: more, _ =>
    obtain ⟨body, rfl, hbody⟩ := (hp pkt (by simp)).exists_cons
    obtain ⟨body', rfl, -⟩ := (hp next (by simp)).exists_cons
    refine ⟨body ++ syncByte :: (body' ++ more.flatten ++ rest), by simp, ?_⟩
    rw [List.getElem?_append_right hbody.le, hbody]
    rfl

theorem State.pumpRun_regains_stride {s : State} {tail : List Byte} (hs : s.sync = .scan)
    (hm : s.params.resyncMode = .stride) (hc : s.carry = syncByte :: tail) (hnext : tail[187]? = some syncByte)
    (n : Nat) : State.pumpRun (n + 1) s = State.pumpRun n { s with sync := .inSync } := by
  have hnext' : s.carry[188]? = some syncByte := by rw [hc, List.getElem?_cons_succ, hnext]
  have hlen : 188 < s.carry.length := (List.getElem?_eq_some_iff.mp hnext').1
  rw [State.pumpRun_succ (State.not_quiescent_of_stride hs hlen), State.pumpStep_stride hc hs rfl hm, if_pos hnext']

/-- Settles O31: the pump loses sync and the junk, regains sync at the first packet and takes every packet. -/
theorem resynchronisationLosesOnlyTheJunk : Obligations.ResynchronisationLosesOnlyTheJunk := by
  intro s junk pkts rest hm hs hjunk hnosync htwo hpkts hc
  rw [List.append_assoc] at hc
  obtain ⟨tail, htail, hnext⟩ := stride_of_two_packets htwo hpkts rest
  have hlen : 188 ≤ s.carry.length := by
    have htl : 187 < tail.length := (List.getElem?_eq_some_iff.mp hnext).1
    rw [hc, htail, List.length_append, List.length_cons]
    omega
  have hsync (c : List Byte) : { s.resynced junk.length c with sync := .inSync } = s.resynced junk.length c := by
    rw [← hs]
    rfl
  calc State.pumpRun (junk.length + 1 + pkts.length) s
    _ = State.pumpRun (pkts.length + 1 + junk.length) s := by
      congr 1
      omega
    _ = State.pumpRun (pkts.length + 1) { s.resynced junk.length (pkts.flatten ++ rest) with sync := .scan } :=
      State.pumpRun_loses_sync hs hjunk hnosync hc hlen _
    _ = State.pumpRun pkts.length (s.resynced junk.length (pkts.flatten ++ rest)) := by
      rw [State.pumpRun_regains_stride rfl ?_ ?_ hnext, hsync]
      · exact hm
      · exact htail
    _ = { pkts.foldl State.processPacket (s.resynced junk.length (pkts.flatten ++ rest)) with carry := rest } :=
      State.pumpRun_packets hs hpkts rfl
    _ = { pkts.foldl State.processPacket (s.resynced junk.length s.carry) with carry := rest } :=
      congrArg (fun u : State => { u with carry := rest })
        (State.foldl_processPacket_carry (s.resynced junk.length s.carry) _ pkts)

end Sys2Proof.Machine
end

section
/-! PROOFS. The header and the payload of a packet, and its routing to one consumer (40_demux.md R155 to R160). -/

namespace Sys2Proof

/-- A field that a mask covers is the same in words that the mask does not tell apart. -/
theorem extract_eq_of_and_eq {n : Nat} {x y m : BitVec n} (h : x &&& m = y &&& m) (s k : Nat)
    (hm : m.extractLsb' s k = BitVec.allOnes k) : x.extractLsb' s k = y.extractLsb' s k := by
  have hf := congrArg (BitVec.extractLsb' s k) h
  rwa [BitVec.extractLsb'_and, BitVec.extractLsb'_and, hm, BitVec.and_allOnes, BitVec.and_allOnes] at hf

theorem getLsbD_eq_of_and_eq {n : Nat} {x y m : BitVec n} (h : x &&& m = y &&& m) (s : Nat)
    (hm : m.extractLsb' s 1 = BitVec.allOnes 1) : x.getLsbD s = y.getLsbD s :=
  getLsbD_eq_of_extract ((extract_eq_of_and_eq h s 1 hm).trans (ofBool_getLsbD_eq_extract y s).symm)

theorem extract_eq_ofNat {n : Nat} (x : BitVec n) (s k : Nat) :
    x.extractLsb' s k = BitVec.ofNat k (x.toNat / 2 ^ s % 2 ^ k) := by
  rw [← BitVec.toNat_inj, toNat_extract, BitVec.toNat_ofNat, Nat.mod_mod]

end Sys2Proof

namespace Sys2Proof.Machine

/-! ### The header (R155) -/

section
variable (b0 b1 b2 b3 : Byte) (rest : List Byte)

theorem headerOf_pid : (headerOf (b0 :: b1 :: b2 :: b3 :: rest)).pid =
    BitVec.ofNat 13 (b1.toNat % 32 * 256 + b2.toNat) := by
  show (b1.extractLsb' 0 5 ++ b2 : BitVec (5 + 8)) = _
  rw [← BitVec.toNat_inj, toNat_append_eq, toNat_extract, BitVec.toNat_ofNat]
  omega

theorem headerOf_pusi : (headerOf (b0 :: b1 :: b2 :: b3 :: rest)).pusi = decide (b1.toNat / 64 % 2 = 1) :=
  Nat.testBit_eq_decide_div_mod_eq

theorem headerOf_cc : (headerOf (b0 :: b1 :: b2 :: b3 :: rest)).cc = BitVec.ofNat 4 (b3.toNat % 16) := by
  show b3.extractLsb' 0 4 = _
  rw [extract_eq_ofNat, Nat.pow_zero, Nat.div_one]
  rfl

theorem headerOf_afc : (headerOf (b0 :: b1 :: b2 :: b3 :: rest)).afc.toNat = b3.toNat / 16 % 4 :=
  toNat_extract b3 4 2

end

/-! ### The payload (R156) -/

theorem extractPayload_whole {afc : BitVec 2} (h : afc.toNat = 1) (pkt : List Byte) :
    extractPayload pkt afc = (pkt.drop 4, false) := by
  rw [extractPayload, h]
  rfl

theorem extractPayload_adapted {afc : BitVec 2} (h : afc.toNat = 3) (pkt : List Byte) :
    extractPayload pkt afc =
      if 5 + (pkt.getD 4 0).toNat ≤ 188 then (pkt.drop (5 + (pkt.getD 4 0).toNat), false) else ([], false) := by
  rw [extractPayload, h]
  rfl

theorem extractPayload_none {afc : BitVec 2} (h1 : afc.toNat ≠ 1) (h3 : afc.toNat ≠ 3) (pkt : List Byte) :
    extractPayload pkt afc = ([], true) := by
  unfold extractPayload
  split
  · contradiction
  · contradiction
  · rfl

/-- The header bytes are no part of the payload. -/
theorem extractPayload_header (b0 b1 b2 b3 c0 c1 c2 c3 : Byte) (rest : List Byte) (afc : BitVec 2) :
    extractPayload (b0 :: b1 :: b2 :: b3 :: rest) afc = extractPayload (c0 :: c1 :: c2 :: c3 :: rest) afc := by
  by_cases h1 : afc.toNat = 1
  · rw [extractPayload_whole h1, extractPayload_whole h1]
    rfl
  · by_cases h3 : afc.toNat = 3
    · have hdrop (n : Nat) :
          (b0 :: b1 :: b2 :: b3 :: rest).drop (5 + n) = (c0 :: c1 :: c2 :: c3 :: rest).drop (5 + n) := by
        rw [Nat.add_comm]
        rfl
      rw [extractPayload_adapted h3, extractPayload_adapted h3, hdrop]
      rfl
    · rw [extractPayload_none h1 h3, extractPayload_none h1 h3]

theorem State.processPacket_eq (s : State) (pkt : List Byte) :
    s.processPacket pkt = State.route { s with pktCount := s.pktCount + 1 } (headerOf pkt).pid
      (extractPayload pkt (headerOf pkt).afc).1 (headerOf pkt).pusi (headerOf pkt).cc
      (extractPayload pkt (headerOf pkt).afc).2 := rfl

/-- Settles O25: the header's fields, and the payload by the adaptation field control. -/
theorem packetIsDecodedAndRouted : Obligations.PacketIsDecodedAndRouted := by
  intro s b0 b1 b2 b3 b4 rest payload noinc hlen hcase
  have hpayload : extractPayload (b0 :: b1 :: b2 :: b3 :: b4 :: rest)
      (headerOf (b0 :: b1 :: b2 :: b3 :: b4 :: rest)).afc = (payload, noinc) := by
    rw [← headerOf_afc b0 b1 b2 b3 (b4 :: rest)] at hcase
    obtain ⟨hafc, rfl, rfl⟩ | ⟨hafc, hle, rfl, rfl⟩ | ⟨hafc, hgt, rfl, rfl⟩ | ⟨hafc, rfl, rfl⟩ |
      ⟨hafc, rfl, rfl⟩ := hcase
    · exact extractPayload_whole hafc _
    · have hfits : 5 + b4.toNat ≤ 188 := Nat.add_le_add_left hle 5
      rw [extractPayload_adapted hafc]
      refine (if_pos hfits).trans ?_
      rw [Nat.add_comm]
      rfl
    · have hlong : ¬ 5 + b4.toNat ≤ 188 := Nat.not_le.mpr (Nat.add_lt_add_left hgt 5)
      rw [extractPayload_adapted hafc]
      exact if_neg hlong
    · exact extractPayload_none (by omega) (by omega) _
    · exact extractPayload_none (by omega) (by omega) _
  rw [State.processPacket_eq, hpayload, headerOf_pid, headerOf_pusi, headerOf_cc]
  rfl

/-- Settles O26: the masks cover every field of the header that is used. -/
theorem unusedHeaderBitsMakeNoDifference : Obligations.UnusedHeaderBitsMakeNoDifference := by
  intro s b0 b1 b2 b3 c1 c3 rest h1 h3
  have hpid : (headerOf (b0 :: b1 :: b2 :: b3 :: rest)).pid = (headerOf (b0 :: c1 :: b2 :: c3 :: rest)).pid :=
    congrArg (· ++ b2) (extract_eq_of_and_eq h1 0 5 (by decide))
  have hpusi : (headerOf (b0 :: b1 :: b2 :: b3 :: rest)).pusi = (headerOf (b0 :: c1 :: b2 :: c3 :: rest)).pusi :=
    getLsbD_eq_of_and_eq h1 6 (by decide)
  have hafc : (headerOf (b0 :: b1 :: b2 :: b3 :: rest)).afc = (headerOf (b0 :: c1 :: b2 :: c3 :: rest)).afc :=
    extract_eq_of_and_eq h3 4 2 (by decide)
  have hcc : (headerOf (b0 :: b1 :: b2 :: b3 :: rest)).cc = (headerOf (b0 :: c1 :: b2 :: c3 :: rest)).cc :=
    extract_eq_of_and_eq h3 0 4 (by decide)
  rw [State.processPacket_eq, State.processPacket_eq, hpid, hpusi, hafc, hcc,
    extractPayload_header b0 b1 b2 b3 b0 c1 b2 c3]

/-! ### Routing (R158, R159, R160) -/

theorem State.delivered_eq (s : State) (pid : Pid) (e : Entry) (t : StreamType) (d : Recon × Option (List Byte)) :
    s.delivered pid e t d = { s with
      reg := Registry.insert pid { e with consumer := .stream t d.1 } s.reg
      out := s.out ++ (d.2.map (Event.unit pid e.epoch)).toList } := by
  obtain ⟨hd, h⟩ | ⟨b, hd, h⟩ := State.delivered_cases s pid e t d
  · rw [h, hd, Option.map_none, Option.toList_none, List.append_nil]
    rfl
  · rw [h, hd]
    rfl

section
variable {s : State} {pid : Pid} (payload : List Byte) (pusi : Bool) (cc : Cc) (noinc : Bool)

theorem State.route_unrouted (h : pid = nullPid ∨ Registry.lookup pid s.reg = none) :
    s.route pid payload pusi cc noinc = { s with unroutedCount := s.unroutedCount + 1 } := by
  unfold State.route
  split
  · rfl
  · rw [h.resolve_left ‹_›]

/-- A packet of a registered PID goes to the entry's consumer alone. -/
theorem State.route_entry {e : Entry} (hp : pid ≠ nullPid) (hl : Registry.lookup pid s.reg = some e) :
    (e.consumer = .raw →
      s.route pid payload pusi cc noinc = s.emit (.raw pid e.epoch payload pusi cc noinc)) ∧
    (e.consumer = .sect →
      s.route pid payload pusi cc noinc = s.emit (.sect pid e.epoch payload pusi cc noinc)) ∧
    ∀ t r, e.consumer = .stream t r →
      s.route pid payload pusi cc noinc =
        s.delivered pid e t (r.deliver s.params t s.pcrSeen payload pusi cc noinc) := by
  refine ⟨fun hc => ?_, fun hc => ?_, fun t r hc => ?_⟩ <;> rw [State.route, if_neg hp, hl] <;> simp only [hc]

end

/-- Settles O27: one rule a consumer, and the registry that a delivery writes back. -/
theorem routingIsAsTheRuleSays : Obligations.RoutingIsAsTheRuleSays := by
  intro s pid payload pusi cc noinc
  refine ⟨fun h => State.route_unrouted payload pusi cc noinc h, fun e hp hl => ?_⟩
  obtain ⟨hraw, hsect, hstream⟩ := State.route_entry payload pusi cc noinc hp hl
  refine ⟨hraw, hsect, ?_⟩
  rintro t r d hc rfl
  exact ⟨_, fun q => Registry.lookup_insert s.reg pid q _, (hstream t r hc).trans (State.delivered_eq s pid e t _)⟩

end Sys2Proof.Machine
end

section
/-! PROOFS. What no input does: stop the machine (40_demux.md R162; 60_exceptions.md R369, R370), and what DISPOSE does
(40_demux.md R170). -/

namespace Sys2Proof.Machine

/-- Settles O7: a step is a command, which answers, or goes to a state. -/
theorem stepAlwaysAnswersNext : Obligations.StepAlwaysAnswersNext := by
  intro s
  cases hmove : s.nextMove with
  | run i t =>
    rw [step_of_run hmove]
    exact exec_answers i t
  | goto t => exact ⟨t, step_of_goto hmove⟩

/-- Settles O37: DISPOSE has no refusal. -/
theorem disposeReleasesEverything : Obligations.DisposeReleasesEverything :=
  ⟨oneWord_of_opRow (r := ⟨.d, .f0, fun _ _ => .dispose⟩) rfl (by decide), fun _ => rfl⟩

end Sys2Proof.Machine
end

section
/-! PROOFS. The commands of the C engine: their refusals in the order of R368, the entry they install or remove
(30_encoding.md R102, R103; 41_registry.md R201 to R204, R207, R208, R214; 60_exceptions.md R361, R364). -/

namespace Sys2Proof.Machine

open Sys2Proof.Stated

/-! ### The refusals of a command that names a PID -/

/-- What a command with a `pid` field does once its codes are legal: it refuses on a disposed block, then refuses a PID out
of range, and only then goes on to `a` (R361, R364, R368). -/
def pidGuarded (p : Port) (op : BitVec 8) (pid : BitVec 16) (s : State) (a : Answer State) : Answer State :=
  if s.disposed then raise p op .disposed s
  else if pidInRange pid = false then raise p op .contract s
  else a

section
variable {p : Port} {op : BitVec 8} {pid : BitVec 16} {s : State} {a : Answer State}

theorem pidGuarded_disposed (hd : s.disposed = true) : pidGuarded p op pid s a = raise p op .disposed s := if_pos hd

theorem pidGuarded_outOfRange (hd : s.disposed = false) (hp : 0x1FFF < pid.toNat) :
    pidGuarded p op pid s a = raise p op .contract s := by
  have hout : pidInRange pid = false := decide_eq_false (Nat.not_le.mpr hp)
  rw [pidGuarded, hd, hout]
  rfl

theorem pidGuarded_inRange (hd : s.disposed = false) (hp : pid.toNat ≤ 0x1FFF) : pidGuarded p op pid s a = a := by
  have hin : pidInRange pid = true := decide_eq_true hp
  rw [pidGuarded, hd, hin]
  rfl

end

/-! ### What a command installs -/

/-- The codes name a consumer exactly as R103 lists them. -/
theorem consumerOf_eq_some_iff {kind stype : BitVec 2} {k : Consumer} :
    consumerOf kind stype = some k ↔ Names kind stype k := by
  constructor
  · intro h
    unfold consumerOf at h
    split at h <;> rename_i hkind hstype <;> cases h
    · exact .inl ⟨BitVec.eq_of_toNat_eq hkind, BitVec.eq_of_toNat_eq hstype, rfl⟩
    · exact .inr (.inl ⟨BitVec.eq_of_toNat_eq hkind, BitVec.eq_of_toNat_eq hstype, rfl⟩)
    · exact .inr (.inr (.inl ⟨BitVec.eq_of_toNat_eq hkind, BitVec.eq_of_toNat_eq hstype, rfl⟩))
    · exact .inr (.inr (.inr (.inl ⟨BitVec.eq_of_toNat_eq hkind, BitVec.eq_of_toNat_eq hstype, rfl⟩)))
    · exact .inr (.inr (.inr (.inr ⟨BitVec.eq_of_toNat_eq hkind, BitVec.eq_of_toNat_eq hstype, rfl⟩)))
  · rintro (⟨rfl, rfl, rfl⟩ | ⟨rfl, rfl, rfl⟩ | ⟨rfl, rfl, rfl⟩ | ⟨rfl, rfl, rfl⟩ | ⟨rfl, rfl, rfl⟩) <;> rfl

/-- Reserved and contradictory codes name no consumer (R111 (c)). -/
theorem consumerOf_eq_none {kind stype : BitVec 2} (h : kind = 3#2 ∨ stype = 3#2 ∨ (kind ≠ 2#2 ∧ stype ≠ 0#2)) :
    consumerOf kind stype = none := by
  refine Option.eq_none_iff_forall_ne_some.mpr fun k hk => ?_
  obtain ⟨rfl, rfl, -⟩ | ⟨rfl, rfl, -⟩ | ⟨rfl, rfl, -⟩ | ⟨rfl, rfl, -⟩ | ⟨rfl, rfl, -⟩ :=
    consumerOf_eq_some_iff.mp hk <;> exact absurd h (by decide)

/-- A new entry changes the registry at its PID alone, takes the next epoch, and is answered with that epoch's low half
(R201, R202, R203). -/
theorem State.register_installs (s : State) (op : BitVec 8) (p : Pid) (k : Consumer) (small video : Bool) :
    ∃ reg', OnlyAt s.reg reg' p (some { consumer := k, small := small, vhint := video, epoch := s.epochNext }) ∧
      s.register op p k small video = State.post { s with reg := reg', epochNext := s.epochNext + 1#64 } .c
        [responseWord op .ok (BitVec.ofNat 16 (s.epochNext.toNat % 2 ^ 16))] := by
  refine ⟨_, fun q => Registry.lookup_insert s.reg p q _, ?_⟩
  rw [State.register, extract_eq_ofNat, Nat.pow_zero, Nat.div_one]
  rfl

/-! ### The commands -/

section
variable (s : State) (pid : BitVec 16)

theorem exec_setFilter {kind stype : BitVec 2} {k : Consumer} (hk : Names kind stype k) (small video : Bool) :
    exec (.setFilter kind stype small video pid) s =
      pidGuarded .c 0x10#8 pid s (.next (s.register 0x10#8 (pidNamed pid) k small video)) := by
  rw [exec, execSetFilter, consumerOf_eq_some_iff.mpr hk, pidOf_eq_pidNamed]
  rfl

theorem exec_requestSection : exec (.requestSection pid) s =
    pidGuarded .c 0x11#8 pid s (.next (s.register 0x11#8 (pidNamed pid) .sect false false)) := by
  rw [exec, execRequestSection, pidOf_eq_pidNamed]
  rfl

theorem exec_removeFilter : exec (.removeFilter pid) s =
    pidGuarded .c 0x12#8 pid s (.next ((s.uninstall (pidNamed pid)).respond .c 0x12#8 .ok 0)) := by
  rw [exec, execRemoveFilter, pidOf_eq_pidNamed]
  rfl

end

/-- Settles O42: codes that name no consumer are refused first, and the others install the consumer they name. -/
theorem setFilterInstallsItsEntry : Obligations.SetFilterInstallsItsEntry := by
  refine ⟨oneWord_of_opRow (r := ⟨.c, .ff, fun w _ =>
    .setFilter (kindField w) (stypeField w) (smallField w) (videoField w) (lowHalf w)⟩) rfl (by decide),
    fun s kind stype small video pid => ⟨?illegal, ?disposed, ?range, ?installs⟩⟩
  case illegal =>
    intro hcodes
    rw [exec, execSetFilter, consumerOf_eq_none hcodes]
    rfl
  case disposed =>
    intro k hk hd
    exact (exec_setFilter s pid hk small video).trans (pidGuarded_disposed hd)
  case range =>
    intro k hk hd hp
    exact (exec_setFilter s pid hk small video).trans (pidGuarded_outOfRange hd hp)
  case installs =>
    intro k hk hd hp
    obtain ⟨reg', hreg, hs⟩ := s.register_installs 0x10#8 (pidNamed pid) k small video
    exact ⟨reg', hreg, by rw [exec_setFilter s pid hk, pidGuarded_inRange hd hp, hs]⟩

/-- Settles O43: the same installation, of a SECTION entry. -/
theorem requestSectionInstallsASectionEntry : Obligations.RequestSectionInstallsASectionEntry := by
  refine ⟨oneWord_of_opRow (r := ⟨.c, .fp, fun w _ => .requestSection (lowHalf w)⟩) rfl (by decide),
    fun s pid => ⟨?disposed, ?range, ?installs⟩⟩
  case disposed =>
    intro hd
    exact (exec_requestSection s pid).trans (pidGuarded_disposed hd)
  case range =>
    intro hd hp
    exact (exec_requestSection s pid).trans (pidGuarded_outOfRange hd hp)
  case installs =>
    intro hd hp
    obtain ⟨reg', hreg, hs⟩ := s.register_installs 0x11#8 (pidNamed pid) .sect false false
    exact ⟨reg', hreg, by rw [exec_requestSection, pidGuarded_inRange hd hp, hs]⟩

/-- Settles O44: in the canonical form the removed entry is the only one of its PID. -/
theorem removeFilterUninstallsItsEntry : Obligations.RemoveFilterUninstallsItsEntry := by
  refine ⟨oneWord_of_opRow (r := ⟨.c, .fp, fun w _ => .removeFilter (lowHalf w)⟩) rfl (by decide),
    fun s pid => ⟨?disposed, ?range, ?removes⟩⟩
  case disposed =>
    intro hd
    exact (exec_removeFilter s pid).trans (pidGuarded_disposed hd)
  case range =>
    intro hd hp
    exact (exec_removeFilter s pid).trans (pidGuarded_outOfRange hd hp)
  case removes =>
    intro hd hp hwf
    exact ⟨Registry.erase (pidNamed pid) s.reg, Registry.lookup_erase hwf (pidNamed pid), Registry.erase_of_lookup_none,
      (exec_removeFilter s pid).trans (pidGuarded_inRange hd hp)⟩

/-- Settles O45: DISPOSED is the one refusal. -/
theorem clearFiltersEmptiesTheRegistry : Obligations.ClearFiltersEmptiesTheRegistry := by
  refine ⟨oneWord_of_opRow (r := ⟨.c, .f0, fun _ _ => .clearFilters⟩) rfl (by decide),
    fun s => ⟨fun hd => ?disposed, fun hd => ?clears⟩⟩
  case disposed =>
    rw [exec, execClearFilters, if_pos hd]
    rfl
  case clears =>
    rw [exec, execClearFilters, hd]
    rfl

/-- Settles O46: DISPOSED is the one refusal. -/
theorem setPcrSeenSetsTheBit : Obligations.SetPcrSeenSetsTheBit := by
  refine ⟨oneWord_of_opRow (r := ⟨.c, .f0, fun _ _ => .setPcrSeen⟩) rfl (by decide),
    fun s => ⟨fun hd => ?disposed, fun hd => ?sets⟩⟩
  case disposed =>
    rw [exec, execSetPcrSeen, if_pos hd]
    rfl
  case sets =>
    rw [exec, execSetPcrSeen, hd]
    rfl

end Sys2Proof.Machine
end

section
/-! PROOFS. The delivery of one packet to a reconstructor: its continuity check, the unit it starts, extends or overflows,
and the unit boundary (42_reconstructor.md R241 to R251, R254). -/

namespace Sys2Proof.Machine

open Sys2Proof.Stated

/-! ### Continuity (R243, R244, R245) -/

/-- The counter that continues `l`, as a number (R8). -/
theorem cc_eq_succ_iff {cc l : Cc} : cc = l + 1 ↔ cc.toNat = (l.toNat + 1) % 16 := by
  rw [← BitVec.toNat_inj, BitVec.toNat_add]
  rfl

section
variable {r : Recon} {cc l : Cc}

theorem Recon.checkCC_first (h : r.lastCc = none) : r.checkCC cc = some { r with lastCc := some cc } := by
  rw [Recon.checkCC, h]

theorem Recon.checkCC_repeated (h : r.lastCc = some cc) : r.checkCC cc = none := by
  rw [Recon.checkCC, h]
  exact if_pos rfl

theorem Recon.checkCC_next (h : r.lastCc = some l) (hcc : cc.toNat = (l.toNat + 1) % 16) :
    r.checkCC cc = some { r with lastCc := some cc } := by
  have hne : cc ≠ l := by
    rintro rfl
    omega
  rw [Recon.checkCC, h]
  exact (if_neg hne).trans (if_pos (cc_eq_succ_iff.mpr hcc))

theorem Recon.checkCC_gap (h : r.lastCc = some l) (hne : cc ≠ l) (hcc : cc.toNat ≠ (l.toNat + 1) % 16) :
    r.checkCC cc = some { r with lastCc := some cc, loss := r.loss + 1#64 } := by
  rw [Recon.checkCC, h]
  exact (if_neg hne).trans (if_neg (cc_eq_succ_iff.not.mpr hcc))

end

section
variable {r r' : Recon} {ps : Params} {t : StreamType} {pcr : Bool} {payload : List Byte} {pusi : Bool} {cc : Cc}
  {noinc : Bool}

/-- What is ignored whole: a packet to a disposed reconstructor, one without a payload, and a duplicate (R241, R242,
R245). -/
theorem Recon.deliver_ignored (h : r.disposed = true ∨ noinc = true ∨ r.checkCC cc = none) :
    r.deliver ps t pcr payload pusi cc noinc = (r, none) := by
  unfold Recon.deliver
  split
  · rfl
  · split
    · rfl
    · rw [(h.resolve_left ‹_›).resolve_left ‹_›]

/-- A packet that passes the continuity check is processed (R240). -/
theorem Recon.deliver_checked (hd : r.disposed = false) (hn : noinc = false) (hc : r.checkCC cc = some r') :
    r.deliver ps t pcr payload pusi cc noinc = r'.process ps t pcr payload pusi := by
  rw [Recon.deliver, hd, hn, hc]
  rfl

end

/-- Settles O32: the outcomes of the continuity check. -/
theorem deliveryChecksContinuity : Obligations.DeliveryChecksContinuity := by
  intro r ps t pcr payload pusi cc noinc
  refine ⟨?ignored, ?first, ?next, ?gap⟩
  case ignored =>
    intro h
    exact Recon.deliver_ignored (h.imp_right (Or.imp_right Recon.checkCC_repeated))
  case first =>
    intro hd hn hl
    exact Recon.deliver_checked hd hn (Recon.checkCC_first hl)
  case next =>
    intro l hd hn hl hcc
    exact Recon.deliver_checked hd hn (Recon.checkCC_next hl hcc)
  case gap =>
    intro l hd hn hl hne hcc
    exact Recon.deliver_checked hd hn (Recon.checkCC_gap hl hne hcc)

/-! ### The unit under construction (R246, R247, R251) -/

theorem Params.holds_iff (ps : Params) (n : Nat) : Params.holds ps n = true ↔ ∀ cap, ps.unitCap = some cap → n ≤ cap := by
  unfold Params.holds
  cases ps.unitCap with
  | none => simp
  | some cap => simp

section
variable {r : Recon} {ps : Params} {t : StreamType} {pcr : Bool} {payload : List Byte}

theorem Recon.append_within (h : ∀ cap, ps.unitCap = some cap → r.buf.length + payload.length ≤ cap) :
    r.append ps payload = { r with buf := r.buf ++ payload } :=
  if_pos ((Params.holds_iff ps _).mpr h)

theorem Recon.append_overflow {cap : Nat} (hcap : ps.unitCap = some cap) (h : cap < r.buf.length + payload.length) :
    r.append ps payload = r.dropUnit :=
  if_neg fun hh => Nat.not_le.mpr h ((Params.holds_iff ps _).mp hh cap hcap)

theorem Recon.process_idle (h : r.collecting = false) : r.process ps t pcr payload false = (r, none) := by
  rw [Recon.process, h]
  rfl

theorem Recon.process_collecting (h : r.collecting = true) :
    r.process ps t pcr payload false = (r.append ps payload, none) := by
  rw [Recon.process, h]
  rfl

theorem Recon.process_start_idle (h : r.collecting = false) :
    r.process ps t pcr payload true = ({ r with buf := payload, collecting := true }, none) := by
  rw [Recon.process, Recon.startUnit, h]
  rfl

theorem Recon.process_start_collecting (h : r.collecting = true) : r.process ps t pcr payload true =
    ({ (r.boundary ps t pcr).1 with buf := payload, collecting := true }, (r.boundary ps t pcr).2) := by
  rw [Recon.process, Recon.startUnit, h]
  rfl

end

/-- Settles O33: by the PUSI bit, the state of the reconstructor and the room in its buffer. -/
theorem processedPacketBuildsTheUnit : Obligations.ProcessedPacketBuildsTheUnit := by
  intro r ps t pcr payload
  refine ⟨Recon.process_idle, fun hc hfits => ?appended, fun hc cap hcap hlong => ?overflows,
    Recon.process_start_idle, Recon.process_start_collecting⟩
  case appended => rw [Recon.process_collecting hc, Recon.append_within hfits]
  case overflows =>
    rw [Recon.process_collecting hc, Recon.append_overflow hcap hlong]
    rfl

/-! ### Unit boundaries (R248, R249) -/

theorem Recon.countUnit_eq (r : Recon) (n : Nat) : r.countUnit n =
    { r with
      units := r.units + 1#64
      bytes := r.bytes + BitVec.ofNat 64 n
      minUnit := some (r.minUnit.elim n fun m => min m n)
      maxUnit := some (r.maxUnit.elim n fun m => max m n) } := by
  unfold Recon.countUnit
  cases r.minUnit <;> cases r.maxUnit <;> rfl

/-- Settles O34: the two outcomes of a boundary exclude each other. -/
theorem unitBoundaryEmitsValidUnits : Obligations.UnitBoundaryEmitsValidUnits := by
  intro r ps t pcr
  rw [← validStart_iff]
  obtain ⟨hvalid, hpcr, hemit⟩ | ⟨hrefused, hdrop⟩ := Recon.boundary_cases r ps t pcr
  · refine ⟨fun _ _ => by rw [hemit, Recon.countUnit_eq], ?_⟩
    rintro (h | ⟨ht, h⟩)
    · exact absurd hvalid h
    · exact absurd ((hpcr ht).symm.trans h) (by decide)
  · refine ⟨fun hvalid hpcr => ?_, fun _ => hdrop⟩
    obtain h | ⟨ht, h⟩ := hrefused
    · exact absurd (hvalid.symm.trans h) (by decide)
    · exact absurd ((hpcr ht).symm.trans h) (by decide)

/-! ### The continuity example (R254) -/

/-- A fresh reconstructor that has since accumulated `buf`, last seen `cc` and counted `loss`. -/
def unitSoFar (buf : List Byte) (cc : Cc) (loss : Ctr) : Recon :=
  { newRecon with buf := buf, lastCc := some cc, collecting := true, loss := loss }

section
variable {ps : Params} {t : StreamType} {pcr : Bool} {buf payload : List Byte} {loss : Ctr}

theorem newRecon_starts (cc : Cc) :
    newRecon.deliver ps t pcr payload true cc false = (unitSoFar payload cc 0#64, none) :=
  (Recon.deliver_checked rfl rfl (Recon.checkCC_first rfl)).trans
    (Recon.process_start_idle rfl)

theorem unitSoFar_repeated (cc : Cc) :
    (unitSoFar buf cc loss).deliver ps t pcr payload false cc false = (unitSoFar buf cc loss, none) :=
  Recon.deliver_ignored (.inr (.inr (Recon.checkCC_repeated rfl)))

/-- A unit that is extended by a packet whose continuity check leaves the count `loss'` of losses. -/
theorem unitSoFar_extended {cc l : Cc} {loss' : Ctr} (hcap : ps.unitCap = none)
    (hc : (unitSoFar buf l loss).checkCC cc = some (unitSoFar buf cc loss')) :
    (unitSoFar buf l loss).deliver ps t pcr payload false cc false = (unitSoFar (buf ++ payload) cc loss', none) := by
  rw [Recon.deliver_checked rfl rfl hc, Recon.process_collecting rfl,
    Recon.append_within fun cap h => absurd (hcap.symm.trans h) nofun]
  rfl

theorem unitSoFar_next {cc l : Cc} (hcap : ps.unitCap = none) (hcc : cc.toNat = (l.toNat + 1) % 16) :
    (unitSoFar buf l loss).deliver ps t pcr payload false cc false = (unitSoFar (buf ++ payload) cc loss, none) :=
  unitSoFar_extended hcap (Recon.checkCC_next rfl hcc)

theorem unitSoFar_gap {cc l : Cc} (hcap : ps.unitCap = none) (hne : cc ≠ l) (hcc : cc.toNat ≠ (l.toNat + 1) % 16) :
    (unitSoFar buf l loss).deliver ps t pcr payload false cc false =
      (unitSoFar (buf ++ payload) cc (loss + 1#64), none) :=
  unitSoFar_extended hcap (Recon.checkCC_gap rfl hne hcc)

theorem unitSoFar_ends {cc l : Cc} (hcc : cc.toNat = (l.toNat + 1) % 16) (hvalid : ValidUnit ps t buf)
    (hpcr : t = .subtitle → pcr = true) :
    ((unitSoFar buf l loss).deliver ps t pcr payload true cc false).2 = some buf := by
  rw [Recon.deliver_checked rfl rfl (Recon.checkCC_next rfl hcc),
    Recon.process_start_collecting rfl, (unitBoundaryEmitsValidUnits _ ps t pcr).1 hvalid hpcr]
  rfl

end

/-- Settles O35: the unit is followed packet by packet. -/
theorem continuityExampleOfTheSource : Obligations.ContinuityExampleOfTheSource := by
  intro ps pcr x p0 p1 p2 p2' p4 p5 hcap hlo hhi packet d4
  have hd4 : d4 = (unitSoFar (0x00#8 :: 0x00#8 :: 0x01#8 :: x :: p0 ++ p1 ++ p2 ++ p4) 4 1#64, none) := by
    simp only [d4, packet]
    rw [newRecon_starts, unitSoFar_next hcap (by decide), unitSoFar_next hcap (by decide),
      unitSoFar_repeated, unitSoFar_gap hcap (by decide) (by decide)]
    rfl
  rw [hd4]
  exact ⟨rfl, rfl, unitSoFar_ends (by decide) ⟨x, p0 ++ p1 ++ p2 ++ p4, by simp, hlo, hhi⟩ nofun⟩

end Sys2Proof.Machine
end

section
/-! PROOFS. The events of OUT: no command emits one, and the UNIT events of a pump step are units of a STREAM entry
(42_reconstructor.md R250, R253). -/

namespace Sys2Proof.Machine

open Sys2Proof.Stated

/-- Settles O16: what every engine's commands leave alone. -/
theorem onlyThePumpEmitsEvents : Obligations.OnlyThePumpEmitsEvents := fun _ _ _ he => (exec_bits_and_out he).2

/-- `b` is a unit that a STREAM entry of `pid` with that epoch may emit in `s` (R249, R253). -/
def UnitOf (s : State) (pid : Pid) (epoch : Ctr) (b : List Byte) : Prop :=
  ∃ e t r, StreamEntry s pid e t r ∧ epoch = e.epoch ∧ ValidUnit s.params t b ∧ (t = .subtitle → s.pcrSeen = true)

/-- Every UNIT event that stands in `t.out` behind all of `s.out` is a unit of `s`. -/
def AppendsUnitsOf (s t : State) : Prop :=
  ∀ evs pid epoch b, t.out = s.out ++ evs → .unit pid epoch b ∈ evs → UnitOf s pid epoch b

section
variable {s t : State}

/-- No event is appended where OUT does not grow. -/
theorem AppendsUnitsOf.nothing (h : t.out.length ≤ s.out.length) : AppendsUnitsOf s t := by
  intro evs pid epoch b hout hmem
  have hlen := congrArg List.length hout
  rw [List.length_append] at hlen
  have hevs : evs = [] := List.length_eq_zero_iff.mp (by omega)
  exact absurd (hevs ▸ hmem) List.not_mem_nil

theorem AppendsUnitsOf.same (h : t.out = s.out) : AppendsUnitsOf s t := .nothing (by rw [h])

theorem AppendsUnitsOf.one {ev : Event} (h : t.out = s.out ++ [ev])
    (hunit : ∀ pid epoch b, .unit pid epoch b = ev → UnitOf s pid epoch b) : AppendsUnitsOf s t := by
  intro evs pid epoch b hout hmem
  have hevs : evs = [ev] := List.append_cancel_left (hout.symm.trans h)
  exact hunit pid epoch b (List.mem_singleton.mp (hevs ▸ hmem))

end

theorem State.route_units (s : State) (pid : Pid) (payload : List Byte) (pusi : Bool) (cc : Cc) (noinc : Bool) :
    AppendsUnitsOf s (s.route pid payload pusi cc noinc) := by
  obtain h | ⟨e, -, h⟩ | ⟨e, -, h⟩ | ⟨e, t, r, hl, hc, h⟩ := State.route_cases s pid payload pusi cc noinc <;> rw [h]
  · exact .same rfl
  · exact .one (State.emit_out _ _) nofun
  · exact .one (State.emit_out _ _) nofun
  · obtain ⟨-, h⟩ | ⟨b, hb, h⟩ :=
      State.delivered_cases s pid e t (r.deliver s.params t s.pcrSeen payload pusi cc noinc) <;> rw [h]
    · exact .same rfl
    · obtain ⟨-, hvalid, hpcr⟩ := Recon.deliver_emits hb
      refine .one (State.emit_out _ _) ?_
      rintro _ _ _ ⟨⟩
      exact ⟨e, t, r, ⟨hl, hc⟩, rfl, hvalid, hpcr⟩

theorem State.pumpStep_units (s : State) : AppendsUnitsOf s s.pumpStep := by
  obtain ⟨-, -, h⟩ | ⟨-, -, h⟩ | ⟨-, h⟩ | ⟨-, -, h⟩ := State.pumpStep_cases s <;> rw [h]
  · exact State.route_units { s with carry := s.carry.drop 188, pktCount := s.pktCount + 1 } _ _ _ _ _
  · exact .same rfl
  · exact .same rfl
  · exact .same rfl

theorem State.pumpTurn_units (s : State) : AppendsUnitsOf s s.pumpTurn := by
  unfold State.pumpTurn
  rw [State.settle_frame]
  split
  · exact .same rfl
  · exact s.pumpStep_units

theorem EngineAct.units {u t : State} (ha : EngineAct u t) : AppendsUnitsOf u t := by
  cases ha with
  | idle => exact .same rfl
  | pump _ => exact u.pumpTurn_units
  | refuse p op rest => exact .same rfl
  | run _ hexec => exact .same (exec_bits_and_out hexec).2

/-- The host takes events off OUT or leaves it as it is (R7, R390). -/
theorem State.hostMove_out_length (s : State) (a : HostAct) : (s.hostMove a).out.length ≤ s.out.length := by
  cases a with
  | push p w => exact Nat.le_refl _
  | popResponse p => exact Nat.le_refl _
  | popEvent => exact List.length_tail ▸ Nat.sub_le _ _
  | reset => exact Nat.zero_le _

/-- Settles O10: of all acts only a pump step emits, through the delivery to a STREAM entry. -/
theorem unitEventsBeginWithTheirStartCode : Obligations.UnitEventsBeginWithTheirStartCode := by
  intro s t evs pid epoch b hstep hout hmem
  have hunits : AppendsUnitsOf s t := by
    obtain ⟨a, rest, -, rfl⟩ | ⟨rest, k, ha⟩ := step_cases hstep
    · exact .nothing (State.hostMove_out_length { s with schedule := rest } a)
    · exact ha.units
  obtain ⟨e, ty, r, hentry, hepoch, hvalid, hpcr⟩ := hunits evs pid epoch b hout hmem
  exact ⟨hvalid.four_le, e, ty, r, hentry, hepoch, hvalid, hpcr⟩

end Sys2Proof.Machine
end

section
/-! PROOFS. RESET_STREAM and DISPOSE_STREAM: one change to the reconstructor that a PID names, with the refusals of R368
before it (42_reconstructor.md R260, R262; 60_exceptions.md R361, R363, R364). -/

namespace Sys2Proof.Machine

open Sys2Proof.Stated

/-- What a command of the D engine does that applies `f` to the reconstructor of `p`, once `p` is known to be in range: it
refuses a PID without a STREAM entry and else writes the reconstructor back (R363). -/
def onRecon (op : BitVec 8) (f : Recon → Recon) (p : Pid) (s : State) : Answer State :=
  match s.streamAt p with
  | none => raise .d op .notStream s
  | some (e, t, r) => .next ((s.setRecon p e t (f r)).respond .d op .ok 0)

section
variable {op : BitVec 8} {f : Recon → Recon} {s : State}

theorem onRecon_notStream {p : Pid} (h : NotStream s p) : onRecon op f p s = raise .d op .notStream s := by
  rw [onRecon, State.streamAt_eq_none h]

theorem onRecon_stream {p : Pid} {e : Entry} {t : StreamType} {r : Recon} (h : StreamEntry s p e t r) :
    onRecon op f p s = .next ((s.setRecon p e t (f r)).respond .d op .ok 0) := by
  rw [onRecon, State.streamAt_of h.1 h.2]

/-- A command that is a guarded change to one reconstructor: its refusals in the order of R368, and the one entry it
changes. -/
theorem reconCommand_clauses {i : Instr} {pid : BitVec 16}
    (he : exec i s = pidGuarded .d op pid s (onRecon op f (pidNamed pid) s)) :
    (s.disposed = true → exec i s = .next (s.post .d [responseWord op .disposed 0])) ∧
    (s.disposed = false → 0x1FFF < pid.toNat → exec i s = .next (s.post .d [responseWord op .contract 0])) ∧
    (s.disposed = false → pid.toNat ≤ 0x1FFF → NotStream s (pidNamed pid) →
      exec i s = .next (s.post .d [responseWord op .notStream 0])) ∧
    ∀ e t r, s.disposed = false → pid.toNat ≤ 0x1FFF → StreamEntry s (pidNamed pid) e t r →
      ∃ reg', OnlyAt s.reg reg' (pidNamed pid) (some { e with consumer := .stream t (f r) }) ∧
        exec i s = .next (State.post { s with reg := reg' } .d [responseWord op .ok 0]) := by
  rw [he]
  refine ⟨pidGuarded_disposed, pidGuarded_outOfRange, fun hd hp hs => ?notStream, fun e t r hd hp hs => ?writes⟩
  case notStream => exact (pidGuarded_inRange hd hp).trans (onRecon_notStream hs)
  case writes =>
    exact ⟨_, fun q => Registry.lookup_insert s.reg (pidNamed pid) q _,
      (pidGuarded_inRange hd hp).trans (onRecon_stream hs)⟩

end

theorem exec_resetStream (s : State) (pid : BitVec 16) : exec (.resetStream pid) s =
    pidGuarded .d 0x03#8 pid s (onRecon 0x03#8 Recon.resetState (pidNamed pid) s) := by
  rw [exec, execResetStream, pidOf_eq_pidNamed]
  rfl

theorem exec_disposeStream (s : State) (pid : BitVec 16) : exec (.disposeStream pid) s =
    pidGuarded .d 0x04#8 pid s (onRecon 0x04#8 Recon.disposeState (pidNamed pid) s) := by
  rw [exec, execDisposeStream, pidOf_eq_pidNamed]
  rfl

/-- Settles O39: a guarded change to one reconstructor, with the response words written out. -/
theorem resetStreamReturnsToIdle : Obligations.ResetStreamReturnsToIdle :=
  ⟨oneWord_of_opRow (r := ⟨.d, .fp, fun w _ => .resetStream (lowHalf w)⟩) rfl (by decide),
    fun s pid => reconCommand_clauses (exec_resetStream s pid)⟩

/-- Settles O40: a guarded change to one reconstructor, with the response words written out. -/
theorem disposeStreamStopsTheReconstructor : Obligations.DisposeStreamStopsTheReconstructor :=
  ⟨oneWord_of_opRow (r := ⟨.d, .fp, fun w _ => .disposeStream (lowHalf w)⟩) rfl (by decide),
    fun s pid => reconCommand_clauses (exec_disposeStream s pid)⟩

end Sys2Proof.Machine
end

section
/-! PROOFS. The commands of the section buffer, and what PB_LOAD and the parse commands read back of it
(43_section_buffer.md R289 to R302; 44_parser.md R330 to R333). -/

namespace Sys2Proof.Machine

open Sys2Proof.Stated

/-! ### Appends (R289) -/

section
variable {i : Instr} {op : BitVec 8} {bs : List Byte} {value : BitVec 16} {s t : State}

theorem sbAppend_within (h : s.sb.length + bs.length ≤ 65535) : sbAppend op bs value s =
    .next (State.post { s with sb := s.sb ++ bs } .s [responseWord op .ok value]) := if_neg (Nat.not_lt.mpr h)

theorem sbAppend_beyond (h : 65535 < s.sb.length + bs.length) : sbAppend op bs value s =
    .next (s.post .s [responseWord op .capacity 0]) := if_pos h

/-- A command that is an append of `n` bytes: taken whole within `SB_CAP`, refused whole beyond it. -/
theorem appendCommand_clauses {n : Nat} (he : exec i s = sbAppend op bs value s) (hn : bs.length = n) :
    (s.sb.length + n ≤ 65535 →
      exec i s = .next (State.post { s with sb := s.sb ++ bs } .s [responseWord op .ok value])) ∧
    (65535 < s.sb.length + n → exec i s = .next (s.post .s [responseWord op .capacity 0])) := by
  subst hn
  rw [he]
  exact ⟨sbAppend_within, sbAppend_beyond⟩

/-- An append after which the buffer is longer by the bytes appended was taken. -/
theorem sbAppend_sb_of_length (he : sbAppend op bs value s = .next t) (hlen : t.sb.length = s.sb.length + bs.length) :
    t.sb = s.sb ++ bs := by
  obtain hc | hc := Nat.lt_or_ge 65535 (s.sb.length + bs.length)
  · cases (sbAppend_beyond hc).symm.trans he
    obtain rfl : bs = [] := List.eq_nil_of_length_eq_zero (Nat.left_eq_add.mp hlen)
    exact (List.append_nil s.sb).symm
  · cases (sbAppend_within hc).symm.trans he
    rfl

/-- What a buffer that keeps byte `k` of an append holds in its place. -/
theorem getElem?_kept_append {m : List Byte} {k : Nat} (he : sbAppend op bs value s = .next t)
    (hlen : t.sb.length = s.sb.length + bs.length) (hm : m[s.sb.length + k]? = t.sb[s.sb.length + k]?) :
    m[s.sb.length + k]? = bs[k]? := by
  rw [hm, sbAppend_sb_of_length he hlen, List.getElem?_append_right (Nat.le_add_right _ _), Nat.add_sub_cancel_left]

end

section
variable (s : State)

theorem exec_sbAppendByte (b : Byte) : exec (.sbAppendByte b) s = sbAppend 0x21#8 [b] 0 s := rfl

theorem exec_sbAppendU16 (v : BitVec 16) : exec (.sbAppendU16 v) s = sbAppend 0x22#8 (be16Bytes v) 0 s := rfl

theorem exec_sbAppendBytes (data : List Byte) : exec (.sbAppendBytes data) s = sbAppend 0x23#8 data 0 s := rfl

theorem exec_sbAppendLang (data : List Byte) :
    exec (.sbAppendLang data) s = sbAppend 0x24#8 (langNorm s.params.langDefault data) 0 s := rfl

theorem exec_sbReserve : exec .sbReserve s = sbAppend 0x25#8 [0x00#8] (BitVec.ofNat 16 s.sb.length) s := rfl

end

/-! ### The bytes appended -/

/-- The high byte and the low byte as numbers (R292). -/
theorem be16Bytes_eq (v : BitVec 16) :
    be16Bytes v = [BitVec.ofNat 8 (v.toNat / 256), BitVec.ofNat 8 (v.toNat % 256)] := by
  simp only [be16Bytes, List.cons.injEq, and_true, ← BitVec.toNat_inj, toNat_extract, BitVec.toNat_ofNat]
  omega

/-- The normalised code by the length of the one given (R294, R295). -/
theorem langNorm_eq {dflt : LangCode} {data code : List Byte}
    (h : data = [] ∧ code = [dflt.b0, dflt.b1, dflt.b2] ∨
      0 < data.length ∧ data.length < 3 ∧ code = data ++ List.replicate (3 - data.length) 0x20#8 ∨
      3 ≤ data.length ∧ code = data.take 3) : langNorm dflt data = code := by
  obtain ⟨rfl, rfl⟩ | ⟨hpos, hshort, rfl⟩ | ⟨hlong, rfl⟩ := h
  · rfl
  · match data, hpos, hshort with
    | [_], _, _ | [_, _], _, _ => rfl
  · match data, hlong with
    | _ :: _ :: _ :: _, _ => rfl

theorem langNorm_length (dflt : LangCode) (data : List Byte) : (langNorm dflt data).length = 3 := by
  match data with
  | [] | [_] | [_, _] | _ :: _ :: _ :: _ => rfl

/-! ### Backfill (R297) -/

theorem exec_sbBackfill_within {s : State} {pos : BitVec 16} (h : pos.toNat < s.sb.length) :
    exec (.sbBackfill pos) s = .next (State.post
      { s with sb := s.sb.set pos.toNat (BitVec.ofNat 8 (s.sb.length - pos.toNat - 1)) } .s [0x26000000#32]) :=
  if_neg (Nat.not_le.mpr h)

/-- A byte keeps the count modulo 256. -/
theorem ofNat_mod_256 (n : Nat) : BitVec.ofNat 8 (n % 256) = BitVec.ofNat 8 n := by
  rw [← BitVec.toNat_inj, BitVec.toNat_ofNat, BitVec.toNat_ofNat]
  exact Nat.mod_mod n 256

/-! ### Reading back (R302) -/

section
variable {s : State} {off : BitVec 12}

theorem exec_pbRd8_loaded {b : Byte} (h : s.pb[off.toNat]? = some b) :
    exec (.pbRd8 off) s = .next (s.post .s [responseWord 0x31#8 .ok (BitVec.ofNat 16 b.toNat)]) := by
  have hvalue : 0#8 ++ b = BitVec.ofNat 16 b.toNat := by
    rw [← BitVec.toNat_inj, toNat_append_eq, BitVec.toNat_ofNat, BitVec.toNat_ofNat]
    omega
  rw [exec, execPbRd8, byteAt, h, ← hvalue]
  rfl

/-- The two bytes of a value are read as the value. -/
theorem be16At_be16Bytes {bs : List Byte} {a : Nat} {v : BitVec 16} (hhi : bs[a]? = (be16Bytes v)[0]?)
    (hlo : bs[a + 1]? = (be16Bytes v)[1]?) : be16At bs a = some v := by
  rw [be16At, hhi, hlo]
  exact congrArg some (BitVec.extractLsb'_append_extractLsb' (w := 8))

theorem exec_pbRd16_loaded {v : BitVec 16} (h : be16At s.pb off.toNat = some v) :
    exec (.pbRd16 off) s = .next (s.post .s [responseWord 0x32#8 .ok v]) := by
  rw [exec, execPbRd16, h]
  rfl

theorem exec_pbRd12_loaded {v : BitVec 16} (h : be16At s.pb off.toNat = some v) :
    exec (.pbRd12 off) s = .next (s.post .s [responseWord 0x33#8 .ok (v &&& 0x0FFF#16)]) := by
  rw [exec, execPbRd12, h]
  rfl

end

theorem exec_pbLoad_pb {s t : State} {data : List Byte} (hlen : data.length ≤ 4096)
    (he : exec (.pbLoad data) s = .next t) : t.pb = data := by
  rw [exec, execPbLoad, if_neg (show ¬ pbCap < data.length from Nat.not_lt.mpr hlen)] at he
  cases he
  rfl

/-- The bytes that the data words of SB_TO_BYTES carry, loaded, are the section buffer. -/
theorem pb_of_serialized {m u v : State} {ws : List Word} (hlen : m.sb.length ≤ 4096)
    (hu : exec .sbToBytes m = .next u)
    (hws : u.rsp.s = m.rsp.s ++ responseWord 0x27#8 .ok (BitVec.ofNat 16 m.sb.length) :: ws)
    (hv : exec (.pbLoad (unpack ws m.sb.length)) u = .next v) : v.pb = m.sb := by
  obtain ⟨-, hbytes⟩ := sbToBytesAnswersTheBuffer
  cases (hbytes m).symm.trans hu
  obtain ⟨-, rfl⟩ := List.cons.inj (List.append_cancel_left hws)
  rw [unpack_pack] at hv
  exact exec_pbLoad_pb hlen hv

/-- Settles O60: the parse buffer holds the section buffer, and that still holds the bytes appended. -/
theorem serializedBytesReadBack : Obligations.SerializedBytesReadBack := by
  intro s m u v off ws hoff hlen hu hws hv
  have hpb : v.pb = m.sb := pb_of_serialized hlen hu hws hv
  refine ⟨fun b t ht htlen hkept => ?byte, fun x t ht htlen hhi hlo => ?value⟩
  case byte =>
    apply exec_pbRd8_loaded
    rw [hpb, hoff]
    exact getElem?_kept_append (k := 0) ht htlen hkept
  case value =>
    have hread : be16At v.pb off.toNat = some x := by
      rw [hpb, hoff]
      exact be16At_be16Bytes (getElem?_kept_append (k := 0) ht htlen hhi) (getElem?_kept_append (k := 1) ht htlen hlo)
    exact ⟨exec_pbRd16_loaded hread, exec_pbRd12_loaded hread⟩

/-! ### The commands -/

/-- Settles O47: by the meaning of SB_CLEAR. -/
theorem sbClearEmptiesTheBuffer : Obligations.SbClearEmptiesTheBuffer :=
  ⟨oneWord_of_opRow (r := ⟨.s, .f0, fun _ _ => .sbClear⟩) rfl (by decide), fun _ => rfl⟩

/-- Settles O48: an append of one byte. -/
theorem sbAppendByteAppendsIt : Obligations.SbAppendByteAppendsIt :=
  ⟨oneWord_of_opRow (r := ⟨.s, .fb, fun w _ => .sbAppendByte (lowByte w)⟩) rfl (by decide),
    fun s b => appendCommand_clauses (exec_sbAppendByte s b) rfl⟩

/-- Settles O49: an append of the two bytes, as numbers. -/
theorem sbAppendU16IsBigEndian : Obligations.SbAppendU16IsBigEndian := by
  refine ⟨oneWord_of_opRow (r := ⟨.s, .fh, fun w _ => .sbAppendU16 (lowHalf w)⟩) rfl (by decide), fun s v => ?_⟩
  rw [← be16Bytes_eq]
  exact appendCommand_clauses (exec_sbAppendU16 s v) rfl

/-- Settles O50: an append of the run. -/
theorem sbAppendBytesAppendsTheRun : Obligations.SbAppendBytesAppendsTheRun :=
  ⟨counted_of_opRow rfl, fun s data => appendCommand_clauses (exec_sbAppendBytes s data) rfl⟩

/-- Settles O51: an append of the normalised code. -/
theorem sbAppendLangAppendsThreeBytes : Obligations.SbAppendLangAppendsThreeBytes := by
  refine ⟨counted_of_opRow rfl, fun s data code hcode => ?_⟩
  rw [← langNorm_eq hcode]
  exact appendCommand_clauses (exec_sbAppendLang s data) (langNorm_length _ _)

/-- Settles O52: an append of the placeholder, answered with the length before it. -/
theorem sbReserveAnswersTheSlotsPosition : Obligations.SbReserveAnswersTheSlotsPosition :=
  ⟨oneWord_of_opRow (r := ⟨.s, .f0, fun _ _ => .sbReserve⟩) rfl (by decide),
    fun s => appendCommand_clauses (exec_sbReserve s) rfl⟩

/-- Settles O53: CONTRACT is the one refusal. -/
theorem sbBackfillWritesTheCount : Obligations.SbBackfillWritesTheCount := by
  refine ⟨oneWord_of_opRow (r := ⟨.s, .fq, fun w _ => .sbBackfill (lowHalf w)⟩) rfl (by decide),
    fun s pos => ⟨fun h => ?beyond, fun h => ?within⟩⟩
  case beyond => exact if_pos h
  case within =>
    rw [ofNat_mod_256]
    exact exec_sbBackfill_within h

/-- Settles O55: the slot stands between the earlier bytes and the content, whose length is the count behind it. -/
theorem backfilledSlotHoldsItsContentsLength : Obligations.BackfilledSlotHoldsItsContentsLength := by
  intro s hcap
  refine ⟨_, sbAppend_within hcap, rfl, fun u content _ hu => ?_⟩
  replace hu : u.sb = s.sb ++ 0x00#8 :: content := hu.trans (List.append_assoc _ _ _)
  have hpos : (BitVec.ofNat 16 s.sb.length).toNat = s.sb.length := Nat.mod_eq_of_lt (by omega)
  have hlen : u.sb.length = s.sb.length + (content.length + 1) := by rw [hu, List.length_append, List.length_cons]
  refine ⟨_, exec_sbBackfill_within (by omega), ?_⟩
  show u.sb.set _ (BitVec.ofNat 8 (u.sb.length - _ - 1)) = _
  have hcount : u.sb.length - s.sb.length - 1 = content.length := by omega
  rw [hpos, hcount, hu, List.set_append_right _ _ le_rfl, Nat.sub_self, List.set_cons_zero]

end Sys2Proof.Machine
end

section
/-! PROOFS. The commands of the parse buffer: its loading, the byte and 16-bit reads, and the walk of a descriptor list
(44_parser.md R330 to R335). -/

namespace Sys2Proof.Machine

open Sys2Proof.Stated

/-! ### Loads and reads (R330 to R333) -/

/-- Settles O56: CAPACITY is the one refusal. -/
theorem pbLoadReplacesTheBuffer : Obligations.PbLoadReplacesTheBuffer :=
  ⟨counted_of_opRow rfl, fun _ _ => ⟨fun h => if_neg (Nat.not_lt.mpr h), fun h => if_pos h⟩⟩

section
variable {s : State} {off : BitVec 12}

theorem exec_pbRd8_beyond (h : s.pb.length < off.toNat + 1) :
    exec (.pbRd8 off) s = .next (s.post .s [0x31010000#32]) := by
  rw [exec, execPbRd8, byteAt, List.getElem?_eq_none (Nat.le_of_lt_succ h)]
  rfl

theorem be16At_beyond {bs : List Byte} {a : Nat} (h : bs.length < a + 2) : be16At bs a = none := by
  have hlo : bs[a + 1]? = none := List.getElem?_eq_none (Nat.le_of_lt_succ h)
  rw [be16At, hlo]
  cases bs[a]? <;> rfl

/-- Two bytes as a number (R70). -/
theorem append_eq_ofNat (hi lo : Byte) : hi ++ lo = BitVec.ofNat 16 (hi.toNat * 256 + lo.toNat) := by
  rw [← BitVec.toNat_inj, toNat_append_eq, BitVec.toNat_ofNat]
  omega

theorem be16At_loaded {bs : List Byte} {a : Nat} {hi lo : Byte} (hhi : bs[a]? = some hi) (hlo : bs[a + 1]? = some lo) :
    be16At bs a = some (BitVec.ofNat 16 (hi.toNat * 256 + lo.toNat)) := by
  rw [be16At, hhi, hlo]
  exact congrArg some (append_eq_ofNat hi lo)

theorem exec_pbRd16_beyond (h : s.pb.length < off.toNat + 2) :
    exec (.pbRd16 off) s = .next (s.post .s [0x32010000#32]) := by
  rw [exec, execPbRd16, be16At_beyond h]
  rfl

theorem exec_pbRd12_beyond (h : s.pb.length < off.toNat + 2) :
    exec (.pbRd12 off) s = .next (s.post .s [0x33010000#32]) := by
  rw [exec, execPbRd12, be16At_beyond h]
  rfl

end

/-- The 12-bit mask as a remainder (R123). -/
theorem ofNat_and_0x0FFF (n : Nat) : BitVec.ofNat 16 n &&& 0x0FFF#16 = BitVec.ofNat 16 (n % 4096) := by
  rw [← BitVec.toNat_inj, BitVec.toNat_and, BitVec.toNat_ofNat, BitVec.toNat_ofNat, BitVec.toNat_ofNat]
  have hmask : n % 2 ^ 16 &&& 0x0FFF = n % 2 ^ 16 % 2 ^ 12 := Nat.and_two_pow_sub_one_eq_mod _ 12
  exact hmask.trans (by omega)

/-- Settles O57: the byte is loaded or it is not. -/
theorem pbRd8ReadsAByte : Obligations.PbRd8ReadsAByte :=
  ⟨oneWord_of_opRow (r := ⟨.s, .fo, fun w _ => .pbRd8 (low12 w)⟩) rfl (by decide),
    fun _ _ => ⟨exec_pbRd8_beyond, fun _ => exec_pbRd8_loaded⟩⟩

/-- Settles O58: both read the value of R332, and the mask is a remainder. -/
theorem pbRd16AndPbRd12ReadBigEndian : Obligations.PbRd16AndPbRd12ReadBigEndian := by
  refine ⟨oneWord_of_opRow (r := ⟨.s, .fo, fun w _ => .pbRd16 (low12 w)⟩) rfl (by decide),
    oneWord_of_opRow (r := ⟨.s, .fo, fun w _ => .pbRd12 (low12 w)⟩) rfl (by decide),
    fun s off => ⟨fun h => ⟨exec_pbRd16_beyond h, exec_pbRd12_beyond h⟩, fun hi lo hhi hlo => ?loaded⟩⟩
  case loaded =>
    have hread := be16At_loaded hhi hlo
    rw [← ofNat_and_0x0FFF]
    exact ⟨exec_pbRd16_loaded hread, exec_pbRd12_loaded hread⟩

/-! ### The walk of a descriptor list (R334, R335) -/

/-- The bytes of a list are those of its descriptors, each with its header (R335). -/
theorem listed_length (ds : List (Byte × List Byte)) :
    (listed ds).length = (ds.map fun d => 2 + d.2.length).sum := by
  induction ds with
  | nil => rfl
  | cons d ds ih =>
    rw [listed, List.map_cons, List.sum_cons, List.length_append, ih, List.length_cons, List.length_cons,
      Nat.add_comm 2]

theorem listedWords_length (p : Nat) (ds : List (Byte × List Byte)) : (listedWords p ds).length = ds.length := by
  induction ds generalizing p with
  | nil => rfl
  | cons d ds ih => rw [listedWords, List.length_cons, List.length_cons, ih]

/-- `w` is what a walk of the descriptor list `bs` at position `p` answers: the list's whole descriptors in order, and
success exactly where nothing is left behind them (R334). -/
def WalkAnswer (bs : List Byte) (p : Nat) (w : Bool × List Desc) : Prop :=
  ∃ ds tail, bs = listed ds ++ tail ∧ (∀ d ∈ ds, d.2.length ≤ 255) ∧ w.2.map Desc.word = listedWords p ds ∧
    (w.1 = true ∧ tail = [] ∨ w.1 = false ∧ Fragment tail)

theorem WalkAnswer.nil (p : Nat) : WalkAnswer [] p (true, []) :=
  ⟨[], [], rfl, nofun, rfl, .inl ⟨rfl, rfl⟩⟩

theorem WalkAnswer.fragment {bs : List Byte} (h : Fragment bs) (p : Nat) : WalkAnswer bs p (false, []) :=
  ⟨[], bs, rfl, nofun, rfl, .inr ⟨rfl, h⟩⟩

/-- A whole descriptor stands before the answer of the list behind its payload. -/
theorem WalkAnswer.cons {tag len : Byte} {rest : List Byte} {p : Nat} {w : Bool × List Desc}
    (hlen : len.toNat ≤ rest.length) (h : WalkAnswer (rest.drop len.toNat) (p + 2 + len.toNat) w) :
    WalkAnswer (tag :: len :: rest) p (w.1, { tag := tag, len := len, off := p + 2 } :: w.2) := by
  obtain ⟨ds, tail, hbytes, hds, hwords, hend⟩ := h
  have hpayload : (rest.take len.toNat).length = len.toNat := List.length_take_of_le hlen
  have hbyte : BitVec.ofNat 8 (rest.take len.toNat).length = len := by
    rw [hpayload, BitVec.ofNat_toNat, BitVec.setWidth_eq]
  refine ⟨(tag, rest.take len.toNat) :: ds, tail, ?bytes, List.forall_mem_cons.mpr ⟨?bound, hds⟩, ?words, hend⟩
  case bytes =>
    rw [listed, hbyte, List.cons_append, List.cons_append, List.cons_append, List.cons_append, List.append_assoc,
      ← hbytes, List.take_append_drop]
  case bound => exact hpayload.trans_le (Nat.le_of_lt_succ len.isLt)
  case words => rw [List.map_cons, hwords, listedWords, hbyte, hpayload, Desc.word]

/-- The walk passes over the payload bytes it still has to skip and then answers the list behind them. -/
theorem walkList_answer (bs : List Byte) (skip p : Nat) (h : skip ≤ bs.length) :
    WalkAnswer (bs.drop skip) (p + skip) (walkList bs skip p) := by
  induction bs, skip, p using walkList.induct with
  | case1 skip p =>
    rw [List.drop_nil, walkList]
    exact .nil _
  | case2 b rest skip p ih =>
    rw [List.drop_succ_cons, walkList, ← Nat.succ_add_eq_add_succ]
    exact ih (Nat.le_of_succ_le_succ h)
  | case3 b p => exact .fragment (.inl ⟨b, rfl⟩) p
  | case4 tag len rest p hshort =>
    rw [walkList, if_pos hshort]
    exact .fragment (.inr ⟨tag, len, rest, rfl, hshort⟩) p
  | case5 tag len rest p hlong ih =>
    rw [walkList, if_neg hlong]
    have hlen := Nat.not_lt.mp hlong
    exact .cons hlen (ih hlen)

theorem exec_pbWalk_within {s : State} {off len : BitVec 12} {w : Bool × List Desc}
    (h : off.toNat + len.toNat ≤ s.pb.length)
    (hw : walkList ((s.pb.drop off.toNat).take len.toNat) 0 off.toNat = w) :
    exec (.pbWalk off len) s = .next (s.post .s
      (responseWord 0x34#8 (if w.1 then .ok else .invalid) (BitVec.ofNat 16 w.2.length) :: w.2.map Desc.word)) := by
  rw [exec, execPbWalk, if_neg (Nat.not_lt.mpr h), listBytes, hw]
  exact congrArg Host.Outcome.next (State.post_post s .s [_] _)

/-- Settles O59: the list's descriptors are those of `walkList_answer`, and by R335 an OK walk leaves no byte of it. -/
theorem pbWalkAnswersTheDescriptors : Obligations.PbWalkAnswersTheDescriptors := by
  refine ⟨oneWord_of_opRow (r := ⟨.s, .fw, fun w _ => .pbWalk (high12 w) (low12 w)⟩) rfl (by decide),
    fun s off len => ⟨fun h => if_pos h, fun h => ?within⟩⟩
  case within =>
    obtain ⟨ds, tail, hbytes, hds, hwords, hend⟩ :=
      walkList_answer ((s.pb.drop off.toNat).take len.toNat) 0 off.toNat (Nat.zero_le _)
    have hexec := exec_pbWalk_within h rfl
    have hcount := congrArg List.length hwords
    rw [List.length_map, listedWords_length] at hcount
    rw [hwords, hcount] at hexec
    refine ⟨ds, tail, hbytes, hds, ?_⟩
    obtain ⟨hok, htail⟩ | ⟨hinvalid, htail⟩ := hend
    · rw [hok] at hexec
      have hlength : ((s.pb.drop off.toNat).take len.toNat).length = len.toNat :=
        List.length_take_of_le (by rw [List.length_drop]; omega)
      refine .inl ⟨htail, ?_, hexec⟩
      rw [← listed_length, ← hlength, ← List.append_nil (listed ds), ← htail]
      exact congrArg List.length hbytes.symm
    · rw [hinvalid] at hexec
      exact .inr ⟨htail, hexec⟩

end Sys2Proof.Machine
end

section
/-! PROOFS. The DISPOSED refusal: which commands of the D and C engines make it, and that no S engine command does
(60_exceptions.md R364, R368). -/

namespace Sys2Proof.Machine

/-- Codes that are not reserved name a consumer (R103, R111 (c)). -/
theorem consumerOf_isSome_of_legalCodes :
    ∀ kind stype : BitVec 2, legalCodes kind stype = true → (consumerOf kind stype).isSome = true := by decide

theorem exec_setFilter_disposed {kind stype : BitVec 2} {s : State} (hd : s.disposed = true)
    (hl : legalCodes kind stype = true) (small video : Bool) (pid : BitVec 16) :
    exec (.setFilter kind stype small video pid) s = raise .c 0x10#8 .disposed s := by
  obtain ⟨k, hk⟩ := Option.isSome_iff_exists.mp (consumerOf_isSome_of_legalCodes kind stype hl)
  exact (exec_setFilter s pid (consumerOf_eq_some_iff.mp hk) small video).trans (pidGuarded_disposed hd)

theorem exec_readSstat_disposed {sel : BitVec 8} {s : State} (hd : s.disposed = true) (hsel : sel.toNat ≤ 0x07)
    (pid : BitVec 16) : exec (.readSstat sel pid) s = raise .d 0x06#8 .disposed s := by
  rw [exec, execReadSstat, if_neg (Nat.not_lt.mpr hsel), if_pos hd]
  rfl

/-- On a disposed block a legal command of the D or C engine is refused, but for DISPOSE and READ_GSTAT (R364). -/
theorem exec_disposed {i : Instr} {s : State} (hd : s.disposed = true) (hport : i.port ≠ .s) (hdispose : i ≠ .dispose)
    (hgstat : ∀ sel, i ≠ .readGstat sel) (hlegal : i.legal = true) :
    exec i s = raise i.port i.opcode .disposed s := by
  cases i with
  | addPayload data => exact exec_addPayload_disposed hd data
  | dispose => exact absurd rfl hdispose
  | resetStream pid => exact (exec_resetStream s pid).trans (pidGuarded_disposed hd)
  | disposeStream pid => exact (exec_disposeStream s pid).trans (pidGuarded_disposed hd)
  | readGstat sel => exact absurd rfl (hgstat sel)
  | readSstat sel pid => exact exec_readSstat_disposed hd (of_decide_eq_true hlegal) pid
  | setFilter kind stype small video pid => exact exec_setFilter_disposed hd hlegal small video pid
  | requestSection pid => exact (exec_requestSection s pid).trans (pidGuarded_disposed hd)
  | removeFilter pid => exact (exec_removeFilter s pid).trans (pidGuarded_disposed hd)
  | clearFilters => exact if_pos hd
  | setPcrSeen => exact if_pos hd
  | sbClear | sbAppendByte | sbAppendU16 | sbAppendBytes | sbAppendLang | sbReserve | sbBackfill | sbToBytes | pbLoad
  | pbRd8 | pbRd16 | pbRd12 | pbWalk => exact absurd rfl hport

/-- A command of the S engine neither reads nor writes `st.disposed` (R82, R364). -/
theorem exec_section_set_disposed {i : Instr} {s t : State} (hport : i.port = .s) (hexec : exec i s = .next t)
    (d : Bool) : exec i { s with disposed := d } = .next { t with disposed := d } := by
  obtain ⟨st, v, ds, sb, pb, -, -, -, heffect⟩ := exec_section i hport s.params s.sb s.pb
  cases hexec.symm.trans (heffect s rfl rfl rfl)
  exact heffect { s with disposed := d } rfl rfl rfl

/-- Settles O14: the DISPOSED refusal of each D and C engine command, and what every S engine command leaves alone. -/
theorem disposedRefusesDataAndControlCommands : Obligations.DisposedRefusesDataAndControlCommands :=
  ⟨fun _ _ => exec_disposed, fun _ _ _ d hport hexec => exec_section_set_disposed hport hexec d⟩

end Sys2Proof.Machine
end
